-- ==== Sys2Proof/Word.lean ====
section
/-! DEFINITION. The word types of the block (spec 00 R5, 30 R61, R65): bytes, scalars, command and response words. -/

namespace Sys2Proof

/-- A byte, unsigned (00 R5). -/
abbrev Byte := BitVec 8

/-- A brightness scalar: signed Q16.16 in 32 bits (00 R5, 42 R127). -/
abbrev Scalar := BitVec 32

/-- A length in bytes, unsigned, LENW = 32 (00 R4). -/
abbrev Len := BitVec 32

/-- A pin identifier, unsigned (30 R63). -/
abbrev Pin := BitVec 8

/-- A command word (30 R61). -/
abbrev CmdWord := BitVec 48

/-- A response word (30 R65). -/
abbrev RspWord := BitVec 40

end Sys2Proof
end

