-- ==== Sys2Proof/Syntax.lean ====
section
/-! DEFINITION. The instructions of both levels (spec 30 R60): six commands, the pseudo-instruction WRITE (30 R72) and
the two symbols. One constructor per row of spec/opcode_table.json. -/

namespace Sys2Proof

/-- The instructions. The payload of TRANSMIT, WRITE and SETREMAP is not a field: it stands in ARGBUF (30 R64, 41 R95). -/
inductive Instr where
  /-- SETBRIGHT s (42 R120). -/
  | setbright (s : Scalar)
  /-- GETBRIGHT (42 R121). -/
  | getbright
  /-- TRANSMIT pin, with `len` payload bytes (41 R95). -/
  | transmit (pin : Pin) (len : Len)
  /-- WRITE, another name of TRANSMIT with the same encoding (30 R72). -/
  | write (pin : Pin) (len : Len)
  /-- SETREMAP, with `len` payload bytes (43 R130). -/
  | setremap (len : Len)
  /-- CLEARREMAP (43 R131). -/
  | clearremap
  /-- GETREMAP (43 R132). -/
  | getremap
  /-- EMIT0 on LINE_SEL (40 R82). -/
  | emit0
  /-- EMIT1 on LINE_SEL (40 R83). -/
  | emit1
  deriving DecidableEq, Repr

end Sys2Proof
end

