-- ==== Sys2Proof/WellFormed.lean ====
section
/-! DEFINITION. Which instructions a decoder can give back, and which command words are legal (spec 30 R67, R68, R72).
Operand ranges need no check: each operand is a bit vector of its field's width. -/

namespace Sys2Proof

/-- An instruction is well formed when it is a core instruction: a pseudo-instruction is only another name (30 R72). -/
def Instr.wellFormed : Instr → Bool
  | .write _ _ => false
  | .setbright _ => true
  | .getbright => true
  | .transmit _ _ => true
  | .setremap _ => true
  | .clearremap => true
  | .getremap => true
  | .emit0 => true
  | .emit1 => true

/-- A row of the opcode map: a word selects the row when it equals `pattern` under `mask` (30 R67). -/
structure OpRow where
  mask : CmdWord
  pattern : CmdWord
  deriving DecidableEq, Repr

/-- Does the word select the row (30 R67)? -/
def OpRow.selects (r : OpRow) (w : CmdWord) : Bool := (w &&& r.mask) == r.pattern

/-- The opcode map, in the order of the spec's table (30 R67). -/
def opcodeMap : List OpRow :=
  [ ⟨0xFFFF00000000#48, 0x100000000000#48⟩,   -- SETBRIGHT
    ⟨0xFFFFFFFFFFFF#48, 0x200000000000#48⟩,   -- GETBRIGHT
    ⟨0xFF0000000000#48, 0x300000000000#48⟩,   -- TRANSMIT
    ⟨0xFFFF00000000#48, 0x400000000000#48⟩,   -- SETREMAP
    ⟨0xFFFFFFFFFFFF#48, 0x500000000000#48⟩,   -- CLEARREMAP
    ⟨0xFFFFFFFFFFFF#48, 0x600000000000#48⟩ ]  -- GETREMAP

/-- A command word is legal when it selects a row of the opcode map; otherwise it is illegal (30 R68). -/
def legalWord (w : CmdWord) : Bool := opcodeMap.any (fun r => r.selects w)

end Sys2Proof
end

