-- ==== Sys2Proof/Decode.lean ====
section
/-! DEFINITION. Decoding and encoding of both levels (spec 30 R61, R67, R69, R73): total on every word, refusing by name. -/

namespace Sys2Proof

/-- The core instruction an instruction stands for: WRITE is TRANSMIT (30 R72). -/
def Instr.canonical : Instr → Instr
  | .write pin len => .transmit pin len
  | .setbright s => .setbright s
  | .getbright => .getbright
  | .transmit pin len => .transmit pin len
  | .setremap len => .setremap len
  | .clearremap => .clearremap
  | .getremap => .getremap
  | .emit0 => .emit0
  | .emit1 => .emit1

/-- `PayloadIn` (30 R73, R64): how many payload bytes follow the instruction's word. -/
def Instr.payloadIn : Instr → Nat
  | .transmit _ len => len.toNat
  | .write _ len => len.toNat
  | .setremap len => len.toNat
  | .setbright _ => 0
  | .getbright => 0
  | .clearremap => 0
  | .getremap => 0
  | .emit0 => 0
  | .emit1 => 0

/-- Does the instruction bring a payload buffer with it, were it of no bytes (30 R64)? -/
def Instr.takesPayload : Instr → Bool
  | .transmit _ _ => true
  | .write _ _ => true
  | .setremap _ => true
  | .setbright _ => false
  | .getbright => false
  | .clearremap => false
  | .getremap => false
  | .emit0 => false
  | .emit1 => false

/-- Why bits are no instruction. The first four are the ways a command word is illegal (30 R68). -/
inductive DecodeError where
  /-- OP is 0 or 7 to 15. -/
  | reservedOpcode
  /-- The ZERO field is not 0. -/
  | zeroField
  /-- PIN is not 0 in a command other than TRANSMIT. -/
  | pinField
  /-- ARG is not 0 in GETBRIGHT, CLEARREMAP or GETREMAP. -/
  | argField
  /-- A serialised command word of fewer than six bytes. -/
  | truncated
  deriving DecidableEq, Repr

/-- Bits 47:44 (30 R61). -/
def opField (w : CmdWord) : BitVec 4 := w.extractLsb' 44 4

/-- Bits 43:40, reserved (30 R61). -/
def zeroField (w : CmdWord) : BitVec 4 := w.extractLsb' 40 4

/-- Bits 39:32 (30 R61, R63). -/
def pinField (w : CmdWord) : Pin := w.extractLsb' 32 8

/-- Bits 31:0 (30 R61, R62). -/
def argField (w : CmdWord) : BitVec 32 := w.extractLsb' 0 32

/-- A command that must have PIN = 0 (30 R61). -/
def needPinZero (w : CmdWord) (i : Instr) : Except DecodeError Instr :=
  if pinField w = 0#8 then .ok i else .error .pinField

/-- A command that must have PIN = 0 and ARG = 0 (30 R61). -/
def needNoOperand (w : CmdWord) (i : Instr) : Except DecodeError Instr :=
  if pinField w = 0#8 then (if argField w = 0#32 then .ok i else .error .argField)
  else .error .pinField

/-- Decode of a command word (30 R73). -/
def decode (w : CmdWord) : Except DecodeError Instr :=
  if zeroField w ≠ 0#4 then .error .zeroField
  else if opField w = 0x1#4 then needPinZero w (.setbright (argField w))
  else if opField w = 0x2#4 then needNoOperand w .getbright
  else if opField w = 0x3#4 then .ok (.transmit (pinField w) (argField w))
  else if opField w = 0x4#4 then needPinZero w (.setremap (argField w))
  else if opField w = 0x5#4 then needNoOperand w .clearremap
  else if opField w = 0x6#4 then needNoOperand w .getremap
  else .error .reservedOpcode

/-- One data bit selects one symbol (30 R69). -/
def symbolOf (b : Bool) : Instr := if b then .emit1 else .emit0

/-- The bits of an instruction: a command word or one data bit (30 R60). -/
inductive Code where
  | command (w : CmdWord)
  | symbol (b : BitVec 1)
  deriving DecidableEq, Repr

/-- Decode at either level. -/
def decodeCode : Code → Except DecodeError Instr
  | .command w => decode w
  | .symbol b => .ok (symbolOf (b == 1#1))

/-- `cmd_word = OP || ZERO || PIN || ARG` with ZERO = 0 (30 R61). -/
def commandWord (op : BitVec 4) (pin : Pin) (arg : BitVec 32) : CmdWord :=
  (op ++ 0#4 ++ pin ++ arg : BitVec (4 + 4 + 8 + 32))

/-- The encoder, from the opcode map (30 R67, R69, R72). -/
def encode : Instr → Code
  | .setbright s => .command (commandWord 0x1#4 0#8 s)
  | .getbright => .command (commandWord 0x2#4 0#8 0#32)
  | .transmit pin len => .command (commandWord 0x3#4 pin len)
  | .write pin len => .command (commandWord 0x3#4 pin len)
  | .setremap len => .command (commandWord 0x4#4 0#8 len)
  | .clearremap => .command (commandWord 0x5#4 0#8 0#32)
  | .getremap => .command (commandWord 0x6#4 0#8 0#32)
  | .emit0 => .symbol 0#1
  | .emit1 => .symbol 1#1

/-- A command word cut into bytes, most significant byte first (20 R41). -/
def wordBytes (w : CmdWord) : List Byte :=
  [w.extractLsb' 40 8, w.extractLsb' 32 8, w.extractLsb' 24 8,
   w.extractLsb' 16 8, w.extractLsb' 8 8, w.extractLsb' 0 8]

/-- Six bytes read as a command word, most significant byte first (20 R41). -/
def bytesWord (b5 b4 b3 b2 b1 b0 : Byte) : CmdWord :=
  (b5 ++ b4 ++ b3 ++ b2 ++ b1 ++ b0 : BitVec (8 + 8 + 8 + 8 + 8 + 8))

/-- Decode of a serialised command: the instruction and the bytes that follow its word. -/
def decodeBytes : List Byte → Except DecodeError (Instr × List Byte)
  | b5 :: b4 :: b3 :: b2 :: b1 :: b0 :: rest =>
    match decode (bytesWord b5 b4 b3 b2 b1 b0) with
    | .ok i => .ok (i, rest)
    | .error e => .error e
  | _ => .error .truncated

/-- The bits of a row of spec/opcode_table.json, numbered as the table numbers them: a row of at most one byte is a
symbol, a wider one a command word. -/
def tableCode (nbits w : Nat) : Option Code :=
  if nbits ≤ 8 then (if w < 2 then some (.symbol (BitVec.ofNat 1 w)) else none)
  else if nbits ≤ 48 then (if w < 2 ^ 48 then some (.command (BitVec.ofNat 48 w)) else none)
  else none

/-- The instruction the decoder reads from a table row's bits. -/
def decodeTableWord (nbits w : Nat) : Option Instr :=
  match tableCode nbits w with
  | some c => (decodeCode c).toOption
  | none => none

end Sys2Proof
end

