-- ==== Sys2Proof/Config.lean ====
section
/-! DEFINITION. The parameters of the block (spec 00 R4) and the free values the spec leaves open (00 R6 `draw8`,
20 R52 `AllocOK`, 41 R97). The open parameters are plain data; the free values have no body. -/

namespace Sys2Proof

/-- How ENV answers a storage request (20 R52). -/
inductive Alloc where
  /-- An unbounded capacity: always granted (00 R4, the default). -/
  | unbounded
  /-- Granted when the request is at most `cap` bytes. -/
  | atMost (cap : Nat)
  /-- A free Boolean for each request. -/
  | drawn
  deriving DecidableEq, Repr

/-- The open parameters (00 R4). NUM_LINES is the number of entries of State's pin file, F_CLK is used by no rule. -/
structure Config where
  /-- CAL, clock cycles per time-unit. -/
  cal : Nat
  /-- T_SETTLE, time-units. -/
  tSettle : Nat
  /-- PIN_MAP: the defined pin identifiers with their lines. -/
  pinMap : List (Pin × Nat)
  /-- The answer to `AllocOK(tx, n)`: TX_CAP. -/
  txAlloc : Alloc
  /-- The answer to `AllocOK(remap, n)`: REMAP_CAP. -/
  remapAlloc : Alloc
  deriving DecidableEq, Repr

/-- FREE VALUE: `draw8()`, the byte stored when a scaled value leaves 0..255 (42 R123; log entry 6). -/
opaque Config.draw8 : Nat → Byte

/-- FREE VALUE: the answer of ENV to a storage request under the free reading of AllocOK (20 R52; log entry 7). -/
opaque Config.allocDraw : Nat → Bool

/-- FREE VALUE: the time-units a settle delay lasts beyond T_SETTLE (41 R97; log entry 8). -/
opaque Config.settleExtra : Nat → Nat

end Sys2Proof
end

