-- ==== Sys2Proof/Machine/Platform.lean ====
section
/-! DEFINITION. The values of the open parameters in State.reset (log entry 2). -/

namespace Sys2Proof

/-- The platform of spec/95_test_vectors.md: PIN_MAP(p) = p for p = 0 to 7, CAL = 1, T_SETTLE = 2, no capacity.
DESIGN CHOICE, unsafe for a claim that rests on it (log entry 2). -/
def Config.testPlatform : Config where
  cal := 1
  tSettle := 2
  pinMap := [(0#8, 0), (1#8, 1), (2#8, 2), (3#8, 3), (4#8, 4), (5#8, 5), (6#8, 6), (7#8, 7)]
  txAlloc := .unbounded
  remapAlloc := .unbounded

/-- NUM_LINES of the platform of spec/95_test_vectors.md (log entry 2). -/
def Config.testLines : Nat := 8

end Sys2Proof
end

