-- ==== Sys2Proof/Machine/State.lean ====
section
/-! DEFINITION. The state of one instance of the block (spec 10 R10 to R26), as plain data, and its value after reset. -/

namespace Sys2Proof.Machine

/-- The address spaces of bytes (20 R40). -/
inductive Space where
  | argbuf | txc | rmp | resbuf
  deriving DecidableEq, Repr

/-- The bytes of one space that hold a value, by index. The canonical form is `Memory.wf` (log entry 9). -/
abbrev Memory := List Host.Cell

/-- The sequencer state ST (10 R17). -/
inductive SeqState where
  | idle | recv | exec | cfg | settle | scale | lock | high | low | unlock | resp
  deriving DecidableEq, Repr

/-- The three pin bits of a line (10 R19). -/
structure Line where
  /-- DIR: the block drives the line as a digital output. -/
  dir : Bool
  /-- PULL: the block has configured the line as floating. -/
  pull : Bool
  /-- OUT: the level driven when DIR is 1. -/
  out : Bool
  deriving DecidableEq, Repr

/-- A line the block does not drive (10 R25). -/
def Line.undriven : Line := ⟨false, false, false⟩

/-- The events of TRACE (10 R26). -/
inductive Event where
  | pinMode (l : Nat)
  | pinWrite (l : Nat) (b : Bool)
  | settle (n : Nat)
  | lock
  | emit (l : Nat) (b : Bool)
  | unlock
  | resp (word : RspWord) (payload : List Byte)
  deriving DecidableEq, Repr

/-- The input wires at one clock edge (10 R21). -/
structure PortIn where
  rst : Bool
  cmdValid : Bool
  cmdWord : CmdWord
  dinValid : Bool
  dinData : Byte
  rspReady : Bool
  doutReady : Bool
  preemptIn : Bool
  deriving DecidableEq, Repr

/-- What the HOST does next, at one of three grains (DESIGN CHOICE, log entry 1). -/
inductive Input where
  /-- A whole command: its word, its payload, and the response taken (D1's transaction level). -/
  | call (word : CmdWord) (payload : List Byte)
  /-- The time of one whole symbol passes (30 R60's lower level). -/
  | pulse
  /-- One clock edge with these wires (10 R21, R22). -/
  | edge (p : PortIn)
  deriving DecidableEq, Repr

/-- The state of the block, of the HOST's bit and of the observation. -/
@[ext]
structure State where
  /-- The parameters: no step changes them (10 R24). -/
  cfg : Config
  /-- BRIGHT (10 R11). -/
  bright : Scalar
  /-- REMAP_PRESENT (10 R12). -/
  remapPresent : Bool
  /-- REMAP_LEN (10 R13). -/
  remapLen : Len
  /-- RMP (10 R14). -/
  rmp : Memory
  /-- TXC (10 R15). -/
  txc : Memory
  /-- TXC_LEN (10 R15). -/
  txcLen : Len
  /-- CMD (10 R16). -/
  cmd : CmdWord
  /-- ARGBUF (10 R16, 20 R40). -/
  argbuf : Memory
  /-- RSP (10 R16). -/
  rsp : RspWord
  /-- RESBUF, the payload of the response in hand (20 R40). -/
  resbuf : Memory
  /-- LINE_SEL (10 R16). -/
  lineSel : Nat
  /-- BYTE_IDX (10 R16, R17). -/
  byteIdx : BitVec 32
  /-- BIT_IDX (10 R16, R17). -/
  bitIdx : BitVec 3
  /-- SHREG (10 R16). -/
  shreg : Byte
  /-- UNIT_CNT (10 R16). -/
  unitCnt : BitVec 4
  /-- PRESC (10 R16, 40 R81). -/
  presc : Nat
  /-- The settle timer: time-units left in SETTLE (60 R158 (b)). A counter of its own, of unbounded width, that shares PRESC
  with the pulse timer (DESIGN CHOICE, log entry 24). -/
  settleCnt : Nat
  /-- ST (10 R17). -/
  st : SeqState
  /-- SAVED_PREEMPT (10 R20). -/
  savedPreempt : Bool
  /-- lock_req (10 R20, R21). -/
  lockReq : Bool
  /-- In RESP: the response word has been transferred (10 R22). -/
  rspSent : Bool
  /-- In RESP: payload-out transfers done (10 R22). -/
  doutIdx : Nat
  /-- DIR, PULL and OUT of line 0, 1, ...; NUM_LINES is its length (10 R19). -/
  lines : List Line
  /-- PREEMPT, the HOST's (10 R20). -/
  preempt : Bool
  /-- What the HOST does next (log entry 1). -/
  feed : List Input
  /-- TRACE (10 R26). -/
  trace : List Event
  /-- The level of the line in each time-unit of each pulse, oldest first (10 R26, 40 R88; log entry 16). -/
  wave : List (Nat × Bool)
  /-- How many free values have been taken (log entry 6). -/
  draws : Nat
  deriving DecidableEq, Repr

/-- Why the machine stops. -/
inductive Fault where
  /-- A read of a byte that holds no value (20 R53: a fault of the model itself). Raised by `readByte` and `readBytes`
  of Machine/Ops.lean; no step of a state that meets `Safe` (Safety.lean) raises it. Safe: the model stops. -/
  | noValue (space : Space) (index : Nat)
  deriving DecidableEq, Repr

/-- Why the model gives an instruction no meaning. -/
inductive Refusal where
  /-- Raised by an arm of `exec` for an instruction without a meaning; no arm raises it. Safe: the model stops. -/
  | notModelled (mnemonic : String)
  deriving DecidableEq, Repr

/-- The outcome of a step of this machine. -/
abbrev Res := Host.Outcome State Fault Refusal

/-- The state right after reset (10 R25). The working registers, PREEMPT and the parameters hold the values of log
entries 2, 4 and 5 (DESIGN CHOICE, unsafe). -/
def State.reset : State where
  cfg := Config.testPlatform
  bright := 0x00010000#32
  remapPresent := false
  remapLen := 0#32
  rmp := []
  txc := []
  txcLen := 0#32
  cmd := 0#48
  argbuf := []
  rsp := 0#40
  resbuf := []
  lineSel := 0
  byteIdx := 0#32
  bitIdx := 0#3
  shreg := 0#8
  unitCnt := 0#4
  presc := 0
  settleCnt := 0
  st := .idle
  savedPreempt := false
  lockReq := false
  rspSent := false
  doutIdx := 0
  lines := List.replicate Config.testLines Line.undriven
  preempt := true
  feed := []
  trace := []
  wave := []
  draws := 0

end Sys2Proof.Machine
end

