-- ==== Sys2Proof/Machine/Flags.lean ====
section
/-! DEFINITION. The status codes, the response word with its FLAG bit, and BUSY (spec 30 R65, R66, 10 R18). The block has no
condition codes: these are its only flags. -/

namespace Sys2Proof.Machine

/-- The status codes that are ever produced (30 R66). -/
inductive Status where
  | ok | ePin | eAlloc | eIllegal
  deriving DecidableEq, Repr

/-- The number of a status (30 R66). -/
def Status.code : Status → BitVec 4
  | .ok => 0#4
  | .ePin => 1#4
  | .eAlloc => 2#4
  | .eIllegal => 3#4

/-- A truth value as a one-bit field. -/
def bit1 (b : Bool) : BitVec 1 := if b then 1#1 else 0#1

/-- `rsp_word = STATUS || ZERO || FLAG || VALUE` (30 R65). -/
def rspWord (status : Status) (flag : Bool) (value : BitVec 32) : RspWord :=
  (status.code ++ 0#3 ++ bit1 flag ++ value : BitVec (4 + 3 + 1 + 32))

/-- STATUS, bits 39:36 (30 R65). -/
def rspStatus (w : RspWord) : BitVec 4 := w.extractLsb' 36 4

/-- ZERO, bits 35:33 (30 R65). -/
def rspZero (w : RspWord) : BitVec 3 := w.extractLsb' 33 3

/-- FLAG, bit 32 (30 R65). -/
def rspFlag (w : RspWord) : Bool := w.getLsbD 32

/-- VALUE, bits 31:0 (30 R65). -/
def rspValue (w : RspWord) : BitVec 32 := w.extractLsb' 0 32

/-- FLAG of CLEARREMAP and GETREMAP: a copy of REMAP_PRESENT (10 R18 (b), 43 R131, R132). -/
def remapFlag (s : State) : Bool := s.remapPresent

/-- `BUSY = (ST != IDLE)` (10 R18 (a)). -/
def State.busy (s : State) : Bool := s.st != .idle

end Sys2Proof.Machine
end

