-- ==== Sys2Proof/Machine/Ops.lean ====
section
/-! DEFINITION. The named operations over buffers, pins, TRACE, storage requests, the critical section and the response
(spec 00 R6, 20 R53, 40 R80, R81, 60 R150, R155, R156). Taking an error is `raise`. -/

namespace Sys2Proof.Machine

/-- Run the next part when the first one answers a next state. -/
def andThen (r : Res) (f : State → Res) : Res :=
  match r with
  | .next s => f s
  | .fault e => .fault e
  | .refused e => .refused e

/-! ### Buffers (20 R40, R53) -/

/-- The byte at an index; an unlisted index holds no value (10 R14, R15). -/
def Memory.read : Memory → Nat → Option Byte
  | [], _ => none
  | (a, v) :: m, i => if a = i then some v else Memory.read m i

/-- `MemWrite(space, i, 1, v)`, keeping the canonical form. -/
def Memory.write : Memory → Nat → Byte → Memory
  | [], i, v => [(i, v)]
  | (a, w) :: m, i, v =>
    if i < a then (i, v) :: (a, w) :: m
    else if i = a then (i, v) :: m
    else (a, w) :: Memory.write m i v

/-- The canonical form: indices strictly rise. Every entry differs from an unlisted index, which holds no value. -/
def Memory.wf : Memory → Bool
  | [] => true
  | [_] => true
  | (a, _) :: (b, w) :: m => decide (a < b) && Memory.wf ((b, w) :: m)

/-- The buffer holds exactly the indices below `n`. -/
def Memory.dense (m : Memory) (n : Nat) : Bool := m.map Prod.fst == List.range n

/-- `for i = 0 to n-1: MemWrite(space, start + i, 1, bytes[i])`. -/
def Memory.fill : List Byte → Nat → Memory → Memory
  | [], _, m => m
  | b :: bs, i, m => Memory.fill bs (i + 1) (m.write i b)

/-- A buffer that holds these bytes from index 0 and nothing else. -/
def Memory.ofBytes (bs : List Byte) : Memory := Memory.fill bs 0 []

/-- `[MemRead(space, start, 1), ..]`, `n` bytes, or the first index that holds no value. -/
def Memory.readFrom (m : Memory) : Nat → Nat → Except Nat (List Byte)
  | _, 0 => .ok []
  | i, n + 1 =>
    match m.read i with
    | none => .error i
    | some b =>
      match Memory.readFrom m (i + 1) n with
      | .ok bs => .ok (b :: bs)
      | .error j => .error j

/-- `MemRead(space, i, 1)`; the model faults on a byte that holds no value (20 R53). -/
def readByte (space : Space) (m : Memory) (i : Nat) (k : Byte → Res) : Res :=
  match m.read i with
  | some b => k b
  | none => .fault (.noValue space i)

/-- The first `n` bytes of a space, in index order. -/
def readBytes (space : Space) (m : Memory) (n : Nat) (k : List Byte → Res) : Res :=
  match m.readFrom 0 n with
  | .ok bs => k bs
  | .error i => .fault (.noValue space i)

/-! ### Plain register writes: one name each, so that no proof unfolds a record (00 R6, `X <- v`) -/

/-- `ST <- q` (00 R6, `SEQ <- s`). -/
def State.goto (s : State) (q : SeqState) : State := { s with st := q }

/-- `BRIGHT <- v` (42 R120). -/
def State.storeBright (s : State) (v : Scalar) : State := { s with bright := v }

/-- `LINE_SEL <- l` (41 R96). -/
def State.selectLine (s : State) (l : Nat) : State := { s with lineSel := l }

/-- `BIT_IDX <- j` (41 R108). -/
def State.setBit (s : State) (j : BitVec 3) : State := { s with bitIdx := j }

/-- `BYTE_IDX <- k`, `BIT_IDX <- 7` and `SHREG <- v`, the byte at `k` (41 R108, R109). -/
def State.loadByte (s : State) (k : BitVec 32) (v : Byte) : State :=
  { s with byteIdx := k, bitIdx := 7#3, shreg := v }

/-- `UNIT_CNT <- n` (40 R84). -/
def State.setUnits (s : State) (n : Nat) : State := { s with unitCnt := BitVec.ofNat 4 n }

/-- `PRESC <- n` (40 R81). -/
def State.setPresc (s : State) (n : Nat) : State := { s with presc := n }

/-- A time-unit of the settle delay has passed (60 R158). -/
def State.settleTick (s : State) : State := { s with settleCnt := s.settleCnt - 1 }

/-- What the HOST does next is `f`. -/
def State.setFeed (s : State) (f : List Input) : State := { s with feed := f }

/-! ### TRACE and pins (10 R19, R26, 40 R80) -/

/-- `emit(e)` of the pseudocode (00 R6). -/
def State.event (s : State) (e : Event) : State := { s with trace := s.trace ++ [e] }

/-- NUM_LINES (00 R4; log entry 3). -/
def State.numLines (s : State) : Nat := s.lines.length

/-- The pin bits of line `l`. -/
def State.line (s : State) (l : Nat) : Line := s.lines.getD l Line.undriven

/-- Replace the pin bits of line `l`. -/
def State.setLine (s : State) (l : Nat) (x : Line) : State := { s with lines := s.lines.set l x }

/-- `OUT[l] <- b` with no event: a pin write inside a pulse (40 R80). -/
def State.level (s : State) (l : Nat) (b : Bool) : State := s.setLine l { s.line l with out := b }

/-- `PinMode(l, OUTPUT, FLOAT)` (40 R80). -/
def State.pinMode (s : State) (l : Nat) : State :=
  (s.setLine l { s.line l with dir := true, pull := true }).event (.pinMode l)

/-- `PinWrite(l, b)` outside a pulse (40 R80). -/
def State.pinWrite (s : State) (l : Nat) (b : Bool) : State := (s.level l b).event (.pinWrite l b)

/-! ### Time (40 R81, 41 R97) -/

/-- What a logic analyser on LINE_SEL samples in the present time-unit (10 R26, 60 R161; log entry 16). -/
def State.levelNow (s : State) : Nat × Bool := (s.lineSel, (s.line s.lineSel).out)

/-- `DelayUnits(n)` inside a pulse: `n` time-units pass and only PRESC and UNIT_CNT change (40 R81). -/
def State.delayUnits (s : State) (n : Nat) : State :=
  if n = 0 then s
  else { s with wave := s.wave ++ List.replicate n s.levelNow, unitCnt := 0#4, presc := 0 }

/-- Start the settle timer: at least T_SETTLE time-units, how many more is free (41 R97; log entry 8). It counts in
`settleCnt`, a counter of its own beside UNIT_CNT (DESIGN CHOICE, log entry 24). -/
def State.startSettle (s : State) : State :=
  { s with settleCnt := s.cfg.tSettle + Config.settleExtra s.draws, draws := s.draws + 1 }

/-- The settle delay is over: `emit(EvSettle(T_SETTLE))` (41 R97, R103). -/
def State.endSettle (s : State) : State := ({ s with settleCnt := 0 }).event (.settle s.cfg.tSettle)

/-! ### Storage requests (20 R52) -/

/-- The answer to a request for `n` bytes; `k` numbers the request under the free reading. -/
def allocAnswer (a : Alloc) (n k : Nat) : Bool :=
  match a with
  | .unbounded => true
  | .atMost cap => decide (n ≤ cap)
  | .drawn => Config.allocDraw k

/-- `AllocOK(tx, n)`. -/
def State.txOK (s : State) (n : Nat) : Bool := allocAnswer s.cfg.txAlloc n s.draws

/-- `AllocOK(remap, n)`. -/
def State.remapOK (s : State) (n : Nat) : Bool := allocAnswer s.cfg.remapAlloc n s.draws

/-- A request has been answered: the next free value is another one. -/
def State.asked (s : State) : State := { s with draws := s.draws + 1 }

/-! ### The critical section (60 R155, R156) -/

/-- `Lock()` (60 R155). -/
def State.lock (s : State) : State :=
  ({ s with savedPreempt := s.preempt, preempt := false, lockReq := true }).event .lock

/-- `Unlock()`: the prior preemption state is restored (60 R156). -/
def State.unlock (s : State) : State :=
  ({ s with preempt := s.savedPreempt, lockReq := false }).event .unlock

/-! ### The response and errors (30 R65, 60 R150) -/

/-- `Respond(status, flag, value, payload)`, and `ST <- RESP` (30 R65, 10 R22). -/
def respond (status : Status) (flag : Bool) (value : BitVec 32) (payload : List Byte) (s : State) : State :=
  ({ s with rsp := rspWord status flag value, resbuf := Memory.ofBytes payload, rspSent := false, doutIdx := 0,
            st := .resp }).event (.resp (rspWord status flag value) payload)

/-- `raise E` (60 R150): the error is a value in the response; nothing is saved and no mode changes. -/
def raise (e : Status) (s : State) : State := respond e false 0#32 [] s

/-- The response word and all payload bytes have been transferred: `TXC_LEN <- 0`, `ST <- IDLE` (41 R108). -/
def finish (s : State) : State :=
  { s with txc := [], txcLen := 0#32, resbuf := [], rspSent := false, doutIdx := 0, st := .idle }

end Sys2Proof.Machine
end

