-- ==== Sys2Proof/Machine/Operands.lean ====
section
/-! DEFINITION. The operand forms (spec 30 R62, R63, R64): a pin identifier, a scalar with the scaling law, a length with
its payload. -/

namespace Sys2Proof.Machine

/-- `PIN_MAP(pin)`: none where it is undefined (20 R45). An entry that names no line of the block counts as undefined
(log entry 3). -/
def State.pinLine (s : State) (pin : Pin) : Option Nat :=
  match s.cfg.pinMap.lookup pin with
  | some l => if l < s.numLines then some l else none
  | none => none

/-- `q = floor((v * r + 32768) / 65536)`, exact (42 R122, R124). Int division by a positive number rounds down. -/
def scaleInt (v : Byte) (r : Scalar) : Int := ((v.toNat : Int) * r.toInt + 32768) / 65536

/-- `Scale(v, r)`: the byte, and the number of free values taken, given that `k` were taken before (42 R122, R123). -/
def scale (v : Byte) (r : Scalar) (k : Nat) : Byte × Nat :=
  if 0 ≤ scaleInt v r ∧ scaleInt v r ≤ 255 then (BitVec.ofInt 8 (scaleInt v r), k)
  else (Config.draw8 k, k + 1)

/-- `Scale` of every byte of a buffer, in index order (41 R98). -/
def scaleAll (r : Scalar) : Nat → List Byte → List Byte × Nat
  | k, [] => ([], k)
  | k, v :: vs =>
    ((scale v r k).1 :: (scaleAll r (scale v r k).2 vs).1, (scaleAll r (scale v r k).2 vs).2)

/-- The payload of the command in hand, `n` bytes of ARGBUF (30 R64). -/
def readPayload (n : Len) (s : State) (k : List Byte → Res) : Res := readBytes .argbuf s.argbuf n.toNat k

end Sys2Proof.Machine
end

