-- ==== Sys2Proof/Machine/Brightness.lean ====
section
/-! DEFINITION. SETBRIGHT and GETBRIGHT (spec 42 R120, R121). -/

namespace Sys2Proof.Machine

/-- SETBRIGHT s: BRIGHT <- s, answered with the new value (42 R120). -/
def execSetbright (v : Scalar) (s : State) : Res := .next (respond .ok false v [] (s.storeBright v))

/-- GETBRIGHT (42 R121). -/
def execGetbright (s : State) : Res := .next (respond .ok false s.bright [] s)

end Sys2Proof.Machine
end

