-- ==== Sys2Proof/Machine/Remap.lean ====
section
/-! DEFINITION. SETREMAP, CLEARREMAP, GETREMAP and the lookup (spec 43 R130 to R137). -/

namespace Sys2Proof.Machine

/-- The new table replaces the old one, of which no byte remains (43 R130). -/
def State.storeTable (s : State) (n : Len) (bytes : List Byte) : State :=
  { s with rmp := Memory.ofBytes bytes, remapLen := n, remapPresent := true }

/-- The table is gone: no entry holds a value (43 R131). -/
def State.dropTable (s : State) : State := { s with remapPresent := false, remapLen := 0#32, rmp := [] }

/-- SETREMAP: the storage is asked for while the old table still stands (43 R130, R136). -/
def execSetremap (n : Len) (s : State) : Res :=
  if s.remapOK n.toNat then
    readPayload n s.asked fun bytes => .next (respond .ok false 0#32 [] (s.asked.storeTable n bytes))
  else .next (raise .eAlloc s.asked)

/-- CLEARREMAP (43 R131). -/
def execClearremap (s : State) : Res := .next (respond .ok (remapFlag s) 0#32 [] s.dropTable)

/-- GETREMAP (43 R132). -/
def execGetremap (s : State) : Res :=
  if s.remapPresent then
    readBytes .rmp s.rmp s.remapLen.toNat fun bytes => .next (respond .ok (remapFlag s) s.remapLen bytes s)
  else .next (respond .ok (remapFlag s) 0#32 [] s)

/-- `RemapLookup(i)` (43 R134); called by no command. -/
def State.remapLookup (s : State) (i : Nat) : Nat :=
  if s.remapPresent ∧ i < s.remapLen.toNat then ((s.rmp.read i).getD 0#8).toNat else i

/-- The suggested `WireOrder[k]` of the non-normative REMAP_APPLY = 1, for a buffer of `n` bytes (43 R135); called by no
command (log entry 17). -/
def State.wireOrder (s : State) (n k : Nat) : Nat :=
  if k / 3 < n / 3 ∧ s.remapLookup (k / 3) < n / 3 then 3 * s.remapLookup (k / 3) + k % 3 else k

end Sys2Proof.Machine
end

