-- ==== Sys2Proof/Machine/PinDriver.lean ====
section
/-! DEFINITION. The pulse figures (spec 00 R4, 30 R70), the symbols EMIT0 and EMIT1 and the waveform function (spec 40 R82, R83, R88). -/

namespace Sys2Proof.Machine

/-- T0H: time-units high of a logical 0 (00 R4). -/
def t0H : Nat := 4
/-- T0L: time-units low of a logical 0 (00 R4). -/
def t0L : Nat := 9
/-- T1H: time-units high of a logical 1 (00 R4). -/
def t1H : Nat := 8
/-- T1L: time-units low of a logical 1 (00 R4). -/
def t1L : Nat := 6

/-- `TH(b)` (40 R84). -/
def tH (b : Bool) : Nat := if b then t1H else t0H
/-- `TL(b)` (40 R84). -/
def tL (b : Bool) : Nat := if b then t1L else t0L

/-- One pulse-shape call on LINE_SEL: rising edge, TH(b) units, falling edge, TL(b) units (40 R82, R83). -/
def emitSymbol (b : Bool) (s : State) : State :=
  ((((s.event (.emit s.lineSel b)).level s.lineSel true).delayUnits (tH b)).level s.lineSel false).delayUnits (tL b)

/-- EMIT0 (40 R82). -/
def execEmit0 (s : State) : Res := .next (emitSymbol false s)

/-- EMIT1 (40 R83). -/
def execEmit1 (s : State) : Res := .next (emitSymbol true s)

/-- `Pulse(b)`: a list of levels, one per time-unit (40 R88). -/
def pulse (b : Bool) : List Bool := List.replicate (tH b) true ++ List.replicate (tL b) false

/-- The bits of a byte in the order they are sent, bit 7 first (20 R41). -/
def byteBits (v : Byte) : List Bool :=
  [v.getLsbD 7, v.getLsbD 6, v.getLsbD 5, v.getLsbD 4, v.getLsbD 3, v.getLsbD 2, v.getLsbD 1, v.getLsbD 0]

/-- The bits of a buffer in the order they are sent (41 R100). -/
def bitsOf (bytes : List Byte) : List Bool := bytes.flatMap byteBits

/-- `WaveByte(v)` (40 R88). -/
def waveByte (v : Byte) : List Bool := (byteBits v).flatMap pulse

/-- `Wave(L)` (40 R88). -/
def waveOf (bytes : List Byte) : List Bool := bytes.flatMap waveByte

end Sys2Proof.Machine
end

