-- ==== Sys2Proof/Machine/Transmit.lean ====
section
/-! DEFINITION. TRANSMIT and its other name WRITE (spec 41 R95 to R112): the whole algorithm of rule R103. -/

namespace Sys2Proof.Machine

/-- Step 1 on the resolved line: floating output, low, settle (41 R96, R97). -/
def State.configure (s : State) (l : Nat) : State :=
  ((((s.selectLine l).pinMode l).pinWrite l false).startSettle).endSettle

/-- The transmit copy is written byte by byte; BYTE_IDX ends at the last byte scaled (41 R98, 10 R16). -/
def State.storeCopy (s : State) (n : Len) (bytes : List Byte) : State :=
  { s with txc := Memory.ofBytes (scaleAll s.bright s.draws bytes).1, txcLen := n,
           draws := (scaleAll s.bright s.draws bytes).2,
           byteIdx := if n = 0#32 then s.byteIdx else n - 1#32 }

/-- Step 2: ask for storage, then scale ARGBUF into TXC (41 R98). -/
def withCopy (n : Len) (s : State) (k : State → Res) : Res :=
  if s.txOK n.toNat then readPayload n s.asked fun bytes => k (s.asked.storeCopy n bytes)
  else .next (raise .eAlloc s.asked)

/-- One bit of SHREG picks the symbol (41 R100, 30 R69). -/
def sendBit (j : BitVec 3) (s : State) : State :=
  emitSymbol (s.shreg.getLsbD j.toNat) (s.setBit j)

/-- SHREG <- TXC[k], then its bits, 7 down to 0 (41 R100). -/
def sendByte (k : Nat) (v : Byte) (s : State) : State :=
  [7#3, 6#3, 5#3, 4#3, 3#3, 2#3, 1#3, 0#3].foldl (fun t j => sendBit j t)
    (s.loadByte (BitVec.ofNat 32 k) v)

/-- The bytes in ascending index (41 R100). -/
def sendBytes : List Byte → Nat → State → State
  | [], _, s => s
  | v :: vs, k, s => sendBytes vs (k + 1) (sendByte k v s)

/-- Step 4, the Bit Encoder: the bytes of TXC (41 R100). -/
def sendCopy (s : State) : Res := readBytes .txc s.txc s.txcLen.toNat fun bytes => .next (sendBytes bytes 0 s)

/-- Step 6: the echo is TXC (41 R102). -/
def echo (s : State) : Res :=
  readBytes .txc s.txc s.txcLen.toNat fun bytes => .next (respond .ok false s.txcLen bytes s)

/-- The copy is destroyed (41 R102, R103). -/
def State.dropCopy (s : State) : State := { s with txc := [], txcLen := 0#32 }

/-- Steps 3 to 6 (41 R99 to R102). -/
def sendAndEcho (s : State) : Res :=
  andThen (sendCopy s.lock) fun t => andThen (echo t.unlock) fun u => .next u.dropCopy

/-- The whole algorithm (41 R103). -/
def transmitBuffer (pin : Pin) (n : Len) (s : State) : Res :=
  match s.pinLine pin with
  | none => .next (raise .ePin s)
  | some l => withCopy n (s.configure l) sendAndEcho

/-- TRANSMIT (41 R95, R103). -/
def execTransmit (pin : Pin) (n : Len) (s : State) : Res := transmitBuffer pin n s

/-- WRITE, another name of TRANSMIT (30 R72). -/
def execWrite (pin : Pin) (n : Len) (s : State) : Res := transmitBuffer pin n s

end Sys2Proof.Machine
end

