-- ==== Sys2Proof/Machine/Dispatch.lean ====
section
/-! DEFINITION. One arm per instruction: a direct call of its meaning. -/

namespace Sys2Proof.Machine

def exec (i : Instr) (s : State) : Host.Outcome State Fault Refusal :=
  match i with
  | .setbright v => Sys2Proof.Machine.execSetbright v s
  | .getbright => Sys2Proof.Machine.execGetbright s
  | .transmit pin n => Sys2Proof.Machine.execTransmit pin n s
  | .write pin n => Sys2Proof.Machine.execWrite pin n s
  | .setremap n => Sys2Proof.Machine.execSetremap n s
  | .clearremap => Sys2Proof.Machine.execClearremap s
  | .getremap => Sys2Proof.Machine.execGetremap s
  | .emit0 => Sys2Proof.Machine.execEmit0 s
  | .emit1 => Sys2Proof.Machine.execEmit1 s

end Sys2Proof.Machine
end

