-- ==== Sys2Proof/Machine/Sequencer.lean ====
section
/-! DEFINITION. One clock edge: the handshake (spec 10 R22), the sequencer's transition table (41 R108), the pulse timer
(40 R84), reset (70 R170, R171); and one whole symbol (30 R60). -/

namespace Sys2Proof.Machine

/-! ### Command issue (10 R22, 41 R108 rows IDLE and RECV) -/

/-- How many payload bytes follow a word: none after an illegal one (30 R64). -/
def wordPayload (w : CmdWord) : Nat :=
  match decode w with
  | .ok i => i.payloadIn
  | .error _ => 0

/-- Does the word bring a payload buffer, were it of no bytes? -/
def wordTakesPayload (w : CmdWord) : Bool :=
  match decode w with
  | .ok i => i.takesPayload
  | .error _ => false

/-- `CMD <- cmd_word`; ARGBUF starts empty for a word that brings a payload (10 R22). -/
def State.latch (s : State) (w : CmdWord) : State :=
  { s with cmd := w, argbuf := if wordTakesPayload w then [] else s.argbuf }

/-- The line of a TRANSMIT whose payload is complete (41 R108, rows RECV). -/
def resolvePin (pin : Pin) (s : State) : State :=
  match s.pinLine pin with
  | none => raise .ePin s
  | some l => (s.selectLine l).goto .cfg

/-- The word and its whole payload have been taken: execution starts (41 R108). -/
def startCommand (s : State) : State :=
  match decode s.cmd with
  | .ok (.transmit pin _) => resolvePin pin s
  | _ => s.goto .exec

/-- A command transfer (41 R108, rows IDLE). -/
def acceptWord (w : CmdWord) (s : State) : State :=
  if 0 < wordPayload w then (s.latch w).goto .recv else startCommand (s.latch w)

/-- A payload-in transfer: ARGBUF[0], ARGBUF[1], ... in turn (10 R22). -/
def State.takeByte (s : State) (b : Byte) : State :=
  { s with argbuf := s.argbuf.write s.argbuf.length b }

/-- RECV: the last transfer starts execution (41 R108, rows RECV); a byte can be taken in every cycle (DESIGN CHOICE, log
entry 25). -/
def recvEdge (p : PortIn) (s : State) : State :=
  if p.dinValid then
    (if (s.takeByte p.dinData).argbuf.length < wordPayload s.cmd then s.takeByte p.dinData
     else startCommand (s.takeByte p.dinData))
  else s

/-- EXEC: the rule of the command in CMD, or E_ILLEGAL (41 R108, 30 R68, 60 R148). -/
def execEdge (s : State) : Res :=
  match decode s.cmd with
  | .ok i => exec i s
  | .error _ => .next (raise .eIllegal s)

/-! ### TRANSMIT up to the first rising edge (41 R108, rows CFG to LOCK) -/

/-- CFG: `PinMode; PinWrite 0`, and the settle timer starts. -/
def cfgEdge (s : State) : State :=
  ((((s.pinMode s.lineSel).pinWrite s.lineSel false).startSettle).setPresc 0).goto .settle

/-- One clock cycle of a time-unit: PRESC counts, and the CAL-th cycle ends the unit (40 R81). -/
def unitClock (s : State) (k : State → Res) : Res :=
  if s.presc + 1 < s.cfg.cal then .next (s.setPresc (s.presc + 1)) else k (s.setPresc 0)

/-- SETTLE: the timer runs down, then `emit(EvSettle(T_SETTLE))`. -/
def settleEdge (s : State) : Res :=
  if s.settleCnt = 0 then .next (s.endSettle.goto .scale)
  else unitClock s fun t => .next t.settleTick

/-- SCALE: the length is the ARG field of the TRANSMIT in CMD. -/
def scaleEdge (s : State) : Res := withCopy (argField s.cmd) s fun t => .next (t.goto .lock)

/-- The bit being sent: `SHREG[BIT_IDX]` (40 R84). -/
def State.bitNow (s : State) : Bool := s.shreg.getLsbD s.bitIdx.toNat

/-- `StartPulse(b)` with `b = SHREG[BIT_IDX]` (40 R84). -/
def startPulse (s : State) : State :=
  (((((s.event (.emit s.lineSel s.bitNow)).level s.lineSel true).goto .high).setUnits (tH s.bitNow))).setPresc 0

/-- `Lock(); BYTE_IDX <- 0; BIT_IDX <- 7; SHREG <- TXC[0]`, or straight to UNLOCK for an empty copy. -/
def enterCritical (s : State) (k : State → Res) : Res :=
  if s.txcLen = 0#32 then .next (s.lock.goto .unlock)
  else readByte .txc s.txc 0 fun v => k (s.lock.loadByte 0#32 v)

/-! ### The pulse timer (40 R84, 41 R108 rows HIGH and LOW) -/

/-- The index part of `NextBit()` (41 R108): the next bit of SHREG, or the next byte of TXC, or `ST <- UNLOCK`. -/
def nextIndex (s : State) : Res :=
  if s.bitIdx ≠ 0#3 then .next (s.setBit (s.bitIdx - 1#3))
  else if s.byteIdx.toNat + 1 < s.txcLen.toNat then
    readByte .txc s.txc (s.byteIdx.toNat + 1) fun v =>
      .next (s.loadByte (s.byteIdx + 1#32) v)
  else .next (s.goto .unlock)

/-- `NextBit()` (41 R108). -/
def nextBit (s : State) : Res :=
  andThen (nextIndex s) fun t => .next (if t.st = .unlock then t else startPulse t)

/-- A time-unit of a pulse ends: the analyser has one more sample (log entry 16). -/
def State.sampled (s : State) : State := { s with wave := s.wave ++ [s.levelNow] }

/-- Between two symbols of a TRANSMIT: no time-unit of the last one is left, and (BYTE_IDX, BIT_IDX) names the next.
Only `pulseStep` leads here (log entry 13). -/
def State.atSymbol (s : State) : Bool := s.st == .low && s.unitCnt == 0#4

/-- The step per time-unit in HIGH (40 R84). -/
def highUnit (s : State) : State :=
  if 1 < s.unitCnt.toNat then s.setUnits (s.unitCnt.toNat - 1)
  else ((s.level s.lineSel false).goto .low).setUnits (tL s.bitNow)

/-- The step per time-unit in LOW (40 R84). -/
def lowUnit (s : State) : Res :=
  if 1 < s.unitCnt.toNat then .next (s.setUnits (s.unitCnt.toNat - 1)) else nextBit s

/-- A clock edge in LOW: between two symbols the next pulse starts, else the present time-unit runs on (40 R84). -/
def lowEdge (s : State) : Res :=
  if s.atSymbol then .next (startPulse s) else unitClock s fun t => lowUnit t.sampled

/-- A clock edge in HIGH (40 R84). -/
def highEdge (s : State) : Res := unitClock s fun t => .next (highUnit t.sampled)

/-- UNLOCK: `Unlock(); Respond(OK, 0, TXC_LEN, TXC)` (41 R108). -/
def unlockEdge (s : State) : Res := echo s.unlock

/-- RESP: the response transfer, then the payload-out transfers, then IDLE (10 R22, 41 R108); each can happen in the cycle
after the one before (DESIGN CHOICE, log entry 25). -/
def respEdge (p : PortIn) (s : State) : State :=
  if s.rspSent = false then
    (if p.rspReady then (if s.resbuf.length = 0 then finish s else { s with rspSent := true }) else s)
  else if p.doutReady then
    (if s.doutIdx + 1 < s.resbuf.length then { s with doutIdx := s.doutIdx + 1 } else finish s)
  else s

/-! ### The edge -/

/-- PREEMPT is the HOST's while lock_req = 0; while it is 1 the HOST cannot change it (10 R20, D19; log entry 14). -/
def State.hostPreempt (s : State) (b : Bool) : State := if s.lockReq then s else { s with preempt := b }

/-- `rst = 1`: the reset state. The parameters, the number of lines, what the HOST does next and the numbering of the free
values are not the block's; PREEMPT is the HOST's own again (70 R170, R171, 10 R20; log entries 5, 22). -/
def resetEdge (s : State) : State :=
  { State.reset with
    cfg := s.cfg, lines := List.replicate s.numLines Line.undriven,
    preempt := if s.lockReq then s.savedPreempt else s.preempt, feed := s.feed, draws := s.draws }

/-- One row of the transition table, by ST (41 R108). -/
def seqEdge (p : PortIn) (s : State) : Res :=
  match s.st with
  | .idle => .next (if p.cmdValid then acceptWord p.cmdWord s else s)
  | .recv => .next (recvEdge p s)
  | .exec => execEdge s
  | .cfg => .next (cfgEdge s)
  | .settle => settleEdge s
  | .scale => scaleEdge s
  | .lock => enterCritical s fun t => .next (startPulse t)
  | .high => highEdge s
  | .low => lowEdge s
  | .unlock => unlockEdge s
  | .resp => .next (respEdge p s)

/-- One rising edge of `clk` with these input wires (10 R21, R22). -/
def edge (p : PortIn) (s : State) : Res :=
  if p.rst then .next (resetEdge (s.hostPreempt p.preemptIn)) else seqEdge p (s.hostPreempt p.preemptIn)

/-- The wires of a HOST that issues nothing, takes what it is given and leaves PREEMPT alone (70 R180; log entry 10). -/
def State.quiet (s : State) : PortIn where
  rst := false
  cmdValid := false
  cmdWord := 0#48
  dinValid := false
  dinData := 0#8
  rspReady := true
  doutReady := true
  preemptIn := s.preempt

/-! ### The symbol grain (30 R60; log entry 13) -/

/-- One whole symbol: the one the sequencer's position names, and then the position moves on. From LOCK the critical
section is entered. At any other place an ordinary clock edge passes. -/
def pulseStep (s : State) : Res :=
  if s.atSymbol then andThen (exec (symbolOf s.bitNow) s) nextIndex
  else if s.st = .lock then enterCritical s fun t =>
    .next (((t.goto .low).setUnits 0).setPresc 0)
  else edge s.quiet s

end Sys2Proof.Machine
end

