-- ==== Sys2Proof/Machine/Command.lean ====
section
/-! DEFINITION. A whole command as one step (spec 92 D1: the transaction level): issue, payload, execution, response. -/

namespace Sys2Proof.Machine

/-- CMD and ARGBUF after the word and its whole payload have been taken: exactly `PayloadIn` bytes (30 R64, 10 R22). -/
def State.issue (s : State) (w : CmdWord) (payload : List Byte) : State :=
  { s.latch w with argbuf := if wordTakesPayload w then Memory.ofBytes (payload.take (wordPayload w)) else s.argbuf }

/-- A whole command from IDLE. A HOST that supplies too few bytes leaves the block in RECV (log entry 11). -/
def callStep (w : CmdWord) (payload : List Byte) (s : State) : Res :=
  match decode w with
  | .error _ => .next (finish (raise .eIllegal (s.latch w)))
  | .ok i =>
    if payload.length < i.payloadIn then .next ((s.issue w payload).goto .recv)
    else andThen (exec i (s.issue w payload)) fun t => .next (finish t)

/-- The HOST is about to issue this word with a payload of zeros. -/
def State.placeCommand (s : State) (w : CmdWord) : State :=
  { s with st := .idle, feed := .call w (List.replicate (wordPayload w) 0#8) :: s.feed }

/-- The sequencer stands before one symbol of data bit `b`, in the critical section, on a configured line that is low
(the precondition of 40 R82). -/
def State.placeSymbol (s : State) (b : Bool) : State :=
  { s with st := .low, unitCnt := 0#4, presc := 0, lockReq := true, savedPreempt := s.preempt, preempt := false,
           shreg := if b then 0x80#8 else 0x00#8, bitIdx := 7#3, byteIdx := 0#32,
           txc := Memory.ofBytes [if b then 0x80#8 else 0x00#8], txcLen := 1#32,
           lines := s.lines.set s.lineSel ⟨true, true, false⟩, feed := .pulse :: s.feed }

/-- The bits of either level, placed where the next step takes them from (log entry 18). -/
def State.placeCode (s : State) : Code → State
  | .command w => s.placeCommand w
  | .symbol b => s.placeSymbol (b == 1#1)

end Sys2Proof.Machine
end

