-- ==== Sys2Proof/Machine/Ports.lean ====
section
/-! DEFINITION. The output wires, functions of the state (spec 10 R17, R21, R22). -/

namespace Sys2Proof.Machine

/-- The output wires (10 R21). `rspWord` and `doutData` mean something only while their valid wire is 1. -/
structure PortOut where
  cmdReady : Bool
  dinReady : Bool
  rspValid : Bool
  rspWord : RspWord
  doutValid : Bool
  doutData : Option Byte
  lockReq : Bool
  lineOe : List Bool
  lineFloat : List Bool
  lineOut : List Bool
  deriving DecidableEq, Repr

/-- `cmd_ready = not BUSY`; payload in RECV, response and payload out in RESP; the lines' three bits (10 R21, R22). That
din_ready is 1 in every cycle of RECV, rsp_valid from the first cycle of RESP and dout_valid from the cycle after the
response transfer, without gaps, is the model's (DESIGN CHOICE, log entry 25). -/
def State.ports (s : State) : PortOut where
  cmdReady := !s.busy
  dinReady := s.st == .recv
  rspValid := s.st == .resp && !s.rspSent
  rspWord := s.rsp
  doutValid := s.st == .resp && s.rspSent
  doutData := s.resbuf.read s.doutIdx
  lockReq := s.lockReq
  lineOe := s.lines.map Line.dir
  lineFloat := s.lines.map Line.pull
  lineOut := s.lines.map Line.out

/-- The sequencer position, in the place of a program counter (10 R17). -/
def State.seq (s : State) : SeqState × BitVec 32 × BitVec 3 × BitVec 4 := (s.st, s.byteIdx, s.bitIdx, s.unitCnt)

/-- The level on the wire of line `l`: none where the block does not drive it (10 R19). -/
def State.wire (s : State) (l : Nat) : Option Bool := if (s.line l).dir then some (s.line l).out else none

end Sys2Proof.Machine
end

