-- ==== Sys2Proof/Machine/Step.lean ====
section
/-! DEFINITION. One step: the next thing the HOST does, or a quiet clock edge (log entry 1). -/

namespace Sys2Proof.Machine

/-- One step. A command waits while the block is busy: `cmd_ready = 0` (spec 10 R22). -/
def step (s : State) : Host.Outcome State Fault Refusal :=
  match s.feed with
  | [] => edge s.quiet s
  | .edge p :: rest => edge p (s.setFeed rest)
  | .pulse :: rest => pulseStep (s.setFeed rest)
  | .call w payload :: rest =>
    if s.st = .idle then callStep w payload (s.setFeed rest) else edge s.quiet s

/-- The state with a table row's bits placed where `step` takes its next instruction from; unchanged where the bits are
of no level (log entry 18). -/
def State.withFetchWord (s : State) (nbits w : Nat) : State :=
  match tableCode nbits w with
  | some c => s.placeCode c
  | none => s

end Sys2Proof.Machine
end

