-- ==== Sys2Proof/Safety.lean ====
section
/-! DEFINITION. What the states of a run have in common, and what the claims call safe (spec 10 R27, 60 R151). -/

namespace Sys2Proof.Machine

/-- The states inside the critical section (10 R20, 41 R111). -/
abbrev SeqState.critical (q : SeqState) : Prop := q = .high ∨ q = .low ∨ q = .unlock

/-- The states of a TRANSMIT in which its line has been configured (41 R97). -/
abbrev SeqState.configured (q : SeqState) : Prop :=
  q = .settle ∨ q = .scale ∨ q = .lock ∨ q = .high ∨ q = .low ∨ q = .unlock

/-- Each buffer is in canonical form (log entry 9). -/
abbrev State.CanonicalBuffers (s : State) : Prop :=
  s.argbuf.wf = true ∧ s.txc.wf = true ∧ s.rmp.wf = true ∧ s.resbuf.wf = true

/-- Each buffer holds exactly its present size (20 R40, 10 R13, R14, R15). -/
abbrev State.BuffersExact (s : State) : Prop :=
  s.rmp.dense s.remapLen.toNat = true ∧ s.txc.dense s.txcLen.toNat = true ∧
  s.argbuf.dense s.argbuf.length = true ∧ s.resbuf.dense s.resbuf.length = true

/-- `n` bytes are within the capacity, where there is one (20 R52). -/
def withinCap (a : Alloc) (n : Nat) : Bool :=
  match a with
  | .atMost cap => decide (n ≤ cap)
  | .unbounded => true
  | .drawn => true

/-- An absent table has length 0; a held table was granted its storage (10 R13, R27). -/
abbrev State.TableOK (s : State) : Prop :=
  (s.remapPresent = false → s.remapLen = 0#32) ∧ withinCap s.cfg.remapAlloc s.remapLen.toNat = true

/-- The payload in ARGBUF is the one the command in CMD asks for (10 R22, 30 R64). -/
abbrev State.PayloadOK (s : State) : Prop :=
  (s.st = .recv → s.argbuf.length < wordPayload s.cmd) ∧
  (s.st = .exec → wordTakesPayload s.cmd = true → s.argbuf.length = wordPayload s.cmd) ∧
  (s.st = .cfg ∨ s.st = .settle ∨ s.st = .scale → s.argbuf.length = (argField s.cmd).toNat)

/-- lock_req is 1 exactly inside the critical section, and there the HOST is not preempted (10 R20, 60 R157). -/
abbrev State.LockOK (s : State) : Prop :=
  (s.lockReq = true ↔ s.st.critical) ∧ (s.lockReq = true → s.preempt = false)

/-- LINE_SEL is a line; a driven line is floating; a line is high only during the high half of its own pulse; the line
of a TRANSMIT in progress is driven (10 R19, R27, 41 R107). -/
abbrev State.PinsOK (s : State) : Prop :=
  s.lineSel < s.numLines ∧
  (∀ l, l < s.numLines → (s.line l).dir = true → (s.line l).pull = true) ∧
  (∀ l, l < s.numLines → (s.line l).out = true → s.st = .high ∧ l = s.lineSel) ∧
  (s.st.configured → (s.line s.lineSel).dir = true)

/-- The transmit copy exists only from its creation to the end of the response (10 R15, 60 R151); in a pulse SHREG is its
byte at BYTE_IDX (10 R17). -/
abbrev State.CopyOK (s : State) : Prop :=
  (s.txcLen ≠ 0#32 → s.st = .lock ∨ s.st.critical ∨ s.st = .resp) ∧
  (s.st = .high ∨ s.st = .low → s.byteIdx.toNat < s.txcLen.toNat ∧ s.txc.read s.byteIdx.toNat = some s.shreg)

/-- Outside RESP there is no response in hand; inside, no payload byte has gone before the word is sent, and there is one
to come once it is sent (10 R22). -/
abbrev State.ResponseOK (s : State) : Prop :=
  (s.st ≠ .resp → s.resbuf = [] ∧ s.rspSent = false) ∧
  (s.rspSent = false → s.doutIdx = 0) ∧
  (s.rspSent = true → s.doutIdx < s.resbuf.length)

/-- What every state of a run meets. -/
abbrev State.Safe (s : State) : Prop :=
  s.BuffersExact ∧ s.TableOK ∧ s.PayloadOK ∧ s.LockOK ∧ s.PinsOK ∧ s.CopyOK ∧ s.ResponseOK

/-- The invariants the spec lists for a state between commands, but for PREEMPT, which is a claim about two states
(10 R27). -/
abbrev State.BetweenCommands (s : State) : Prop :=
  s.txcLen = 0#32 ∧ s.lockReq = false ∧ (s.remapPresent = false → s.remapLen = 0#32) ∧
  (∀ cap, s.cfg.remapAlloc = .atMost cap → s.remapLen.toNat ≤ cap) ∧
  (∀ l, l < s.numLines → (s.line l).dir = true → (s.line l).pull = true ∧ (s.line l).out = false)

/-! ### What the HOST does next -/

/-- With this to do, the HOST lets the next `k` steps of a busy block be clock edges without reset, with whatever other
wires: edges it drives, quiet edges once it has nothing to do, or quiet edges while a command waits (log entries 10, 11). -/
def edgesAhead : Nat → List Input → Bool
  | 0, _ => true
  | _ + 1, [] => true
  | k + 1, .edge p :: rest => !p.rst && edgesAhead k rest
  | _ + 1, .pulse :: _ => false
  | _ + 1, .call _ _ :: _ => true

/-- The HOST's own preemption state at the next clock edge, while lock_req = 0 (log entry 14). -/
def State.preemptNext (s : State) : Bool :=
  match s.feed with
  | .edge p :: _ => p.preemptIn
  | .pulse :: _ => s.preempt
  | .call _ _ :: _ => s.preempt
  | [] => s.preempt

/-- `t` is where execution of the word `w` has started, from `s`: a TRANSMIT is in CFG on its line or answered E_PIN, any
other word is in EXEC (41 R108, rows IDLE and RECV). -/
abbrev State.StartsFrom (t s : State) (w : CmdWord) : Prop :=
  (∀ pin n l, decode w = .ok (.transmit pin n) → s.pinLine pin = some l →
    t.st = .cfg ∧ t.lineSel = l ∧ t.trace = s.trace) ∧
  (∀ pin n, decode w = .ok (.transmit pin n) → s.pinLine pin = none →
    t.st = .resp ∧ t.rsp = 0x1000000000#40 ∧ t.resbuf = [] ∧ t.trace = s.trace ++ [.resp 0x1000000000#40 []]) ∧
  ((∀ pin n, decode w ≠ .ok (.transmit pin n)) → t.st = .exec ∧ t.trace = s.trace)

end Sys2Proof.Machine
end

