-- ==== Sys2Proof/Certificates/Slice0/Obligations.lean ====
section
/-! DEFINITION. The statements for the provers, in the order of OBLIGATIONS.json. Each docstring names the rules of spec/
it formalises. Where a statement rests on a choice of the model, it names the log entry. -/

open Sys2Proof Sys2Proof.Machine

/-! ### Encoding -/

/-- Decoding the code of an instruction gives the instruction, WRITE being TRANSMIT (30 R67, R69, R72): no bit of any
operand is dropped. -/
def Obligations.DecodeOfEncode : Prop :=
  ∀ i : Instr, decodeCode (encode i) = .ok i.canonical ∧ (i.wellFormed = true → i.canonical = i)

/-- Every code that decodes is the code of what it decodes to, which is a core instruction (30 R67, R69). -/
def Obligations.EncodeOfDecode : Prop :=
  ∀ (c : Code) (i : Instr), decodeCode c = .ok i → i.wellFormed = true ∧ encode i = c

/-- Decode is the pseudocode of rule R73, field by field, and PayloadIn is its last line. -/
def Obligations.DecodeIsRule73 : Prop :=
  (∀ (op zero : BitVec 4) (pin : Pin) (arg : BitVec 32),
    (decode (op ++ zero ++ pin ++ arg : BitVec (4 + 4 + 8 + 32))).toOption =
      if zero ≠ 0#4 then none
      else if op = 0x1#4 ∧ pin = 0#8 then some (.setbright arg)
      else if op = 0x2#4 ∧ pin = 0#8 ∧ arg = 0#32 then some .getbright
      else if op = 0x3#4 then some (.transmit pin arg)
      else if op = 0x4#4 ∧ pin = 0#8 then some (.setremap arg)
      else if op = 0x5#4 ∧ pin = 0#8 ∧ arg = 0#32 then some .clearremap
      else if op = 0x6#4 ∧ pin = 0#8 ∧ arg = 0#32 then some .getremap
      else none) ∧
  (∀ w : CmdWord, wordPayload w =
    match decode w with
    | .ok (.transmit _ len) => len.toNat
    | .ok (.setremap len) => len.toNat
    | _ => 0)

/-- The opcode map by mask and match: each row selects the words of its command, a word selects at most one row, and a
word is refused exactly when it selects none (30 R67, R68). -/
def Obligations.OpcodeMapByMask : Prop :=
  ∀ w : CmdWord,
    (decode w = .ok (.setbright (argField w)) ↔ w &&& 0xFFFF00000000#48 = 0x100000000000#48) ∧
    (decode w = .ok .getbright ↔ w = 0x200000000000#48) ∧
    (decode w = .ok (.transmit (pinField w) (argField w)) ↔ w &&& 0xFF0000000000#48 = 0x300000000000#48) ∧
    (decode w = .ok (.setremap (argField w)) ↔ w &&& 0xFFFF00000000#48 = 0x400000000000#48) ∧
    (decode w = .ok .clearremap ↔ w = 0x500000000000#48) ∧
    (decode w = .ok .getremap ↔ w = 0x600000000000#48) ∧
    ((∃ e, decode w = .error e) ↔ legalWord w = false) ∧
    (∀ r ∈ opcodeMap, ∀ q ∈ opcodeMap, r.selects w = true → q.selects w = true → r = q)

/-- Words written out from the spec's patterns decode to the instructions they stand for: the commands (95 V2, V3, V4,
V7, V9, V10), the two symbols (30 R69), and five illegal words, by OP 0, OP 7, ZERO, PIN and ARG
(95 V11, V12, V14, V16, V15). -/
def Obligations.SampleWordsDecode : Prop :=
  decode 0x1000FFFF0000#48 = .ok (.setbright 0xFFFF0000#32) ∧
  decode 0x200000000000#48 = .ok .getbright ∧
  decode 0x300400000003#48 = .ok (.transmit 4#8 3#32) ∧
  decode 0x400000000003#48 = .ok (.setremap 3#32) ∧
  decode 0x500000000000#48 = .ok .clearremap ∧
  decode 0x600000000000#48 = .ok .getremap ∧
  decodeCode (.symbol 0#1) = .ok .emit0 ∧ decodeCode (.symbol 1#1) = .ok .emit1 ∧
  decode 0x000000000000#48 = .error .reservedOpcode ∧ decode 0x700000000000#48 = .error .reservedOpcode ∧
  decode 0x310400000003#48 = .error .zeroField ∧ decode 0x100100008000#48 = .error .pinField ∧
  decode 0x200000000001#48 = .error .argField

/-- A command word cut into bytes, most significant byte first, decodes as the word, and the bytes after it are left
(20 R41). -/
def Obligations.SerialisedWordDecodes : Prop :=
  ∀ (w : CmdWord) (rest : List Byte),
    wordBytes w = [w.extractLsb' 40 8, w.extractLsb' 32 8, w.extractLsb' 24 8, w.extractLsb' 16 8, w.extractLsb' 8 8,
      w.extractLsb' 0 8] ∧
    (∀ i, decode w = .ok i → decodeBytes (wordBytes w ++ rest) = .ok (i, rest)) ∧
    (∀ e, decode w = .error e → decodeBytes (wordBytes w ++ rest) = .error e)

/-- The fields of a response word stand where rule R65 puts them, with the numbers of rule R66. -/
def Obligations.ResponseWordFields : Prop :=
  ∀ (c : Status) (f : Bool) (v : BitVec 32),
    rspStatus (rspWord c f v) =
      (match c with
       | .ok => 0#4
       | .ePin => 1#4
       | .eAlloc => 2#4
       | .eIllegal => 3#4) ∧
    rspZero (rspWord c f v) = 0#3 ∧ rspFlag (rspWord c f v) = f ∧ rspValue (rspWord c f v) = v

/-! ### A step runs the decoded instruction -/

/-- A step runs the instruction the bits decode to, at each grain (10 R22, 41 R108, 30 R69; log entries 1 and 13): a whole
command from IDLE with CMD and ARGBUF taken, then the response delivered; a symbol at the sequencer's position, then the
position moved on; the command in CMD at a clock edge in EXEC, where an illegal word in CMD raises E_ILLEGAL (60 R148). At an
edge PREEMPT comes from the HOST (log entry 14). -/
def Obligations.StepRunsDecodedInstruction : Prop :=
  (∀ (s : State) (w : CmdWord) (payload : List Byte) (rest : List Input) (i : Instr),
    s.st = .idle → s.feed = .call w payload :: rest → decode w = .ok i → i.payloadIn ≤ payload.length →
    step s = andThen
      (exec i { s with
        feed := rest, cmd := w,
        argbuf := if i.takesPayload then Memory.ofBytes (payload.take i.payloadIn) else s.argbuf })
      (fun t => .next (finish t))) ∧
  (∀ (s : State) (rest : List Input),
    s.st = .low → s.unitCnt = 0#4 → s.feed = .pulse :: rest →
    step s = andThen (exec (symbolOf (s.shreg.getLsbD s.bitIdx.toNat)) { s with feed := rest }) nextIndex) ∧
  (∀ (s : State) (p : PortIn) (rest : List Input) (i : Instr),
    s.st = .exec → s.feed = .edge p :: rest → p.rst = false → decode s.cmd = .ok i →
    step s = exec i { s with feed := rest, preempt := if s.lockReq then s.preempt else p.preemptIn }) ∧
  (∀ (s : State) (p : PortIn) (rest : List Input) (e : DecodeError),
    s.st = .exec → s.feed = .edge p :: rest → p.rst = false → decode s.cmd = .error e →
    step s = .next (raise .eIllegal
      { s with feed := rest, preempt := if s.lockReq then s.preempt else p.preemptIn }))

/-- An illegal word is answered E_ILLEGAL with no payload taken; CMD, RSP and TRACE apart, the state is as before
(60 R148). -/
def Obligations.IllegalWordIsAnswered : Prop :=
  ∀ (s : State) (w : CmdWord) (payload : List Byte) (rest : List Input) (e : DecodeError),
    s.Safe → s.st = .idle → s.feed = .call w payload :: rest → decode w = .error e →
    step s = .next { s with
      feed := rest, cmd := w, rsp := 0x3000000000#40, trace := s.trace ++ [.resp 0x3000000000#40 []] }

/-- A legal command whose payload has not all come leaves the block waiting for the rest in RECV, with the bytes it has
taken in ARGBUF (10 R22; log entry 11). -/
def Obligations.ShortPayloadWaits : Prop :=
  ∀ (s : State) (w : CmdWord) (payload : List Byte) (rest : List Input) (i : Instr),
    s.st = .idle → s.feed = .call w payload :: rest → decode w = .ok i → payload.length < i.payloadIn →
    ∃ t, step s = .next t ∧ t.st = .recv ∧ t.cmd = w ∧ t.feed = rest ∧ t.trace = s.trace ∧
      ∀ j, t.argbuf.read j = payload[j]?

/-! ### SETBRIGHT and GETBRIGHT -/

/-- SETBRIGHT stores the scalar and answers it; nothing else changes but the response (42 R120). -/
def Obligations.SetbrightStoresAndAnswers : Prop :=
  ∀ (s : State) (v : Scalar),
    encode (.setbright v) = .command (0x1000#16 ++ v : BitVec (16 + 32)) ∧
    exec (.setbright v) s = .next { s with
      bright := v, rsp := (0#8 ++ v : BitVec (8 + 32)), resbuf := [], rspSent := false, doutIdx := 0, st := .resp,
      trace := s.trace ++ [.resp (0#8 ++ v : BitVec (8 + 32)) []] }

/-- GETBRIGHT answers BRIGHT and writes only the response; asked twice, it answers the same word (42 R121). -/
def Obligations.GetbrightAnswers : Prop :=
  encode .getbright = .command 0x200000000000#48 ∧
  (∀ s : State, exec .getbright s = .next { s with
      rsp := (0#8 ++ s.bright : BitVec (8 + 32)), resbuf := [], rspSent := false, doutIdx := 0, st := .resp,
      trace := s.trace ++ [.resp (0#8 ++ s.bright : BitVec (8 + 32)) []] }) ∧
  (∀ s t u : State, exec .getbright s = .next t → exec .getbright (finish t) = .next u → u.rsp = t.rsp) ∧
  (∃ t, exec .getbright State.reset = .next t ∧ t.rsp = 0x0000010000#40)

/-- SETBRIGHT and then GETBRIGHT, as two steps, answer exactly the value set (95 S2, 42 R120, R121). -/
def Obligations.SetThenGetBrightness : Prop :=
  ∀ (s : State) (v : Scalar) (p q : List Byte) (rest : List Input),
    s.st = .idle →
    s.feed = .call (0x1000#16 ++ v : BitVec (16 + 32)) p :: .call 0x200000000000#48 q :: rest →
    ∃ t, Host.Core.run Sys2Proof.core 2 s = .next t ∧ t.bright = v ∧ t.rsp = (0#8 ++ v : BitVec (8 + 32)) ∧
      t.st = .idle ∧ t.feed = rest ∧
      t.trace = s.trace ++
        [.resp (0#8 ++ v : BitVec (8 + 32)) [], .resp (0#8 ++ v : BitVec (8 + 32)) []]

/-! ### The scaling law -/

/-- Scale (42 R122): the exact product, the nearest integer with a half going up, the byte when it is one, and a fresh free
byte when it is not. That the free byte is numbered by the count `k`, which then moves on, is the model's choice (log
entry 6); the statement holds whatever the byte is. -/
def Obligations.ScaleIsNearest : Prop :=
  (∀ (v : Byte) (r : Scalar) (k : Nat) (p : Int), p = (v.toNat : Int) * r.toInt →
    -255 * 2 ^ 31 ≤ p ∧ p ≤ 255 * (2 ^ 31 - 1) ∧
    scaleInt v r = (p + 0x8000) >>> 16 ∧
    -32768 < 65536 * scaleInt v r - p ∧ 65536 * scaleInt v r - p ≤ 32768 ∧
    (0 ≤ scaleInt v r ∧ scaleInt v r ≤ 255 →
      (((scale v r k).1.toNat : Int) = scaleInt v r ∧ (scale v r k).2 = k)) ∧
    (¬(0 ≤ scaleInt v r ∧ scaleInt v r ≤ 255) → scale v r k = (Config.draw8 k, k + 1))) ∧
  (∀ k, scale 255#8 0x00008000#32 k = (128#8, k))

/-- A product exactly half-way between two integers goes to the larger one (42 R124, the spec's decision D5). -/
def Obligations.ScaleTiesGoUp : Prop :=
  ∀ (v : Byte) (r : Scalar) (m : Int), (v.toNat : Int) * r.toInt = 65536 * m + 32768 → scaleInt v r = m + 1

/-- When the scaled value is a byte: always for a brightness in [0, 1], for every byte at once exactly when
-128 <= r <= 0x10080, and always for the byte 0 (42 R123). -/
def Obligations.ScaleRange : Prop :=
  (∀ (v : Byte) (r : Scalar), 0 ≤ r.toInt → r.toInt ≤ 0x00010000 → 0 ≤ scaleInt v r ∧ scaleInt v r ≤ v.toNat) ∧
  (∀ r : Scalar, (∀ v : Byte, 0 ≤ scaleInt v r ∧ scaleInt v r ≤ 255) ↔ -128 ≤ r.toInt ∧ r.toInt ≤ 0x00010080) ∧
  (∀ r : Scalar, scaleInt 0#8 r = 0)

/-- The identities of the scaler (42 R126): full brightness is the identity, zero gives zero, and in [0, 1] the result is
at most the byte and rises with byte and brightness. -/
def Obligations.ScaleIdentities : Prop :=
  (∀ (v : Byte) (k : Nat), scale v 0x00010000#32 k = (v, k)) ∧
  (∀ (v : Byte) (k : Nat), scale v 0#32 k = (0#8, k)) ∧
  (∀ (r : Scalar) (k : Nat), scale 0#8 r k = (0#8, k)) ∧
  (∀ (v u : Byte) (r q : Scalar) (k : Nat),
    0 ≤ r.toInt → r.toInt ≤ q.toInt → q.toInt ≤ 0x00010000 → v.toNat ≤ u.toNat →
    (scale v r k).1.toNat ≤ v.toNat ∧ (scale v r k).1.toNat ≤ (scale u q k).1.toNat)

/-! ### The remap table -/

/-- CLEARREMAP drops the table and reports whether there was one; on an absent table it changes no persistent state
(43 R131). -/
def Obligations.ClearremapAnswers : Prop :=
  encode .clearremap = .command 0x500000000000#48 ∧
  (∀ s : State, exec .clearremap s = .next { s with
      remapPresent := false, remapLen := 0#32, rmp := [],
      rsp := if s.remapPresent then 0x0100000000#40 else 0x0000000000#40,
      resbuf := [], rspSent := false, doutIdx := 0, st := .resp,
      trace := s.trace ++ [.resp (if s.remapPresent then 0x0100000000#40 else 0x0000000000#40) []] }) ∧
  (∀ s t : State, s.Safe → s.remapPresent = false → exec .clearremap s = .next t →
    t.bright = s.bright ∧ t.remapPresent = s.remapPresent ∧ t.remapLen = s.remapLen ∧ t.rmp = s.rmp)

/-- GETREMAP answers the table whole, or the absent signal, and writes only the response (43 R132). -/
def Obligations.GetremapAnswers : Prop :=
  encode .getremap = .command 0x600000000000#48 ∧
  (∀ (s : State) (bs : List Byte),
    s.remapPresent = true → bs.length = s.remapLen.toNat → (∀ j, j < bs.length → s.rmp.read j = bs[j]?) →
    exec .getremap s = .next { s with
      rsp := (0x01#8 ++ s.remapLen : BitVec (8 + 32)), resbuf := Memory.ofBytes bs, rspSent := false, doutIdx := 0,
      st := .resp, trace := s.trace ++ [.resp (0x01#8 ++ s.remapLen : BitVec (8 + 32)) bs] }) ∧
  (∀ s : State, s.remapPresent = false →
    exec .getremap s = .next { s with
      rsp := 0x0000000000#40, resbuf := [], rspSent := false, doutIdx := 0, st := .resp,
      trace := s.trace ++ [.resp 0x0000000000#40 []] })

/-- In a safe state GETREMAP never stops: the table can be read whole (43 R132, 10 R14). -/
def Obligations.GetremapCompletes : Prop :=
  ∀ s : State, s.Safe → ∃ t, exec .getremap s = .next t ∧ t.rmp = s.rmp ∧ t.remapLen = s.remapLen ∧
    (s.remapPresent = true → ∃ bs : List Byte, bs.length = s.remapLen.toNat ∧
      (∀ j, s.rmp.read j = bs[j]?) ∧ t.trace = s.trace ++ [.resp (0x01#8 ++ s.remapLen : BitVec (8 + 32)) bs])

/-- SETREMAP, storage granted: the table is the payload and nothing else, index by index, and only the response changes
beside it (43 R130). The count of free values moves on, log entry 7. -/
def Obligations.SetremapStores : Prop :=
  ∀ (s : State) (n : Len) (bs : List Byte),
    bs.length = n.toNat → (∀ j, j < bs.length → s.argbuf.read j = bs[j]?) →
    allocAnswer s.cfg.remapAlloc n.toNat s.draws = true →
    encode (.setremap n) = .command (0x4000#16 ++ n : BitVec (16 + 32)) ∧
    exec (.setremap n) s = .next { s with
      rmp := Memory.ofBytes bs, remapLen := n, remapPresent := true, draws := s.draws + 1,
      rsp := 0x0000000000#40, resbuf := [], rspSent := false, doutIdx := 0, st := .resp,
      trace := s.trace ++ [.resp 0x0000000000#40 []] } ∧
    ∀ j, (Memory.ofBytes bs).read j = bs[j]?

/-- SETREMAP, storage refused: E_ALLOC, and the old table stands whole (43 R136, 60 R147). -/
def Obligations.SetremapRefusedKeepsTable : Prop :=
  ∀ (s : State) (n : Len), allocAnswer s.cfg.remapAlloc n.toNat s.draws = false →
    exec (.setremap n) s = .next { s with
      draws := s.draws + 1, rsp := 0x2000000000#40, resbuf := [], rspSent := false, doutIdx := 0, st := .resp,
      trace := s.trace ++ [.resp 0x2000000000#40 []] }

/-- The table's state machine (43 R133): what each command does to it, row by row, and that it is absent after reset. -/
def Obligations.RemapStateMachine : Prop :=
  State.reset.remapPresent = false ∧
  (∀ (s t : State) (n : Len), exec (.setremap n) s = .next t →
    (allocAnswer s.cfg.remapAlloc n.toNat s.draws = true →
      t.remapPresent = true ∧ t.remapLen = n ∧ t.rsp = 0#40 ∧ t.resbuf = [] ∧
      (∀ j, t.rmp.read j = if j < n.toNat then s.argbuf.read j else none)) ∧
    (allocAnswer s.cfg.remapAlloc n.toNat s.draws = false →
      t.remapPresent = s.remapPresent ∧ t.remapLen = s.remapLen ∧ t.rmp = s.rmp ∧ t.rsp = 0x2000000000#40)) ∧
  (∀ s t : State, exec .clearremap s = .next t →
    t.remapPresent = false ∧ t.resbuf = [] ∧ (s.remapPresent = true → t.rsp = 0x0100000000#40) ∧
    (s.remapPresent = false → t.rsp = 0#40)) ∧
  (∀ s t : State, exec .getremap s = .next t →
    (s.remapPresent = true → t.rsp = (0x01#8 ++ s.remapLen : BitVec (8 + 32)) ∧
      ∀ j, j < s.remapLen.toNat → t.resbuf.read j = s.rmp.read j) ∧
    (s.remapPresent = false → t.rsp = 0#40 ∧ t.resbuf = [])) ∧
  (∀ (i : Instr) (s t : State), exec i s = .next t → (∀ n, i ≠ .setremap n) → i ≠ .clearremap →
    t.remapPresent = s.remapPresent ∧ t.remapLen = s.remapLen ∧ t.rmp = s.rmp)

/-- The remap commands in turn, as seven steps (95 S5, S6, S7): SETREMAP X, GETREMAP, SETREMAP Y, GETREMAP, CLEARREMAP,
GETREMAP, CLEARREMAP answer X, then Y only, then "was present", the absent signal, and "was not present". -/
def Obligations.RemapCommandsInTurn : Prop :=
  ∀ (s : State) (x y : List Byte) (rest : List Input),
    s.st = .idle → s.cfg.remapAlloc = .unbounded → x.length < 2 ^ 32 → y.length < 2 ^ 32 →
    s.feed =
      .call (0x4000#16 ++ BitVec.ofNat 32 x.length : BitVec (16 + 32)) x :: .call 0x600000000000#48 [] ::
      .call (0x4000#16 ++ BitVec.ofNat 32 y.length : BitVec (16 + 32)) y :: .call 0x600000000000#48 [] ::
      .call 0x500000000000#48 [] :: .call 0x600000000000#48 [] :: .call 0x500000000000#48 [] :: rest →
    ∃ t, Host.Core.run Sys2Proof.core 7 s = .next t ∧ t.st = .idle ∧ t.feed = rest ∧ t.remapPresent = false ∧
      t.trace = s.trace ++
        [.resp 0#40 [], .resp (0x01#8 ++ BitVec.ofNat 32 x.length : BitVec (8 + 32)) x,
         .resp 0#40 [], .resp (0x01#8 ++ BitVec.ofNat 32 y.length : BitVec (8 + 32)) y,
         .resp 0x0100000000#40 [], .resp 0#40 [], .resp 0#40 []]

/-- RemapLookup reads the table where it has an entry and is the identity elsewhere (43 R134); with no table the suggested
wire order is the buffer's order (43 R135). -/
def Obligations.RemapLookupReads : Prop :=
  (∀ (s : State) (i : Nat) (b : Byte),
    s.remapPresent = true → i < s.remapLen.toNat → s.rmp.read i = some b → s.remapLookup i = b.toNat) ∧
  (∀ (s : State) (i : Nat), s.remapPresent = false ∨ s.remapLen.toNat ≤ i → s.remapLookup i = i) ∧
  (∀ (s : State) (n k : Nat), s.remapPresent = false → s.wireOrder n k = k)

/-! ### The symbols -/

/-- EMIT0: one pulse of 4 time-units high and 9 low on LINE_SEL, recorded as EvEmit; the line ends low, and beside UNIT_CNT
and PRESC nothing else changes (40 R82). LINE_SEL is a line of the block (10 R16). -/
def Obligations.Emit0Pulse : Prop :=
  encode .emit0 = .symbol 0#1 ∧
  ∀ s : State, s.lineSel < s.numLines → ∃ t, exec .emit0 s = .next t ∧
    t = { s with
      trace := s.trace ++ [.emit s.lineSel false],
      wave := s.wave ++ List.replicate 4 (s.lineSel, true) ++ List.replicate 9 (s.lineSel, false),
      lines := s.lines.set s.lineSel { s.line s.lineSel with out := false },
      unitCnt := t.unitCnt, presc := t.presc }

/-- EMIT1: one pulse of 8 time-units high and 6 low on LINE_SEL; otherwise as EMIT0 (40 R83). -/
def Obligations.Emit1Pulse : Prop :=
  encode .emit1 = .symbol 1#1 ∧
  ∀ s : State, s.lineSel < s.numLines → ∃ t, exec .emit1 s = .next t ∧
    t = { s with
      trace := s.trace ++ [.emit s.lineSel true],
      wave := s.wave ++ List.replicate 8 (s.lineSel, true) ++ List.replicate 6 (s.lineSel, false),
      lines := s.lines.set s.lineSel { s.line s.lineSel with out := false },
      unitCnt := t.unitCnt, presc := t.presc }

/-- The length of a waveform: 13 time-units for each 0 bit and 14 for each 1 bit, so between 104 and 112 a byte; nothing
for no bytes (40 R88, 41 R111). -/
def Obligations.WaveLength : Prop :=
  waveOf [] = [] ∧
  ∀ L : List Byte,
    (waveOf L).length = 13 * (bitsOf L).count false + 14 * (bitsOf L).count true ∧
    (bitsOf L).count false + (bitsOf L).count true = 8 * L.length ∧
    104 * L.length ≤ (waveOf L).length ∧ (waveOf L).length ≤ 112 * L.length

/-- The line code loses nothing: two buffers with the same waveform are the same buffer (30 R69, R70). -/
def Obligations.WaveIsUniquelyReadable : Prop :=
  ∀ L M : List Byte, waveOf L = waveOf M → L = M

/-! ### TRANSMIT -/

/-- TRANSMIT, and WRITE alike, when the pin is defined and storage granted (41 R95 to R103): the copy is the scaled payload,
the events stand in the order of rule R103, one symbol a bit and most significant bit first, the waveform is that of the
copy, the echo is the copy, the line is left a floating output at 0, the copy is destroyed and PREEMPT is as it was. A byte
whose scaled value is none is a free byte (log entry 6). -/
def Obligations.TransmitCompletes : Prop :=
  ∀ (s : State) (pin : Pin) (n : Len) (l : Nat) (bs : List Byte),
    s.pinLine pin = some l → allocAnswer s.cfg.txAlloc n.toNat (s.draws + 1) = true →
    bs.length = n.toNat → (∀ j, j < bs.length → s.argbuf.read j = bs[j]?) →
    ∃ (t : State) (copy : List Byte),
      exec (.transmit pin n) s = .next t ∧ exec (.write pin n) s = .next t ∧
      copy.length = bs.length ∧
      (∀ (j : Nat) (v : Byte) (q : Int), bs[j]? = some v → q = ((v.toNat : Int) * s.bright.toInt + 32768) / 65536 →
        0 ≤ q → q ≤ 255 → copy[j]? = some (BitVec.ofInt 8 q)) ∧
      t.trace = s.trace ++ [.pinMode l, .pinWrite l false, .settle s.cfg.tSettle, .lock] ++
        (bitsOf copy).map (Event.emit l) ++ [.unlock, .resp (0#8 ++ n : BitVec (8 + 32)) copy] ∧
      t.wave = s.wave ++ (waveOf copy).map (fun x => (l, x)) ∧
      t.rsp = (0#8 ++ n : BitVec (8 + 32)) ∧ (∀ j, t.resbuf.read j = copy[j]?) ∧ t.st = .resp ∧
      t.lineSel = l ∧ t.lines = s.lines.set l ⟨true, true, false⟩ ∧
      t.txc = [] ∧ t.txcLen = 0#32 ∧ t.preempt = s.preempt ∧ t.lockReq = false

/-- What TRANSMIT and WRITE leave alone, however they end (41 R95): the parameters, BRIGHT, the table, CMD, ARGBUF, the
HOST's bit, every line but the resolved one, and every byte of ARGBUF and RMP. TRACE only grows. They write the response,
LINE_SEL, the counters and SHREG, SAVED_PREEMPT, lock_req, TXC, the resolved line and the model's records. -/
def Obligations.TransmitFrame : Prop :=
  ∀ (i : Instr) (s t : State) (pin : Pin) (n : Len), i = .transmit pin n ∨ i = .write pin n → exec i s = .next t →
    t.cfg = s.cfg ∧ t.bright = s.bright ∧ t.remapPresent = s.remapPresent ∧ t.remapLen = s.remapLen ∧
    t.cmd = s.cmd ∧ t.preempt = s.preempt ∧ t.feed = s.feed ∧
    (∀ l, s.pinLine pin ≠ some l → t.line l = s.line l) ∧ t.numLines = s.numLines ∧
    (∀ a, t.argbuf.read a = s.argbuf.read a) ∧ (∀ a, t.rmp.read a = s.rmp.read a) ∧
    (∃ es, t.trace = s.trace ++ es)

/-- A TRANSMIT whose pin identifier PIN_MAP does not define is answered E_PIN; beside the response nothing changes: no pin
bit, no TXC, no PREEMPT (60 R146). -/
def Obligations.InvalidPinIsRejected : Prop :=
  ∀ (s : State) (pin : Pin) (n : Len), s.pinLine pin = none →
    exec (.transmit pin n) s = .next { s with
      rsp := 0x1000000000#40, resbuf := [], rspSent := false, doutIdx := 0, st := .resp,
      trace := s.trace ++ [.resp 0x1000000000#40 []] } ∧
    exec (.write pin n) s = exec (.transmit pin n) s

/-- A TRANSMIT whose storage is refused is answered E_ALLOC after step 1: the line is a floating output at 0, no critical
section was entered, no symbol sent, no copy made (41 R98, 60 R147). -/
def Obligations.TransmitRefusedStorage : Prop :=
  ∀ (s : State) (pin : Pin) (n : Len) (l : Nat),
    s.pinLine pin = some l → allocAnswer s.cfg.txAlloc n.toNat (s.draws + 1) = false →
    ∃ t, exec (.transmit pin n) s = .next t ∧ exec (.write pin n) s = .next t ∧
      t.trace = s.trace ++
        [.pinMode l, .pinWrite l false, .settle s.cfg.tSettle, .resp 0x2000000000#40 []] ∧
      t.rsp = 0x2000000000#40 ∧ t.resbuf = [] ∧ t.st = .resp ∧ t.lines = s.lines.set l ⟨true, true, false⟩ ∧
      t.txc = s.txc ∧ t.txcLen = s.txcLen ∧ t.wave = s.wave ∧ t.preempt = s.preempt ∧ t.lockReq = s.lockReq ∧
      t.savedPreempt = s.savedPreempt

/-- The empty buffer (41 R104): a capacity never refuses it; step 1 is done, the critical section is entered and left with
nothing between, no symbol is sent and the echo is empty; an undefined pin is still E_PIN; on the wires lock_req is 1 for
the one clock cycle of UNLOCK. That PREEMPT is there what the HOST drove at the LOCK edge is 10 R21 and log entry 14; that
LOCK takes one edge is log entry 15. -/
def Obligations.EmptyTransmit : Prop :=
  (∀ (a : Alloc) (k : Nat), a ≠ .drawn → allocAnswer a 0 k = true) ∧
  (∀ (s : State) (pin : Pin), s.pinLine pin = none →
    ∃ t, exec (.transmit pin 0#32) s = .next t ∧ exec (.write pin 0#32) s = .next t ∧ t.rsp = 0x1000000000#40) ∧
  (∀ (s : State) (pin : Pin) (l : Nat), s.pinLine pin = some l → s.cfg.txAlloc ≠ .drawn →
    ∃ t, exec (.transmit pin 0#32) s = .next t ∧ exec (.write pin 0#32) s = .next t ∧
      t.trace = s.trace ++
        [.pinMode l, .pinWrite l false, .settle s.cfg.tSettle, .lock, .unlock, .resp 0#40 []] ∧
      t.wave = s.wave ∧ t.rsp = 0#40 ∧ t.resbuf = [] ∧ t.preempt = s.preempt ∧
      t.lines = s.lines.set l ⟨true, true, false⟩) ∧
  (∀ (s : State) (p q : PortIn), s.st = .lock → s.txcLen = 0#32 → p.rst = false → q.rst = false →
    s.lockReq = false →
    ∃ t u, edge p s = .next t ∧ edge q t = .next u ∧ t.st = .unlock ∧ t.lockReq = true ∧
      u.st = .resp ∧ u.lockReq = false ∧ u.preempt = p.preemptIn ∧ u.wave = s.wave)

/-- TRANSMIT does not consult the remap table (41 R112): with any other table it does the same and leaves that table. -/
def Obligations.TransmitIgnoresRemapTable : Prop :=
  ∀ (s t : State) (pin : Pin) (n : Len) (present : Bool) (len : Len) (table : Memory),
    exec (.transmit pin n) s = .next t →
    exec (.transmit pin n) { s with remapPresent := present, remapLen := len, rmp := table } =
      .next { t with remapPresent := present, remapLen := len, rmp := table }

/-! ### Errors, the response and the critical section -/

/-- Every command that completes answers exactly once, as its last event, with the word in RSP; one answered with an error
has not entered the critical section nor sent a symbol (60 R150, R151, R152); and the payload has exactly VALUE bytes, or
none where VALUE is a scalar (10 R22, 30 R65). -/
def Obligations.OneAnswerAndErrorsBeforeLock : Prop :=
  ∀ (i : Instr) (s t : State), exec i s = .next t → i ≠ .emit0 → i ≠ .emit1 →
    ∃ (es : List Event) (payload : List Byte),
      t.trace = s.trace ++ es ++ [.resp t.rsp payload] ∧ t.st = .resp ∧
      (∀ j, t.resbuf.read j = payload[j]?) ∧ (∀ w p, Event.resp w p ∉ es) ∧
      (rspStatus t.rsp ≠ 0#4 → Event.lock ∉ es ∧ Event.unlock ∉ es ∧ (∀ l b, Event.emit l b ∉ es) ∧ payload = []) ∧
      ((∀ v, i ≠ .setbright v) → i ≠ .getbright → payload.length = (rspValue t.rsp).toNat) ∧
      ((∃ v, i = .setbright v) ∨ i = .getbright → payload = [])

/-- Every instruction leaves PREEMPT as it was, off if it was off (41 R101, 60 R151, R156). -/
def Obligations.PreemptionIsRestored : Prop :=
  ∀ (i : Instr) (s t : State), exec i s = .next t → t.preempt = s.preempt ∧ (s.lockReq = false → t.lockReq = false)

/-- `raise E` answers the error with no flag, value or payload, and changes nothing but the response (60 R150). -/
def Obligations.RaiseOnlyAnswers : Prop :=
  ∀ (e : Status) (s : State),
    raise e s = { s with
      rsp := (e.code ++ 0#36 : BitVec (4 + 36)), resbuf := [], rspSent := false, doutIdx := 0, st := .resp,
      trace := s.trace ++ [.resp (e.code ++ 0#36 : BitVec (4 + 36)) []] }

/-! ### Who may write what -/

/-- BRIGHT is written by SETBRIGHT only: by no other instruction, and in a step only by one that runs SETBRIGHT or by a
reset (10 R11). -/
def Obligations.BrightWrittenOnlyBySetbright : Prop :=
  (∀ (i : Instr) (s t : State), exec i s = .next t → t.bright ≠ s.bright → i = .setbright t.bright) ∧
  (∀ s t : State, step s = .next t → t.bright ≠ s.bright →
    (∃ w payload rest, s.feed = .call w payload :: rest ∧ s.st = .idle ∧ decode w = .ok (.setbright t.bright)) ∨
    (s.st = .exec ∧ decode s.cmd = .ok (.setbright t.bright)) ∨
    (∃ p rest, s.feed = .edge p :: rest ∧ p.rst = true ∧ t.bright = 0x00010000#32))

/-- The pins are written by TRANSMIT (or WRITE), the symbols and reset only (10 R19, 40 R80). An instruction: TRANSMIT makes
the resolved line a floating output at 0, a symbol leaves LINE_SEL low, every other line keeps its bits. A step, at any
grain: a whole TRANSMIT or one in EXEC, the CFG edge of a TRANSMIT, an edge or a symbol of its pulses, which writes only OUT
of LINE_SEL and makes it 1 exactly in HIGH, or a reset edge. -/
def Obligations.PinsWrittenOnlyByTransmit : Prop :=
  (∀ (i : Instr) (s t : State) (l : Nat), exec i s = .next t → t.line l ≠ s.line l →
    (∃ pin n, (i = .transmit pin n ∨ i = .write pin n) ∧ s.pinLine pin = some l ∧ t.line l = ⟨true, true, false⟩) ∨
    ((i = .emit0 ∨ i = .emit1) ∧ l = s.lineSel ∧ t.line l = { s.line l with out := false })) ∧
  (∀ (s t : State) (l : Nat), step s = .next t → t.line l ≠ s.line l →
    (∃ w payload rest pin n, s.feed = .call w payload :: rest ∧ s.st = .idle ∧ decode w = .ok (.transmit pin n) ∧
      s.pinLine pin = some l ∧ t.line l = ⟨true, true, false⟩) ∨
    (∃ pin n, s.st = .exec ∧ decode s.cmd = .ok (.transmit pin n) ∧ s.pinLine pin = some l ∧
      t.line l = ⟨true, true, false⟩) ∨
    (s.st = .cfg ∧ l = s.lineSel ∧ t.line l = ⟨true, true, false⟩) ∨
    ((s.st = .lock ∨ s.st = .high ∨ s.st = .low) ∧ l = s.lineSel ∧
      t.line l = { s.line l with out := decide (t.st = .high) }) ∨
    (∃ p rest, s.feed = .edge p :: rest ∧ p.rst = true ∧ t.line l = Line.undriven))

/-- What has been observed stays observed: but for a reset edge, a step only appends to TRACE and to the waveform
(10 R26, 20 R48). -/
def Obligations.ObservationOnlyGrows : Prop :=
  ∀ s t : State, step s = .next t →
    (∀ p rest, s.feed = .edge p :: rest → p.rst = false) →
    (∃ es, t.trace = s.trace ++ es) ∧ (∃ ws, t.wave = s.wave ++ ws)

/-! ### Invariants -/

/-- The state after reset is safe. It rests on the model's values for what the spec leaves unspecified: ARGBUF and RESBUF
empty, LINE_SEL = 0, rspSent = 0 and doutIdx = 0 (log entry 4), and on the platform (log entry 2): LINE_SEL names a line. -/
def Obligations.ResetIsSafe : Prop := State.reset.Safe

/-- From a safe state a step always answers a next state, and that state is safe (10 R27, 60 R151): no fault, no refusal,
whatever the HOST does and at whatever grain. -/
def Obligations.SafeStepNeverStops : Prop :=
  ∀ s : State, s.Safe → ∃ t, step s = .next t ∧ t.Safe

/-- Every step keeps the canonical form of the four buffers, from every state that has it (log entry 9). -/
def Obligations.CanonicalBuffersKept : Prop :=
  ∀ s t : State, s.CanonicalBuffers → step s = .next t → t.CanonicalBuffers

/-- The invariants the spec lists hold in every safe state between commands (10 R27). -/
def Obligations.InvariantsBetweenCommands : Prop :=
  ∀ s : State, s.Safe → s.st = .idle → s.BetweenCommands

/-- No step changes the parameters or the number of lines (10 R24). -/
def Obligations.ParametersAreFixed : Prop :=
  ∀ s t : State, step s = .next t → t.cfg = s.cfg ∧ t.numLines = s.numLines

/-! ### Reset -/

/-- The state after reset, where the spec gives the value (10 R25). -/
def Obligations.ResetValues : Prop :=
  State.reset.bright = 0x00010000#32 ∧ State.reset.remapPresent = false ∧ State.reset.remapLen = 0#32 ∧
  (∀ i, State.reset.rmp.read i = none) ∧ State.reset.txcLen = 0#32 ∧ (∀ i, State.reset.txc.read i = none) ∧
  State.reset.st = .idle ∧ State.reset.lockReq = false ∧ State.reset.trace = [] ∧
  (∀ l, State.reset.line l = ⟨false, false, false⟩) ∧
  State.reset.ports.cmdReady = true ∧ State.reset.ports.rspValid = false ∧ State.reset.ports.doutValid = false ∧
  State.reset.ports.dinReady = false

/-- A reset edge, at any moment (70 R170, R171): the values of rule R25, every line released, lock_req down, no answer, and
the HOST's own preemption state governs again (log entries 5 and 22). -/
def Obligations.ResetEdge : Prop :=
  ∀ (s : State) (p : PortIn) (rest : List Input), s.feed = .edge p :: rest → p.rst = true →
    ∃ t, step s = .next t ∧
      t.bright = 0x00010000#32 ∧ t.remapPresent = false ∧ t.remapLen = 0#32 ∧ t.rmp = [] ∧ t.txcLen = 0#32 ∧
      t.txc = [] ∧ t.st = .idle ∧ t.lockReq = false ∧ t.trace = [] ∧ t.numLines = s.numLines ∧
      (∀ l, t.line l = ⟨false, false, false⟩) ∧
      (s.lockReq = true → t.preempt = s.savedPreempt) ∧ (s.lockReq = false → t.preempt = p.preemptIn) ∧
      t.cfg = s.cfg ∧ t.feed = rest

/-! ### The ports and the sequencer -/

/-- The output wires say what the sequencer is ready for, and while the block is busy no command is taken, whatever stands
on the command channel (10 R18, R22). In which cycles of RECV and RESP din_ready, rsp_valid and dout_valid are 1 is the
model's choice (log entry 25). -/
def Obligations.CommandPortWhileBusy : Prop :=
  (∀ s : State, (s.ports.cmdReady = true ↔ s.st = .idle) ∧ (s.ports.dinReady = true ↔ s.st = .recv) ∧
    (s.ports.rspValid = true ↔ s.st = .resp ∧ s.rspSent = false) ∧
    (s.ports.doutValid = true ↔ s.st = .resp ∧ s.rspSent = true)) ∧
  (∀ (s : State) (p : PortIn) (v : Bool) (w : CmdWord), s.st ≠ .idle →
    edge { p with cmdValid := v, cmdWord := w } s = edge p s)

/-- In the critical section no wire but `rst` is looked at, and in LOCK none but `rst` and preempt_in, which Lock() saves
(10 R21, R22, 41 R99): the HOST cannot stretch a pulse. That in the critical section preempt_in is ignored there is log entry 14, and that it is ignored at a reset edge too, where PREEMPT becomes
SAVED_PREEMPT, is log entry 5: both are the model's. -/
def Obligations.NoWireSampledInCriticalSection : Prop :=
  (∀ (s : State) (p q : PortIn), s.LockOK → s.st.critical → p.rst = q.rst → edge p s = edge q s) ∧
  (∀ (s : State) (p q : PortIn), s.st = .lock → p.rst = q.rst → p.preemptIn = q.preemptIn → edge p s = edge q s)

/-- The pulse timer on the wires (40 R84, R88, 41 R108, R111), whatever else the HOST drives (`edgesAhead`: edges without
reset, quiet ones once it has nothing to do, log entry 10): from LOCK with the copy `bs`, and k clock cycles after the edge
that makes the first rising edge, the level of the line is that of Wave(bs) at time-unit k / CAL and lock_req is 1; after all
of Wave(bs) the sequencer is in UNLOCK, lock_req still 1; one cycle later lock_req is 0 and PREEMPT is as the HOST had it at
the LOCK edge (log entry 14). LOCK takes one edge (log entry 15). -/
def Obligations.WireCarriesTheWave : Prop :=
  ∀ (s : State) (bs : List Byte),
    s.Safe → s.st = .lock → 1 ≤ s.cfg.cal → bs.length = s.txcLen.toNat →
    (∀ j, j < bs.length → s.txc.read j = bs[j]?) →
    edgesAhead (2 + s.cfg.cal * (waveOf bs).length) s.feed = true →
    (∀ k, k < s.cfg.cal * (waveOf bs).length →
      ∃ t, Host.Core.run Sys2Proof.core (1 + k) s = .next t ∧ (t.st = .high ∨ t.st = .low) ∧ t.lockReq = true ∧
        t.preempt = false ∧ (waveOf bs)[k / s.cfg.cal]? = some (t.line s.lineSel).out) ∧
    (∃ t, Host.Core.run Sys2Proof.core (1 + s.cfg.cal * (waveOf bs).length) s = .next t ∧ t.st = .unlock ∧
      t.lockReq = true ∧ (t.line s.lineSel).out = false) ∧
    (∃ t, Host.Core.run Sys2Proof.core (2 + s.cfg.cal * (waveOf bs).length) s = .next t ∧ t.st = .resp ∧
      t.lockReq = false ∧ t.preempt = s.preemptNext)

/-- The transition table computes what the algorithm computes (41 R108 and R103): a TRANSMIT run edge by edge from CFG
reaches RESP, after a number of edges that no wire but `rst` changes, with the observation, the lines, the response and the
echo that the whole algorithm gives from the same state, and like it leaves BRIGHT, the remap table, CMD, ARGBUF and the
parameters as they were (41 R95, R112); with a quiet HOST (log entry 10) PREEMPT is the same too, while a
HOST that drives edges may change its own bit before LOCK (log entry 14). -/
def Obligations.EdgesComputeTheAlgorithm : Prop :=
  ∀ (s : State) (pin : Pin) (n : Len),
    s.Safe → s.st = .cfg → 1 ≤ s.cfg.cal → decode s.cmd = .ok (.transmit pin n) → s.pinLine pin = some s.lineSel →
    ∃ (k : Nat) (u : State), exec (.transmit pin n) s = .next u ∧
      ∀ f : List Input, edgesAhead k f = true →
        ∃ t, Host.Core.run Sys2Proof.core k { s with feed := f } = .next t ∧ t.st = .resp ∧
          t.trace = u.trace ∧ t.wave = u.wave ∧ t.lines = u.lines ∧ t.rsp = u.rsp ∧ t.resbuf = u.resbuf ∧
          t.lineSel = u.lineSel ∧ t.lockReq = u.lockReq ∧ t.draws = u.draws ∧ (f = [] → t.preempt = u.preempt) ∧
          (t.cfg = u.cfg ∧ u.cfg = s.cfg) ∧ (t.bright = u.bright ∧ u.bright = s.bright) ∧
          (t.remapPresent = u.remapPresent ∧ u.remapPresent = s.remapPresent) ∧
          (t.remapLen = u.remapLen ∧ u.remapLen = s.remapLen) ∧ (t.rmp = u.rmp ∧ u.rmp = s.rmp) ∧
          (t.cmd = u.cmd ∧ u.cmd = s.cmd) ∧ (t.argbuf = u.argbuf ∧ u.argbuf = s.argbuf)

/-- The symbol grain computes what the algorithm computes (30 R60, 41 R100): from LOCK, one step to enter the critical
section and one step for each bit of the copy lead to UNLOCK with the symbols of the copy, in order (log entry 13). -/
def Obligations.SymbolStepsSendTheCopy : Prop :=
  ∀ (s : State) (bs : List Byte) (rest : List Input),
    s.Safe → s.st = .lock → bs.length = s.txcLen.toNat → (∀ j, j < bs.length → s.txc.read j = bs[j]?) →
    s.feed = List.replicate (1 + 8 * bs.length) .pulse ++ rest →
    ∃ t, Host.Core.run Sys2Proof.core (1 + 8 * bs.length) s = .next t ∧ t.st = .unlock ∧ t.feed = rest ∧
      t.trace = s.trace ++ [.lock] ++ (bitsOf bs).map (Event.emit s.lineSel) ∧
      t.wave = s.wave ++ (waveOf bs).map (fun x => (s.lineSel, x)) ∧ t.lines = s.lines ∧ t.lockReq = true

/-- A command other than TRANSMIT, legal or not, issued on the wires does what it does as one step (10 R22, 41 R108, 60 R148): the word is
accepted, each payload byte is taken, the command runs, the response word and each byte of its payload are delivered. This
holds of every word but TRANSMIT's, whose edges EdgesComputeTheAlgorithm follows. EXEC takes one edge (log entry 15),
a byte can be taken or delivered at every edge of RECV and RESP (log entry 25), the grains are log entry 1, and the HOST
leaves its preemption bit alone (log entry 14). -/
def Obligations.EdgesAgreeWithOneStep : Prop :=
  ∀ (s : State) (w : CmdWord) (p q : PortIn) (ds : List PortIn) (rest : List Input),
    s.Safe → s.st = .idle → (∀ pin n, decode w ≠ .ok (.transmit pin n)) →
    p.cmdValid = true → p.cmdWord = w → ds.length = wordPayload w → (∀ d ∈ ds, d.dinValid = true) →
    (∀ e ∈ p :: q :: ds, e.rst = false ∧ e.preemptIn = s.preempt) →
    ∃ (t : State) (out : List Byte),
      step { s with feed := .call w (ds.map PortIn.dinData) :: rest } = .next t ∧
      t.trace = s.trace ++ [.resp t.rsp out] ∧
      ∀ rs : List PortIn, rs.length = 1 + out.length →
        (∀ r ∈ rs, r.rst = false ∧ r.preemptIn = s.preempt ∧ r.rspReady = true ∧ r.doutReady = true) →
        Host.Core.run Sys2Proof.core (1 + ds.length + 1 + rs.length)
          { s with feed := (p :: ds ++ q :: rs).map .edge ++ rest } = .next t

/-! ### The channels, the settle timer and the pins, edge by edge -/

/-- Command issue on the wires (10 R22, 41 R108 rows IDLE and RECV). In IDLE an edge without a command transfer changes
nothing (70 R170). A command transfer latches the word and, where payload
follows, goes to RECV with an empty ARGBUF, else starts execution. In RECV an edge without a transfer changes nothing, and a
transfer stores its byte at the next index of ARGBUF; the last one, and no other, starts execution. PREEMPT at an edge is log
entry 14; that RECV takes a byte at any edge is log entry 25. -/
def Obligations.CommandAndPayloadTransfers : Prop :=
  (∀ (s : State) (p : PortIn) (rest : List Input),
    s.Safe → s.st = .idle → s.feed = .edge p :: rest → p.rst = false → p.cmdValid = false →
    step s = .next { s with feed := rest, preempt := p.preemptIn }) ∧
  (∀ (s : State) (p : PortIn) (rest : List Input),
    s.st = .idle → s.feed = .edge p :: rest → p.rst = false → p.cmdValid = true →
    ∃ t, step s = .next t ∧ t.cmd = p.cmdWord ∧ t.feed = rest ∧
      (wordTakesPayload p.cmdWord = true → t.argbuf = []) ∧
      (0 < wordPayload p.cmdWord → t.st = .recv ∧ t.trace = s.trace) ∧
      (wordPayload p.cmdWord = 0 → t.StartsFrom s p.cmdWord)) ∧
  (∀ (s : State) (p : PortIn) (rest : List Input),
    s.Safe → s.st = .recv → s.feed = .edge p :: rest → p.rst = false →
    (p.dinValid = false → step s = .next { s with feed := rest, preempt := p.preemptIn }) ∧
    (p.dinValid = true → ∃ t, step s = .next t ∧ t.cmd = s.cmd ∧ t.feed = rest ∧
      (∀ j, t.argbuf.read j = if j = s.argbuf.length then some p.dinData else s.argbuf.read j) ∧
      t.argbuf.length = s.argbuf.length + 1 ∧
      (s.argbuf.length + 1 < wordPayload s.cmd → t.st = .recv ∧ t.trace = s.trace) ∧
      (s.argbuf.length + 1 = wordPayload s.cmd → t.StartsFrom s s.cmd)))

/-- The response on the wires (10 R22). The word stands on the response channel until it is taken, then the payload bytes on
the payload-out channel, index 0 first, each until it is taken; after the last one, and no sooner, the block is in IDLE and
the copy is gone. PREEMPT at an edge is log entry 14; that each can be taken at the edge after the one before is log
entry 25. -/
def Obligations.ResponseTransfers : Prop :=
  (∀ (s : State) (p : PortIn) (rest : List Input),
    s.Safe → s.st = .resp → s.feed = .edge p :: rest → p.rst = false →
    (s.rspSent = false ∧ p.rspReady = false) ∨ (s.rspSent = true ∧ p.doutReady = false) →
    step s = .next { s with feed := rest, preempt := p.preemptIn }) ∧
  (∀ (s : State) (out : List Byte) (rs : List PortIn) (rest : List Input),
    s.Safe → s.st = .resp → s.rspSent = false → s.resbuf = Memory.ofBytes out → rs.length = 1 + out.length →
    (∀ r ∈ rs, r.rst = false ∧ r.rspReady = true ∧ r.doutReady = true) → s.feed = rs.map .edge ++ rest →
    s.ports.rspValid = true ∧ s.ports.rspWord = s.rsp ∧
    (∀ j, j < out.length → ∃ t, Host.Core.run Sys2Proof.core (1 + j) s = .next t ∧ t.st = .resp ∧
      t.ports.rspValid = false ∧ t.ports.doutValid = true ∧ t.ports.doutData = out[j]?) ∧
    (∃ t, Host.Core.run Sys2Proof.core (1 + out.length) s = .next t ∧ t.st = .idle ∧ t.feed = rest ∧
      t.ports.cmdReady = true ∧ t.txc = [] ∧ t.txcLen = 0#32 ∧ t.trace = s.trace))

/-- The settle delay lasts at least T_SETTLE time-units (41 R97), whatever else the HOST drives: after the CFG edge, and for
CAL * T_SETTLE clock cycles more, the block is in SETTLE, the line is a floating output at 0, and nothing but the two pin
events has been recorded. CFG takes one edge (log entry 15); the timer is log entries 8 and 24. -/
def Obligations.SettleLastsAtLeast : Prop :=
  ∀ (s : State) (k : Nat),
    s.Safe → s.st = .cfg → k ≤ s.cfg.cal * s.cfg.tSettle → edgesAhead (1 + k) s.feed = true →
    ∃ t, Host.Core.run Sys2Proof.core (1 + k) s = .next t ∧ t.st = .settle ∧ t.lockReq = false ∧
      t.trace = s.trace ++ [.pinMode s.lineSel, .pinWrite s.lineSel false] ∧
      t.line s.lineSel = ⟨true, true, false⟩

/-- Once a line is driven or configured as floating it stays so, in every step at every grain but a reset edge
(10 R19, 41 R107). -/
def Obligations.DrivenLinesStayDriven : Prop :=
  ∀ (s t : State) (l : Nat), step s = .next t → (∀ p rest, s.feed = .edge p :: rest → p.rst = false) →
    ((s.line l).dir = true → (t.line l).dir = true) ∧ ((s.line l).pull = true → (t.line l).pull = true)

/-- The remap table is written by SETREMAP, CLEARREMAP and reset only, in every step at every grain (10 R12, 43 R133): a
step that changes it ran one of the two, as a whole command or in EXEC, or was a reset edge, which leaves it absent. No edge
and no symbol of a TRANSMIT touches it (41 R112). -/
def Obligations.TableWrittenOnlyByRemapCommands : Prop :=
  ∀ s t : State, step s = .next t → ¬(t.remapPresent = s.remapPresent ∧ t.remapLen = s.remapLen ∧ t.rmp = s.rmp) →
    (∃ w payload rest, s.feed = .call w payload :: rest ∧ s.st = .idle ∧
      ((∃ n, decode w = .ok (.setremap n)) ∨ decode w = .ok .clearremap)) ∨
    (s.st = .exec ∧ ((∃ n, decode s.cmd = .ok (.setremap n)) ∨ decode s.cmd = .ok .clearremap)) ∨
    (∃ p rest, s.feed = .edge p :: rest ∧ p.rst = true ∧ t.remapPresent = false ∧ t.remapLen = 0#32 ∧ t.rmp = [])
end

