-- ==== Sys2Proof/Laws/Encoding.lean ====
section
/-! SUPPORT. The fields of a command word, taken apart and put together (spec 30 R61). -/

namespace Sys2Proof

/-- The fields of a word put together from fields. -/
theorem fields_of_append (op zero : BitVec 4) (pin : Pin) (arg : BitVec 32) :
    opField (op ++ zero ++ pin ++ arg : BitVec (4 + 4 + 8 + 32)) = op ∧
    zeroField (op ++ zero ++ pin ++ arg : BitVec (4 + 4 + 8 + 32)) = zero ∧
    pinField (op ++ zero ++ pin ++ arg : BitVec (4 + 4 + 8 + 32)) = pin ∧
    argField (op ++ zero ++ pin ++ arg : BitVec (4 + 4 + 8 + 32)) = arg := by
  refine ⟨?_, ?_, ?_, ?_⟩ <;> apply BitVec.eq_of_getLsbD_eq <;> intro i hi
  · show (BitVec.extractLsb' 44 4 (op ++ zero ++ pin ++ arg)).getLsbD i = op.getLsbD i
    simp only [BitVec.getLsbD_extractLsb', BitVec.getLsbD_append]
    rw [if_neg (by omega), if_neg (by omega), if_neg (by omega), show 44 + i - 32 - 8 - 4 = i by omega]
    simp [hi]
  · show (BitVec.extractLsb' 40 4 (op ++ zero ++ pin ++ arg)).getLsbD i = zero.getLsbD i
    simp only [BitVec.getLsbD_extractLsb', BitVec.getLsbD_append]
    rw [if_neg (by omega), if_neg (by omega), if_pos (by omega), show 40 + i - 32 - 8 = i by omega]
    simp [hi]
  · show (BitVec.extractLsb' 32 8 (op ++ zero ++ pin ++ arg)).getLsbD i = pin.getLsbD i
    simp only [BitVec.getLsbD_extractLsb', BitVec.getLsbD_append]
    rw [if_neg (by omega), if_pos (by omega), show 32 + i - 32 = i by omega]
    simp [hi]
  · show (BitVec.extractLsb' 0 32 (op ++ zero ++ pin ++ arg)).getLsbD i = arg.getLsbD i
    simp only [BitVec.getLsbD_extractLsb', BitVec.getLsbD_append]
    rw [if_pos (by omega), show 0 + i = i by omega]
    simp [hi]

/-- A word is its fields put together. -/
theorem append_of_fields (w : CmdWord) :
    w = (opField w ++ zeroField w ++ pinField w ++ argField w : BitVec (4 + 4 + 8 + 32)) := by
  apply BitVec.eq_of_getLsbD_eq
  intro i hi
  show w.getLsbD i = (w.extractLsb' 44 4 ++ w.extractLsb' 40 4 ++ w.extractLsb' 32 8 ++ w.extractLsb' 0 32).getLsbD i
  simp only [BitVec.getLsbD_append, BitVec.getLsbD_extractLsb']
  split
  · next h => simp [h]
  · split
    · next h h1 => rw [show 32 + (i - 32) = i by omega]; simp [h1]
    · split
      · next h h1 h2 => rw [show 40 + (i - 32 - 8) = i by omega]; simp [h2]
      · rw [show 44 + (i - 32 - 8 - 4) = i by omega]
        simp [show i - 32 - 8 - 4 < 4 by omega]

/-- The fields of an encoded command (30 R61). -/
theorem commandWord_fields (op : BitVec 4) (pin : Pin) (arg : BitVec 32) :
    opField (commandWord op pin arg) = op ∧ zeroField (commandWord op pin arg) = 0#4 ∧
    pinField (commandWord op pin arg) = pin ∧ argField (commandWord op pin arg) = arg :=
  fields_of_append op 0#4 pin arg

end Sys2Proof
end

