-- ==== Sys2Proof/Laws/Memory.lean ====
section
/-! SUPPORT. The laws of the byte buffers: a read after a write, the canonical form, and reading back what was filled in
(spec 20 R40, R43, R53). -/

namespace Sys2Proof.Machine

/-- A read after a write: the byte written at its index, the old byte elsewhere. -/
theorem Memory.read_write (m : Memory) (i j : Nat) (v : Byte) :
    (m.write i v).read j = if i = j then some v else m.read j := by
  induction m with
  | nil => simp [Memory.write, Memory.read]
  | cons c m ih =>
    obtain ⟨a, w⟩ := c
    unfold Memory.write
    split
    · simp [Memory.read]
    · split
      · next h => subst h; by_cases hij : i = j <;> simp [Memory.read, hij]
      · simp only [Memory.read, ih]
        by_cases haj : a = j
        · subst haj; simp [*]
        · simp [haj]

/-- The bytes of a filled stretch, the old bytes elsewhere. -/
theorem Memory.read_fill (bs : List Byte) (i j : Nat) (m : Memory) :
    (Memory.fill bs i m).read j = if i ≤ j ∧ j < i + bs.length then bs[j - i]? else m.read j := by
  induction bs generalizing i m with
  | nil =>
    have : ¬(i ≤ j ∧ j < i + ([] : List Byte).length) := by simp
    rw [if_neg this]; rfl
  | cons b bs ih =>
    simp only [Memory.fill, ih, Memory.read_write, List.length_cons]
    by_cases hij : i = j
    · subst hij; simp
    · by_cases h : i + 1 ≤ j ∧ j < i + 1 + bs.length
      · have h' : i ≤ j ∧ j < i + (bs.length + 1) := by omega
        rw [if_pos h, if_pos h', show j - i = (j - (i + 1)) + 1 by omega, List.getElem?_cons_succ]
      · have h' : ¬(i ≤ j ∧ j < i + (bs.length + 1)) := by omega
        rw [if_neg h, if_neg h', if_neg hij]

/-- The bytes of a fresh buffer. -/
theorem Memory.read_ofBytes (bs : List Byte) (j : Nat) : (Memory.ofBytes bs).read j = bs[j]? := by
  simp only [Memory.ofBytes, Memory.read_fill, Nat.zero_le, true_and, Nat.zero_add, Nat.sub_zero]
  by_cases h : j < bs.length
  · rw [if_pos h]
  · rw [if_neg h, List.getElem?_eq_none (by omega)]; rfl

/-- A write keeps the canonical form. -/
theorem Memory.wf_write (m : Memory) (i : Nat) (v : Byte) (h : m.wf = true) : (m.write i v).wf = true := by
  induction m with
  | nil => rfl
  | cons c m ih =>
    obtain ⟨a, w⟩ := c
    unfold Memory.write
    split
    · next hia => simp [Memory.wf, hia, h]
    · split
      · next _ hia => subst hia; cases m <;> simp_all [Memory.wf]
      · next h1 h2 =>
        have hai : a < i := by omega
        cases m with
        | nil => simp [Memory.write, Memory.wf, hai]
        | cons d m =>
          obtain ⟨b, x⟩ := d
          simp only [Memory.wf, Bool.and_eq_true, decide_eq_true_eq] at h
          have := ih h.2
          unfold Memory.write at this ⊢
          split <;> rename_i h3
          · simp_all [Memory.wf]
          · rw [if_neg h3] at this
            split <;> rename_i h4
            · subst h4; simp_all [Memory.wf]
            · rw [if_neg h4] at this; simp_all [Memory.wf]

/-- Filling keeps the canonical form. -/
theorem Memory.wf_fill (bs : List Byte) (i : Nat) (m : Memory) (h : m.wf = true) :
    (Memory.fill bs i m).wf = true := by
  induction bs generalizing i m with
  | nil => exact h
  | cons b bs ih => exact ih _ _ (Memory.wf_write m i b h)

/-- A fresh buffer is canonical. -/
@[simp] theorem Memory.wf_ofBytes (bs : List Byte) : (Memory.ofBytes bs).wf = true := Memory.wf_fill bs 0 [] rfl

/-- An exact buffer lists the indices below its size, in order. -/
theorem Memory.dense_iff (m : Memory) (n : Nat) : m.dense n = true ↔ m.map Prod.fst = List.range n := by
  simp [Memory.dense]

/-- An exact buffer has as many entries as its size. -/
theorem Memory.dense_length {m : Memory} {n : Nat} (h : m.dense n = true) : m.length = n := by
  simpa using congrArg List.length ((Memory.dense_iff m n).1 h)

/-- A write beyond the last index of a buffer appends. -/
theorem Memory.write_append (m : Memory) (i : Nat) (v : Byte) (h : ∀ c ∈ m, c.1 < i) :
    m.write i v = m ++ [(i, v)] := by
  induction m with
  | nil => rfl
  | cons c m ih =>
    obtain ⟨a, w⟩ := c
    have ha : a < i := h (a, w) (by simp)
    rw [Memory.write, if_neg (by omega), if_neg (by omega), ih (fun c hc => h c (by simp [hc]))]
    rfl

/-- The next byte written to an exact buffer makes it one longer. -/
theorem Memory.dense_write {m : Memory} {n : Nat} (v : Byte) (h : m.dense n = true) :
    (m.write n v).dense (n + 1) = true := by
  rw [Memory.dense_iff] at *
  have hlt : ∀ c ∈ m, c.1 < n := by
    intro c hc
    have : c.1 ∈ List.range n := h ▸ List.mem_map_of_mem hc
    simpa using this
  rw [Memory.write_append m n v hlt, List.map_append, h, List.range_succ]
  rfl

/-- Filling on from the end of an exact buffer keeps it exact. -/
theorem Memory.dense_fill (bs : List Byte) {m : Memory} {n : Nat} (h : m.dense n = true) :
    (Memory.fill bs n m).dense (n + bs.length) = true := by
  induction bs generalizing m n with
  | nil => exact h
  | cons b bs ih =>
    have := ih (Memory.dense_write b h)
    rw [show n + (b :: bs).length = n + 1 + bs.length by simp; omega]
    exact this

/-- A fresh buffer is exact. -/
theorem Memory.dense_ofBytes (bs : List Byte) : (Memory.ofBytes bs).dense bs.length = true := by
  have := Memory.dense_fill bs (m := []) (n := 0) rfl
  rwa [Nat.zero_add] at this

/-- A fresh buffer has one entry a byte. -/
@[simp] theorem Memory.length_ofBytes (bs : List Byte) : (Memory.ofBytes bs).length = bs.length :=
  Memory.dense_length (Memory.dense_ofBytes bs)

/-- A buffer whose indices rise by one from `i` is canonical. -/
theorem Memory.wf_of_range' (m : Memory) (i : Nat) (h : m.map Prod.fst = List.range' i m.length) : m.wf = true := by
  induction m generalizing i with
  | nil => rfl
  | cons c m ih =>
    cases m with
    | nil => rfl
    | cons d m =>
      simp only [List.map_cons, List.length_cons, List.range'_succ, List.cons.injEq] at h
      have := ih (i + 1) (by simp only [List.map_cons, List.length_cons, List.range'_succ, h.2.1, h.2.2])
      simp [Memory.wf, this]; omega

/-- An exact buffer is canonical. -/
theorem Memory.wf_of_dense {m : Memory} {n : Nat} (h : m.dense n = true) : m.wf = true := by
  apply Memory.wf_of_range' m 0
  rw [Memory.dense_length h, ← List.range_eq_range']
  exact (Memory.dense_iff m n).1 h

/-- The index is listed exactly when it is in the key list. -/
theorem Memory.read_isSome (m : Memory) (i : Nat) : (m.read i).isSome = true ↔ i ∈ m.map Prod.fst := by
  induction m with
  | nil => simp [Memory.read]
  | cons c m ih =>
    obtain ⟨a, w⟩ := c
    by_cases h : a = i
    · simp [Memory.read, h]
    · simp only [Memory.read, h, if_false, ih, List.map_cons, List.mem_cons]
      constructor
      · exact Or.inr
      · rintro (h' | h')
        · exact absurd h'.symm h
        · exact h'

/-- An exact buffer holds a value at exactly the indices below its size (10 R14, R15). -/
theorem Memory.read_dense {m : Memory} {n : Nat} (h : m.dense n = true) (i : Nat) :
    (m.read i).isSome = true ↔ i < n := by
  rw [Memory.read_isSome, (Memory.dense_iff m n).1 h, List.mem_range]

/-- What a stretch reads as, byte by byte. -/
theorem Memory.readFrom_eq_ok (m : Memory) (i n : Nat) (bs : List Byte) :
    m.readFrom i n = .ok bs ↔ bs.length = n ∧ ∀ j, j < n → m.read (i + j) = bs[j]? := by
  induction n generalizing i bs with
  | zero => cases bs <;> simp [Memory.readFrom]
  | succ n ih =>
    unfold Memory.readFrom
    constructor
    · intro h
      split at h
      · cases h
      · next b hb =>
        split at h
        · next cs hcs =>
          cases h
          obtain ⟨hl, hr⟩ := (ih (i + 1) cs).1 hcs
          refine ⟨by simp [hl], fun j hj => ?_⟩
          cases j with
          | zero => simpa using hb
          | succ j => rw [List.getElem?_cons_succ, ← hr j (by omega)]; congr 1; omega
        · cases h
    · rintro ⟨hl, hr⟩
      cases bs with
      | nil => simp at hl
      | cons b bs =>
        have hb := hr 0 (by omega)
        simp only [Nat.add_zero, List.getElem?_cons_zero] at hb
        have := (ih (i + 1) bs).2 ⟨by simpa using hl, fun j hj => by
          have := hr (j + 1) (by omega)
          rw [List.getElem?_cons_succ] at this
          rw [← this]; congr 1; omega⟩
        simp only [hb, this]

/-- The bytes of an exact buffer can be read. -/
theorem Memory.readFrom_dense {m : Memory} {n : Nat} (h : m.dense n = true) :
    ∃ bs : List Byte, m.readFrom 0 n = .ok bs ∧ bs.length = n := by
  have hr := Memory.read_dense h
  refine ⟨(List.range n).map fun i => (m.read i).getD 0#8, (Memory.readFrom_eq_ok m 0 n _).2 ⟨by simp, ?_⟩, by simp⟩
  intro j hj
  obtain ⟨b, hb⟩ := Option.isSome_iff_exists.1 ((hr j).2 hj)
  simp [hj, hb]

/-- Reading a fresh buffer gives back the bytes it was made of. -/
@[simp] theorem Memory.readFrom_ofBytes (bs : List Byte) : (Memory.ofBytes bs).readFrom 0 bs.length = .ok bs :=
  (Memory.readFrom_eq_ok _ _ _ _).2 ⟨rfl, fun j _ => by rw [Nat.zero_add, Memory.read_ofBytes]⟩

/-! ### Reads as steps -/

/-- A single read goes on with the byte. -/
theorem readByte_some {space : Space} {m : Memory} {i : Nat} {v : Byte} (k : Byte → Res) (h : m.read i = some v) :
    readByte space m i k = k v := by
  simp [readByte, h]

/-- A read of a stretch goes on with its bytes. -/
theorem readBytes_ok {space : Space} {m : Memory} {n : Nat} {bs : List Byte} (k : List Byte → Res)
    (h : m.readFrom 0 n = .ok bs) : readBytes space m n k = k bs := by
  simp [readBytes, h]

/-- Reading a stretch answers a next state only by going on with its bytes. -/
theorem readBytes_next {space : Space} {m : Memory} {n : Nat} {k : List Byte → Res} {t : State}
    (h : readBytes space m n k = .next t) : ∃ bs, m.readFrom 0 n = .ok bs ∧ k bs = .next t := by
  unfold readBytes at h
  split at h
  · next bs hbs => exact ⟨bs, hbs, h⟩
  · cases h

/-- A single read answers a next state only by going on with its byte. -/
theorem readByte_next {space : Space} {m : Memory} {i : Nat} {k : Byte → Res} {t : State}
    (h : readByte space m i k = .next t) : ∃ v, m.read i = some v ∧ k v = .next t := by
  unfold readByte at h
  split at h
  · next v hv => exact ⟨v, hv, h⟩
  · cases h

/-- Two parts in a row answer a next state only through a state between them. -/
theorem andThen_next {r : Res} {f : State → Res} {t : State} (h : andThen r f = .next t) :
    ∃ u, r = .next u ∧ f u = .next t := by
  unfold andThen at h
  split at h
  · next u => exact ⟨u, rfl, h⟩
  · cases h
  · cases h

/-- The second part runs on the first part's next state. -/
@[simp] theorem andThen_of_next (s : State) (f : State → Res) : andThen (.next s) f = f s := rfl

end Sys2Proof.Machine
end

