-- ==== Sys2Proof/Laws/State.lean ====
section
/-! SUPPORT. What each state update changes and what it leaves alone, as rewrite rules: after these no proof needs to unfold
a record update. `<update>_frame` lists the untouched fields; `<update>_<field>` gives a written one. -/

namespace Sys2Proof.Machine

@[simp] theorem State.goto_frame (q : SeqState) (s : State) :
    (s.goto q).cfg = s.cfg ∧ (s.goto q).bright = s.bright ∧ (s.goto q).remapPresent = s.remapPresent ∧
    (s.goto q).remapLen = s.remapLen ∧ (s.goto q).rmp = s.rmp ∧ (s.goto q).txc = s.txc ∧
    (s.goto q).txcLen = s.txcLen ∧ (s.goto q).cmd = s.cmd ∧ (s.goto q).argbuf = s.argbuf ∧ (s.goto q).rsp = s.rsp ∧
    (s.goto q).resbuf = s.resbuf ∧ (s.goto q).lineSel = s.lineSel ∧ (s.goto q).byteIdx = s.byteIdx ∧
    (s.goto q).bitIdx = s.bitIdx ∧ (s.goto q).shreg = s.shreg ∧ (s.goto q).unitCnt = s.unitCnt ∧
    (s.goto q).presc = s.presc ∧ (s.goto q).settleCnt = s.settleCnt ∧ (s.goto q).savedPreempt = s.savedPreempt ∧
    (s.goto q).lockReq = s.lockReq ∧ (s.goto q).rspSent = s.rspSent ∧ (s.goto q).doutIdx = s.doutIdx ∧
    (s.goto q).lines = s.lines ∧ (s.goto q).preempt = s.preempt ∧ (s.goto q).feed = s.feed ∧
    (s.goto q).trace = s.trace ∧ (s.goto q).wave = s.wave ∧ (s.goto q).draws = s.draws := by
  repeat' constructor

@[simp] theorem State.goto_st (q : SeqState) (s : State) :
    (s.goto q).st = q := rfl

@[simp] theorem State.storeBright_frame (v : Scalar) (s : State) :
    (s.storeBright v).cfg = s.cfg ∧ (s.storeBright v).remapPresent = s.remapPresent ∧
    (s.storeBright v).remapLen = s.remapLen ∧ (s.storeBright v).rmp = s.rmp ∧ (s.storeBright v).txc = s.txc ∧
    (s.storeBright v).txcLen = s.txcLen ∧ (s.storeBright v).cmd = s.cmd ∧ (s.storeBright v).argbuf = s.argbuf ∧
    (s.storeBright v).rsp = s.rsp ∧ (s.storeBright v).resbuf = s.resbuf ∧ (s.storeBright v).lineSel = s.lineSel ∧
    (s.storeBright v).byteIdx = s.byteIdx ∧ (s.storeBright v).bitIdx = s.bitIdx ∧ (s.storeBright v).shreg = s.shreg ∧
    (s.storeBright v).unitCnt = s.unitCnt ∧ (s.storeBright v).presc = s.presc ∧
    (s.storeBright v).settleCnt = s.settleCnt ∧ (s.storeBright v).st = s.st ∧
    (s.storeBright v).savedPreempt = s.savedPreempt ∧ (s.storeBright v).lockReq = s.lockReq ∧
    (s.storeBright v).rspSent = s.rspSent ∧ (s.storeBright v).doutIdx = s.doutIdx ∧
    (s.storeBright v).lines = s.lines ∧ (s.storeBright v).preempt = s.preempt ∧ (s.storeBright v).feed = s.feed ∧
    (s.storeBright v).trace = s.trace ∧ (s.storeBright v).wave = s.wave ∧ (s.storeBright v).draws = s.draws := by
  repeat' constructor

@[simp] theorem State.storeBright_bright (v : Scalar) (s : State) :
    (s.storeBright v).bright = v := rfl

@[simp] theorem State.selectLine_frame (l : Nat) (s : State) :
    (s.selectLine l).cfg = s.cfg ∧ (s.selectLine l).bright = s.bright ∧
    (s.selectLine l).remapPresent = s.remapPresent ∧ (s.selectLine l).remapLen = s.remapLen ∧
    (s.selectLine l).rmp = s.rmp ∧ (s.selectLine l).txc = s.txc ∧ (s.selectLine l).txcLen = s.txcLen ∧
    (s.selectLine l).cmd = s.cmd ∧ (s.selectLine l).argbuf = s.argbuf ∧ (s.selectLine l).rsp = s.rsp ∧
    (s.selectLine l).resbuf = s.resbuf ∧ (s.selectLine l).byteIdx = s.byteIdx ∧ (s.selectLine l).bitIdx = s.bitIdx ∧
    (s.selectLine l).shreg = s.shreg ∧ (s.selectLine l).unitCnt = s.unitCnt ∧ (s.selectLine l).presc = s.presc ∧
    (s.selectLine l).settleCnt = s.settleCnt ∧ (s.selectLine l).st = s.st ∧
    (s.selectLine l).savedPreempt = s.savedPreempt ∧ (s.selectLine l).lockReq = s.lockReq ∧
    (s.selectLine l).rspSent = s.rspSent ∧ (s.selectLine l).doutIdx = s.doutIdx ∧ (s.selectLine l).lines = s.lines ∧
    (s.selectLine l).preempt = s.preempt ∧ (s.selectLine l).feed = s.feed ∧ (s.selectLine l).trace = s.trace ∧
    (s.selectLine l).wave = s.wave ∧ (s.selectLine l).draws = s.draws := by
  repeat' constructor

@[simp] theorem State.selectLine_lineSel (l : Nat) (s : State) :
    (s.selectLine l).lineSel = l := rfl

@[simp] theorem State.setBit_frame (j : BitVec 3) (s : State) :
    (s.setBit j).cfg = s.cfg ∧ (s.setBit j).bright = s.bright ∧ (s.setBit j).remapPresent = s.remapPresent ∧
    (s.setBit j).remapLen = s.remapLen ∧ (s.setBit j).rmp = s.rmp ∧ (s.setBit j).txc = s.txc ∧
    (s.setBit j).txcLen = s.txcLen ∧ (s.setBit j).cmd = s.cmd ∧ (s.setBit j).argbuf = s.argbuf ∧
    (s.setBit j).rsp = s.rsp ∧ (s.setBit j).resbuf = s.resbuf ∧ (s.setBit j).lineSel = s.lineSel ∧
    (s.setBit j).byteIdx = s.byteIdx ∧ (s.setBit j).shreg = s.shreg ∧ (s.setBit j).unitCnt = s.unitCnt ∧
    (s.setBit j).presc = s.presc ∧ (s.setBit j).settleCnt = s.settleCnt ∧ (s.setBit j).st = s.st ∧
    (s.setBit j).savedPreempt = s.savedPreempt ∧ (s.setBit j).lockReq = s.lockReq ∧
    (s.setBit j).rspSent = s.rspSent ∧ (s.setBit j).doutIdx = s.doutIdx ∧ (s.setBit j).lines = s.lines ∧
    (s.setBit j).preempt = s.preempt ∧ (s.setBit j).feed = s.feed ∧ (s.setBit j).trace = s.trace ∧
    (s.setBit j).wave = s.wave ∧ (s.setBit j).draws = s.draws := by
  repeat' constructor

@[simp] theorem State.setBit_bitIdx (j : BitVec 3) (s : State) :
    (s.setBit j).bitIdx = j := rfl

@[simp] theorem State.loadByte_frame (k : BitVec 32) (v : Byte) (s : State) :
    (s.loadByte k v).cfg = s.cfg ∧ (s.loadByte k v).bright = s.bright ∧
    (s.loadByte k v).remapPresent = s.remapPresent ∧ (s.loadByte k v).remapLen = s.remapLen ∧
    (s.loadByte k v).rmp = s.rmp ∧ (s.loadByte k v).txc = s.txc ∧ (s.loadByte k v).txcLen = s.txcLen ∧
    (s.loadByte k v).cmd = s.cmd ∧ (s.loadByte k v).argbuf = s.argbuf ∧ (s.loadByte k v).rsp = s.rsp ∧
    (s.loadByte k v).resbuf = s.resbuf ∧ (s.loadByte k v).lineSel = s.lineSel ∧
    (s.loadByte k v).unitCnt = s.unitCnt ∧ (s.loadByte k v).presc = s.presc ∧
    (s.loadByte k v).settleCnt = s.settleCnt ∧ (s.loadByte k v).st = s.st ∧
    (s.loadByte k v).savedPreempt = s.savedPreempt ∧ (s.loadByte k v).lockReq = s.lockReq ∧
    (s.loadByte k v).rspSent = s.rspSent ∧ (s.loadByte k v).doutIdx = s.doutIdx ∧ (s.loadByte k v).lines = s.lines ∧
    (s.loadByte k v).preempt = s.preempt ∧ (s.loadByte k v).feed = s.feed ∧ (s.loadByte k v).trace = s.trace ∧
    (s.loadByte k v).wave = s.wave ∧ (s.loadByte k v).draws = s.draws := by
  repeat' constructor

@[simp] theorem State.loadByte_byteIdx (k : BitVec 32) (v : Byte) (s : State) :
    (s.loadByte k v).byteIdx = k := rfl

@[simp] theorem State.loadByte_bitIdx (k : BitVec 32) (v : Byte) (s : State) :
    (s.loadByte k v).bitIdx = 7#3 := rfl

@[simp] theorem State.loadByte_shreg (k : BitVec 32) (v : Byte) (s : State) :
    (s.loadByte k v).shreg = v := rfl

@[simp] theorem State.setUnits_frame (n : Nat) (s : State) :
    (s.setUnits n).cfg = s.cfg ∧ (s.setUnits n).bright = s.bright ∧ (s.setUnits n).remapPresent = s.remapPresent ∧
    (s.setUnits n).remapLen = s.remapLen ∧ (s.setUnits n).rmp = s.rmp ∧ (s.setUnits n).txc = s.txc ∧
    (s.setUnits n).txcLen = s.txcLen ∧ (s.setUnits n).cmd = s.cmd ∧ (s.setUnits n).argbuf = s.argbuf ∧
    (s.setUnits n).rsp = s.rsp ∧ (s.setUnits n).resbuf = s.resbuf ∧ (s.setUnits n).lineSel = s.lineSel ∧
    (s.setUnits n).byteIdx = s.byteIdx ∧ (s.setUnits n).bitIdx = s.bitIdx ∧ (s.setUnits n).shreg = s.shreg ∧
    (s.setUnits n).presc = s.presc ∧ (s.setUnits n).settleCnt = s.settleCnt ∧ (s.setUnits n).st = s.st ∧
    (s.setUnits n).savedPreempt = s.savedPreempt ∧ (s.setUnits n).lockReq = s.lockReq ∧
    (s.setUnits n).rspSent = s.rspSent ∧ (s.setUnits n).doutIdx = s.doutIdx ∧ (s.setUnits n).lines = s.lines ∧
    (s.setUnits n).preempt = s.preempt ∧ (s.setUnits n).feed = s.feed ∧ (s.setUnits n).trace = s.trace ∧
    (s.setUnits n).wave = s.wave ∧ (s.setUnits n).draws = s.draws := by
  repeat' constructor

@[simp] theorem State.setUnits_unitCnt (n : Nat) (s : State) :
    (s.setUnits n).unitCnt = BitVec.ofNat 4 n := rfl

@[simp] theorem State.setPresc_frame (n : Nat) (s : State) :
    (s.setPresc n).cfg = s.cfg ∧ (s.setPresc n).bright = s.bright ∧ (s.setPresc n).remapPresent = s.remapPresent ∧
    (s.setPresc n).remapLen = s.remapLen ∧ (s.setPresc n).rmp = s.rmp ∧ (s.setPresc n).txc = s.txc ∧
    (s.setPresc n).txcLen = s.txcLen ∧ (s.setPresc n).cmd = s.cmd ∧ (s.setPresc n).argbuf = s.argbuf ∧
    (s.setPresc n).rsp = s.rsp ∧ (s.setPresc n).resbuf = s.resbuf ∧ (s.setPresc n).lineSel = s.lineSel ∧
    (s.setPresc n).byteIdx = s.byteIdx ∧ (s.setPresc n).bitIdx = s.bitIdx ∧ (s.setPresc n).shreg = s.shreg ∧
    (s.setPresc n).unitCnt = s.unitCnt ∧ (s.setPresc n).settleCnt = s.settleCnt ∧ (s.setPresc n).st = s.st ∧
    (s.setPresc n).savedPreempt = s.savedPreempt ∧ (s.setPresc n).lockReq = s.lockReq ∧
    (s.setPresc n).rspSent = s.rspSent ∧ (s.setPresc n).doutIdx = s.doutIdx ∧ (s.setPresc n).lines = s.lines ∧
    (s.setPresc n).preempt = s.preempt ∧ (s.setPresc n).feed = s.feed ∧ (s.setPresc n).trace = s.trace ∧
    (s.setPresc n).wave = s.wave ∧ (s.setPresc n).draws = s.draws := by
  repeat' constructor

@[simp] theorem State.setPresc_presc (n : Nat) (s : State) :
    (s.setPresc n).presc = n := rfl

@[simp] theorem State.settleTick_frame (s : State) :
    (s.settleTick).cfg = s.cfg ∧ (s.settleTick).bright = s.bright ∧ (s.settleTick).remapPresent = s.remapPresent ∧
    (s.settleTick).remapLen = s.remapLen ∧ (s.settleTick).rmp = s.rmp ∧ (s.settleTick).txc = s.txc ∧
    (s.settleTick).txcLen = s.txcLen ∧ (s.settleTick).cmd = s.cmd ∧ (s.settleTick).argbuf = s.argbuf ∧
    (s.settleTick).rsp = s.rsp ∧ (s.settleTick).resbuf = s.resbuf ∧ (s.settleTick).lineSel = s.lineSel ∧
    (s.settleTick).byteIdx = s.byteIdx ∧ (s.settleTick).bitIdx = s.bitIdx ∧ (s.settleTick).shreg = s.shreg ∧
    (s.settleTick).unitCnt = s.unitCnt ∧ (s.settleTick).presc = s.presc ∧ (s.settleTick).st = s.st ∧
    (s.settleTick).savedPreempt = s.savedPreempt ∧ (s.settleTick).lockReq = s.lockReq ∧
    (s.settleTick).rspSent = s.rspSent ∧ (s.settleTick).doutIdx = s.doutIdx ∧ (s.settleTick).lines = s.lines ∧
    (s.settleTick).preempt = s.preempt ∧ (s.settleTick).feed = s.feed ∧ (s.settleTick).trace = s.trace ∧
    (s.settleTick).wave = s.wave ∧ (s.settleTick).draws = s.draws := by
  repeat' constructor

@[simp] theorem State.settleTick_settleCnt (s : State) :
    (s.settleTick).settleCnt = s.settleCnt - 1 := rfl

@[simp] theorem State.setFeed_frame (f : List Input) (s : State) :
    (s.setFeed f).cfg = s.cfg ∧ (s.setFeed f).bright = s.bright ∧ (s.setFeed f).remapPresent = s.remapPresent ∧
    (s.setFeed f).remapLen = s.remapLen ∧ (s.setFeed f).rmp = s.rmp ∧ (s.setFeed f).txc = s.txc ∧
    (s.setFeed f).txcLen = s.txcLen ∧ (s.setFeed f).cmd = s.cmd ∧ (s.setFeed f).argbuf = s.argbuf ∧
    (s.setFeed f).rsp = s.rsp ∧ (s.setFeed f).resbuf = s.resbuf ∧ (s.setFeed f).lineSel = s.lineSel ∧
    (s.setFeed f).byteIdx = s.byteIdx ∧ (s.setFeed f).bitIdx = s.bitIdx ∧ (s.setFeed f).shreg = s.shreg ∧
    (s.setFeed f).unitCnt = s.unitCnt ∧ (s.setFeed f).presc = s.presc ∧ (s.setFeed f).settleCnt = s.settleCnt ∧
    (s.setFeed f).st = s.st ∧ (s.setFeed f).savedPreempt = s.savedPreempt ∧ (s.setFeed f).lockReq = s.lockReq ∧
    (s.setFeed f).rspSent = s.rspSent ∧ (s.setFeed f).doutIdx = s.doutIdx ∧ (s.setFeed f).lines = s.lines ∧
    (s.setFeed f).preempt = s.preempt ∧ (s.setFeed f).trace = s.trace ∧ (s.setFeed f).wave = s.wave ∧
    (s.setFeed f).draws = s.draws := by
  repeat' constructor

@[simp] theorem State.setFeed_feed (f : List Input) (s : State) :
    (s.setFeed f).feed = f := rfl

@[simp] theorem State.event_frame (e : Event) (s : State) :
    (s.event e).cfg = s.cfg ∧ (s.event e).bright = s.bright ∧ (s.event e).remapPresent = s.remapPresent ∧
    (s.event e).remapLen = s.remapLen ∧ (s.event e).rmp = s.rmp ∧ (s.event e).txc = s.txc ∧
    (s.event e).txcLen = s.txcLen ∧ (s.event e).cmd = s.cmd ∧ (s.event e).argbuf = s.argbuf ∧
    (s.event e).rsp = s.rsp ∧ (s.event e).resbuf = s.resbuf ∧ (s.event e).lineSel = s.lineSel ∧
    (s.event e).byteIdx = s.byteIdx ∧ (s.event e).bitIdx = s.bitIdx ∧ (s.event e).shreg = s.shreg ∧
    (s.event e).unitCnt = s.unitCnt ∧ (s.event e).presc = s.presc ∧ (s.event e).settleCnt = s.settleCnt ∧
    (s.event e).st = s.st ∧ (s.event e).savedPreempt = s.savedPreempt ∧ (s.event e).lockReq = s.lockReq ∧
    (s.event e).rspSent = s.rspSent ∧ (s.event e).doutIdx = s.doutIdx ∧ (s.event e).lines = s.lines ∧
    (s.event e).preempt = s.preempt ∧ (s.event e).feed = s.feed ∧ (s.event e).wave = s.wave ∧
    (s.event e).draws = s.draws := by
  repeat' constructor

@[simp] theorem State.event_trace (e : Event) (s : State) :
    (s.event e).trace = s.trace ++ [e] := rfl

@[simp] theorem State.setLine_frame (l : Nat) (x : Line) (s : State) :
    (s.setLine l x).cfg = s.cfg ∧ (s.setLine l x).bright = s.bright ∧ (s.setLine l x).remapPresent = s.remapPresent ∧
    (s.setLine l x).remapLen = s.remapLen ∧ (s.setLine l x).rmp = s.rmp ∧ (s.setLine l x).txc = s.txc ∧
    (s.setLine l x).txcLen = s.txcLen ∧ (s.setLine l x).cmd = s.cmd ∧ (s.setLine l x).argbuf = s.argbuf ∧
    (s.setLine l x).rsp = s.rsp ∧ (s.setLine l x).resbuf = s.resbuf ∧ (s.setLine l x).lineSel = s.lineSel ∧
    (s.setLine l x).byteIdx = s.byteIdx ∧ (s.setLine l x).bitIdx = s.bitIdx ∧ (s.setLine l x).shreg = s.shreg ∧
    (s.setLine l x).unitCnt = s.unitCnt ∧ (s.setLine l x).presc = s.presc ∧ (s.setLine l x).settleCnt = s.settleCnt ∧
    (s.setLine l x).st = s.st ∧ (s.setLine l x).savedPreempt = s.savedPreempt ∧ (s.setLine l x).lockReq = s.lockReq ∧
    (s.setLine l x).rspSent = s.rspSent ∧ (s.setLine l x).doutIdx = s.doutIdx ∧ (s.setLine l x).preempt = s.preempt ∧
    (s.setLine l x).feed = s.feed ∧ (s.setLine l x).trace = s.trace ∧ (s.setLine l x).wave = s.wave ∧
    (s.setLine l x).draws = s.draws := by
  repeat' constructor

@[simp] theorem State.setLine_lines (l : Nat) (x : Line) (s : State) :
    (s.setLine l x).lines = s.lines.set l x := rfl

@[simp] theorem State.level_frame (l : Nat) (b : Bool) (s : State) :
    (s.level l b).cfg = s.cfg ∧ (s.level l b).bright = s.bright ∧ (s.level l b).remapPresent = s.remapPresent ∧
    (s.level l b).remapLen = s.remapLen ∧ (s.level l b).rmp = s.rmp ∧ (s.level l b).txc = s.txc ∧
    (s.level l b).txcLen = s.txcLen ∧ (s.level l b).cmd = s.cmd ∧ (s.level l b).argbuf = s.argbuf ∧
    (s.level l b).rsp = s.rsp ∧ (s.level l b).resbuf = s.resbuf ∧ (s.level l b).lineSel = s.lineSel ∧
    (s.level l b).byteIdx = s.byteIdx ∧ (s.level l b).bitIdx = s.bitIdx ∧ (s.level l b).shreg = s.shreg ∧
    (s.level l b).unitCnt = s.unitCnt ∧ (s.level l b).presc = s.presc ∧ (s.level l b).settleCnt = s.settleCnt ∧
    (s.level l b).st = s.st ∧ (s.level l b).savedPreempt = s.savedPreempt ∧ (s.level l b).lockReq = s.lockReq ∧
    (s.level l b).rspSent = s.rspSent ∧ (s.level l b).doutIdx = s.doutIdx ∧ (s.level l b).preempt = s.preempt ∧
    (s.level l b).feed = s.feed ∧ (s.level l b).trace = s.trace ∧ (s.level l b).wave = s.wave ∧
    (s.level l b).draws = s.draws := by
  repeat' constructor

@[simp] theorem State.level_lines (l : Nat) (b : Bool) (s : State) :
    (s.level l b).lines = s.lines.set l { s.line l with out := b } := rfl

@[simp] theorem State.pinMode_frame (l : Nat) (s : State) :
    (s.pinMode l).cfg = s.cfg ∧ (s.pinMode l).bright = s.bright ∧ (s.pinMode l).remapPresent = s.remapPresent ∧
    (s.pinMode l).remapLen = s.remapLen ∧ (s.pinMode l).rmp = s.rmp ∧ (s.pinMode l).txc = s.txc ∧
    (s.pinMode l).txcLen = s.txcLen ∧ (s.pinMode l).cmd = s.cmd ∧ (s.pinMode l).argbuf = s.argbuf ∧
    (s.pinMode l).rsp = s.rsp ∧ (s.pinMode l).resbuf = s.resbuf ∧ (s.pinMode l).lineSel = s.lineSel ∧
    (s.pinMode l).byteIdx = s.byteIdx ∧ (s.pinMode l).bitIdx = s.bitIdx ∧ (s.pinMode l).shreg = s.shreg ∧
    (s.pinMode l).unitCnt = s.unitCnt ∧ (s.pinMode l).presc = s.presc ∧ (s.pinMode l).settleCnt = s.settleCnt ∧
    (s.pinMode l).st = s.st ∧ (s.pinMode l).savedPreempt = s.savedPreempt ∧ (s.pinMode l).lockReq = s.lockReq ∧
    (s.pinMode l).rspSent = s.rspSent ∧ (s.pinMode l).doutIdx = s.doutIdx ∧ (s.pinMode l).preempt = s.preempt ∧
    (s.pinMode l).feed = s.feed ∧ (s.pinMode l).wave = s.wave ∧ (s.pinMode l).draws = s.draws := by
  repeat' constructor

@[simp] theorem State.pinMode_lines (l : Nat) (s : State) :
    (s.pinMode l).lines = s.lines.set l { s.line l with dir := true, pull := true } := rfl

@[simp] theorem State.pinMode_trace (l : Nat) (s : State) :
    (s.pinMode l).trace = s.trace ++ [.pinMode l] := rfl

@[simp] theorem State.pinWrite_frame (l : Nat) (b : Bool) (s : State) :
    (s.pinWrite l b).cfg = s.cfg ∧ (s.pinWrite l b).bright = s.bright ∧
    (s.pinWrite l b).remapPresent = s.remapPresent ∧ (s.pinWrite l b).remapLen = s.remapLen ∧
    (s.pinWrite l b).rmp = s.rmp ∧ (s.pinWrite l b).txc = s.txc ∧ (s.pinWrite l b).txcLen = s.txcLen ∧
    (s.pinWrite l b).cmd = s.cmd ∧ (s.pinWrite l b).argbuf = s.argbuf ∧ (s.pinWrite l b).rsp = s.rsp ∧
    (s.pinWrite l b).resbuf = s.resbuf ∧ (s.pinWrite l b).lineSel = s.lineSel ∧
    (s.pinWrite l b).byteIdx = s.byteIdx ∧ (s.pinWrite l b).bitIdx = s.bitIdx ∧ (s.pinWrite l b).shreg = s.shreg ∧
    (s.pinWrite l b).unitCnt = s.unitCnt ∧ (s.pinWrite l b).presc = s.presc ∧
    (s.pinWrite l b).settleCnt = s.settleCnt ∧ (s.pinWrite l b).st = s.st ∧
    (s.pinWrite l b).savedPreempt = s.savedPreempt ∧ (s.pinWrite l b).lockReq = s.lockReq ∧
    (s.pinWrite l b).rspSent = s.rspSent ∧ (s.pinWrite l b).doutIdx = s.doutIdx ∧
    (s.pinWrite l b).preempt = s.preempt ∧ (s.pinWrite l b).feed = s.feed ∧ (s.pinWrite l b).wave = s.wave ∧
    (s.pinWrite l b).draws = s.draws := by
  repeat' constructor

@[simp] theorem State.pinWrite_lines (l : Nat) (b : Bool) (s : State) :
    (s.pinWrite l b).lines = s.lines.set l { s.line l with out := b } := rfl

@[simp] theorem State.pinWrite_trace (l : Nat) (b : Bool) (s : State) :
    (s.pinWrite l b).trace = s.trace ++ [.pinWrite l b] := rfl

@[simp] theorem State.delayUnits_frame (n : Nat) (s : State) :
    (s.delayUnits n).cfg = s.cfg ∧ (s.delayUnits n).bright = s.bright ∧
    (s.delayUnits n).remapPresent = s.remapPresent ∧ (s.delayUnits n).remapLen = s.remapLen ∧
    (s.delayUnits n).rmp = s.rmp ∧ (s.delayUnits n).txc = s.txc ∧ (s.delayUnits n).txcLen = s.txcLen ∧
    (s.delayUnits n).cmd = s.cmd ∧ (s.delayUnits n).argbuf = s.argbuf ∧ (s.delayUnits n).rsp = s.rsp ∧
    (s.delayUnits n).resbuf = s.resbuf ∧ (s.delayUnits n).lineSel = s.lineSel ∧
    (s.delayUnits n).byteIdx = s.byteIdx ∧ (s.delayUnits n).bitIdx = s.bitIdx ∧ (s.delayUnits n).shreg = s.shreg ∧
    (s.delayUnits n).settleCnt = s.settleCnt ∧ (s.delayUnits n).st = s.st ∧
    (s.delayUnits n).savedPreempt = s.savedPreempt ∧ (s.delayUnits n).lockReq = s.lockReq ∧
    (s.delayUnits n).rspSent = s.rspSent ∧ (s.delayUnits n).doutIdx = s.doutIdx ∧ (s.delayUnits n).lines = s.lines ∧
    (s.delayUnits n).preempt = s.preempt ∧ (s.delayUnits n).feed = s.feed ∧ (s.delayUnits n).trace = s.trace ∧
    (s.delayUnits n).draws = s.draws := by
  unfold State.delayUnits; split <;> (repeat' constructor)

@[simp] theorem State.delayUnits_wave (n : Nat) (s : State) :
    (s.delayUnits n).wave = s.wave ++ List.replicate n s.levelNow := by
  unfold State.delayUnits; split <;> simp_all

@[simp] theorem State.startSettle_frame (s : State) :
    (s.startSettle).cfg = s.cfg ∧ (s.startSettle).bright = s.bright ∧ (s.startSettle).remapPresent = s.remapPresent ∧
    (s.startSettle).remapLen = s.remapLen ∧ (s.startSettle).rmp = s.rmp ∧ (s.startSettle).txc = s.txc ∧
    (s.startSettle).txcLen = s.txcLen ∧ (s.startSettle).cmd = s.cmd ∧ (s.startSettle).argbuf = s.argbuf ∧
    (s.startSettle).rsp = s.rsp ∧ (s.startSettle).resbuf = s.resbuf ∧ (s.startSettle).lineSel = s.lineSel ∧
    (s.startSettle).byteIdx = s.byteIdx ∧ (s.startSettle).bitIdx = s.bitIdx ∧ (s.startSettle).shreg = s.shreg ∧
    (s.startSettle).unitCnt = s.unitCnt ∧ (s.startSettle).presc = s.presc ∧ (s.startSettle).st = s.st ∧
    (s.startSettle).savedPreempt = s.savedPreempt ∧ (s.startSettle).lockReq = s.lockReq ∧
    (s.startSettle).rspSent = s.rspSent ∧ (s.startSettle).doutIdx = s.doutIdx ∧ (s.startSettle).lines = s.lines ∧
    (s.startSettle).preempt = s.preempt ∧ (s.startSettle).feed = s.feed ∧ (s.startSettle).trace = s.trace ∧
    (s.startSettle).wave = s.wave := by
  repeat' constructor

@[simp] theorem State.startSettle_draws (s : State) :
    s.startSettle.draws = s.draws + 1 := rfl

@[simp] theorem State.startSettle_settleCnt (s : State) :
    s.startSettle.settleCnt = s.cfg.tSettle + Config.settleExtra s.draws := rfl

@[simp] theorem State.endSettle_frame (s : State) :
    (s.endSettle).cfg = s.cfg ∧ (s.endSettle).bright = s.bright ∧ (s.endSettle).remapPresent = s.remapPresent ∧
    (s.endSettle).remapLen = s.remapLen ∧ (s.endSettle).rmp = s.rmp ∧ (s.endSettle).txc = s.txc ∧
    (s.endSettle).txcLen = s.txcLen ∧ (s.endSettle).cmd = s.cmd ∧ (s.endSettle).argbuf = s.argbuf ∧
    (s.endSettle).rsp = s.rsp ∧ (s.endSettle).resbuf = s.resbuf ∧ (s.endSettle).lineSel = s.lineSel ∧
    (s.endSettle).byteIdx = s.byteIdx ∧ (s.endSettle).bitIdx = s.bitIdx ∧ (s.endSettle).shreg = s.shreg ∧
    (s.endSettle).unitCnt = s.unitCnt ∧ (s.endSettle).presc = s.presc ∧ (s.endSettle).st = s.st ∧
    (s.endSettle).savedPreempt = s.savedPreempt ∧ (s.endSettle).lockReq = s.lockReq ∧
    (s.endSettle).rspSent = s.rspSent ∧ (s.endSettle).doutIdx = s.doutIdx ∧ (s.endSettle).lines = s.lines ∧
    (s.endSettle).preempt = s.preempt ∧ (s.endSettle).feed = s.feed ∧ (s.endSettle).wave = s.wave ∧
    (s.endSettle).draws = s.draws := by
  repeat' constructor

@[simp] theorem State.endSettle_settleCnt (s : State) :
    s.endSettle.settleCnt = 0 := rfl

@[simp] theorem State.endSettle_trace (s : State) :
    s.endSettle.trace = s.trace ++ [.settle s.cfg.tSettle] := rfl

@[simp] theorem State.asked_frame (s : State) :
    (s.asked).cfg = s.cfg ∧ (s.asked).bright = s.bright ∧ (s.asked).remapPresent = s.remapPresent ∧
    (s.asked).remapLen = s.remapLen ∧ (s.asked).rmp = s.rmp ∧ (s.asked).txc = s.txc ∧ (s.asked).txcLen = s.txcLen ∧
    (s.asked).cmd = s.cmd ∧ (s.asked).argbuf = s.argbuf ∧ (s.asked).rsp = s.rsp ∧ (s.asked).resbuf = s.resbuf ∧
    (s.asked).lineSel = s.lineSel ∧ (s.asked).byteIdx = s.byteIdx ∧ (s.asked).bitIdx = s.bitIdx ∧
    (s.asked).shreg = s.shreg ∧ (s.asked).unitCnt = s.unitCnt ∧ (s.asked).presc = s.presc ∧
    (s.asked).settleCnt = s.settleCnt ∧ (s.asked).st = s.st ∧ (s.asked).savedPreempt = s.savedPreempt ∧
    (s.asked).lockReq = s.lockReq ∧ (s.asked).rspSent = s.rspSent ∧ (s.asked).doutIdx = s.doutIdx ∧
    (s.asked).lines = s.lines ∧ (s.asked).preempt = s.preempt ∧ (s.asked).feed = s.feed ∧ (s.asked).trace = s.trace ∧
    (s.asked).wave = s.wave := by
  repeat' constructor

@[simp] theorem State.asked_draws (s : State) :
    s.asked.draws = s.draws + 1 := rfl

@[simp] theorem State.lock_frame (s : State) :
    (s.lock).cfg = s.cfg ∧ (s.lock).bright = s.bright ∧ (s.lock).remapPresent = s.remapPresent ∧
    (s.lock).remapLen = s.remapLen ∧ (s.lock).rmp = s.rmp ∧ (s.lock).txc = s.txc ∧ (s.lock).txcLen = s.txcLen ∧
    (s.lock).cmd = s.cmd ∧ (s.lock).argbuf = s.argbuf ∧ (s.lock).rsp = s.rsp ∧ (s.lock).resbuf = s.resbuf ∧
    (s.lock).lineSel = s.lineSel ∧ (s.lock).byteIdx = s.byteIdx ∧ (s.lock).bitIdx = s.bitIdx ∧
    (s.lock).shreg = s.shreg ∧ (s.lock).unitCnt = s.unitCnt ∧ (s.lock).presc = s.presc ∧
    (s.lock).settleCnt = s.settleCnt ∧ (s.lock).st = s.st ∧ (s.lock).rspSent = s.rspSent ∧
    (s.lock).doutIdx = s.doutIdx ∧ (s.lock).lines = s.lines ∧ (s.lock).feed = s.feed ∧ (s.lock).wave = s.wave ∧
    (s.lock).draws = s.draws := by
  repeat' constructor

@[simp] theorem State.lock_savedPreempt (s : State) :
    s.lock.savedPreempt = s.preempt := rfl

@[simp] theorem State.lock_preempt (s : State) :
    s.lock.preempt = false := rfl

@[simp] theorem State.lock_lockReq (s : State) :
    s.lock.lockReq = true := rfl

@[simp] theorem State.lock_trace (s : State) :
    s.lock.trace = s.trace ++ [.lock] := rfl

@[simp] theorem State.unlock_frame (s : State) :
    (s.unlock).cfg = s.cfg ∧ (s.unlock).bright = s.bright ∧ (s.unlock).remapPresent = s.remapPresent ∧
    (s.unlock).remapLen = s.remapLen ∧ (s.unlock).rmp = s.rmp ∧ (s.unlock).txc = s.txc ∧
    (s.unlock).txcLen = s.txcLen ∧ (s.unlock).cmd = s.cmd ∧ (s.unlock).argbuf = s.argbuf ∧ (s.unlock).rsp = s.rsp ∧
    (s.unlock).resbuf = s.resbuf ∧ (s.unlock).lineSel = s.lineSel ∧ (s.unlock).byteIdx = s.byteIdx ∧
    (s.unlock).bitIdx = s.bitIdx ∧ (s.unlock).shreg = s.shreg ∧ (s.unlock).unitCnt = s.unitCnt ∧
    (s.unlock).presc = s.presc ∧ (s.unlock).settleCnt = s.settleCnt ∧ (s.unlock).st = s.st ∧
    (s.unlock).savedPreempt = s.savedPreempt ∧ (s.unlock).rspSent = s.rspSent ∧ (s.unlock).doutIdx = s.doutIdx ∧
    (s.unlock).lines = s.lines ∧ (s.unlock).feed = s.feed ∧ (s.unlock).wave = s.wave ∧ (s.unlock).draws = s.draws := by
  repeat' constructor

@[simp] theorem State.unlock_preempt (s : State) :
    s.unlock.preempt = s.savedPreempt := rfl

@[simp] theorem State.unlock_lockReq (s : State) :
    s.unlock.lockReq = false := rfl

@[simp] theorem State.unlock_trace (s : State) :
    s.unlock.trace = s.trace ++ [.unlock] := rfl

@[simp] theorem respond_frame (c : Status) (f : Bool) (v : BitVec 32) (bs : List Byte) (s : State) :
    (respond c f v bs s).cfg = s.cfg ∧ (respond c f v bs s).bright = s.bright ∧
    (respond c f v bs s).remapPresent = s.remapPresent ∧ (respond c f v bs s).remapLen = s.remapLen ∧
    (respond c f v bs s).rmp = s.rmp ∧ (respond c f v bs s).txc = s.txc ∧ (respond c f v bs s).txcLen = s.txcLen ∧
    (respond c f v bs s).cmd = s.cmd ∧ (respond c f v bs s).argbuf = s.argbuf ∧
    (respond c f v bs s).lineSel = s.lineSel ∧ (respond c f v bs s).byteIdx = s.byteIdx ∧
    (respond c f v bs s).bitIdx = s.bitIdx ∧ (respond c f v bs s).shreg = s.shreg ∧
    (respond c f v bs s).unitCnt = s.unitCnt ∧ (respond c f v bs s).presc = s.presc ∧
    (respond c f v bs s).settleCnt = s.settleCnt ∧ (respond c f v bs s).savedPreempt = s.savedPreempt ∧
    (respond c f v bs s).lockReq = s.lockReq ∧ (respond c f v bs s).lines = s.lines ∧
    (respond c f v bs s).preempt = s.preempt ∧ (respond c f v bs s).feed = s.feed ∧
    (respond c f v bs s).wave = s.wave ∧ (respond c f v bs s).draws = s.draws := by
  repeat' constructor

@[simp] theorem respond_rsp (c : Status) (f : Bool) (v : BitVec 32) (bs : List Byte) (s : State) :
    (respond c f v bs s).rsp = rspWord c f v := rfl

@[simp] theorem respond_resbuf (c : Status) (f : Bool) (v : BitVec 32) (bs : List Byte) (s : State) :
    (respond c f v bs s).resbuf = Memory.ofBytes bs := rfl

@[simp] theorem respond_rspSent (c : Status) (f : Bool) (v : BitVec 32) (bs : List Byte) (s : State) :
    (respond c f v bs s).rspSent = false := rfl

@[simp] theorem respond_doutIdx (c : Status) (f : Bool) (v : BitVec 32) (bs : List Byte) (s : State) :
    (respond c f v bs s).doutIdx = 0 := rfl

@[simp] theorem respond_st (c : Status) (f : Bool) (v : BitVec 32) (bs : List Byte) (s : State) :
    (respond c f v bs s).st = .resp := rfl

@[simp] theorem respond_trace (c : Status) (f : Bool) (v : BitVec 32) (bs : List Byte) (s : State) :
    (respond c f v bs s).trace = s.trace ++ [.resp (rspWord c f v) bs] := rfl

@[simp] theorem finish_frame (s : State) :
    (finish s).cfg = s.cfg ∧ (finish s).bright = s.bright ∧ (finish s).remapPresent = s.remapPresent ∧
    (finish s).remapLen = s.remapLen ∧ (finish s).rmp = s.rmp ∧ (finish s).cmd = s.cmd ∧
    (finish s).argbuf = s.argbuf ∧ (finish s).rsp = s.rsp ∧ (finish s).lineSel = s.lineSel ∧
    (finish s).byteIdx = s.byteIdx ∧ (finish s).bitIdx = s.bitIdx ∧ (finish s).shreg = s.shreg ∧
    (finish s).unitCnt = s.unitCnt ∧ (finish s).presc = s.presc ∧ (finish s).settleCnt = s.settleCnt ∧
    (finish s).savedPreempt = s.savedPreempt ∧ (finish s).lockReq = s.lockReq ∧ (finish s).lines = s.lines ∧
    (finish s).preempt = s.preempt ∧ (finish s).feed = s.feed ∧ (finish s).trace = s.trace ∧
    (finish s).wave = s.wave ∧ (finish s).draws = s.draws := by
  repeat' constructor

@[simp] theorem finish_txc (s : State) :
    (finish s).txc = [] := rfl

@[simp] theorem finish_txcLen (s : State) :
    (finish s).txcLen = 0#32 := rfl

@[simp] theorem finish_resbuf (s : State) :
    (finish s).resbuf = [] := rfl

@[simp] theorem finish_rspSent (s : State) :
    (finish s).rspSent = false := rfl

@[simp] theorem finish_doutIdx (s : State) :
    (finish s).doutIdx = 0 := rfl

@[simp] theorem finish_st (s : State) :
    (finish s).st = .idle := rfl

@[simp] theorem State.storeTable_frame (n : Len) (bs : List Byte) (s : State) :
    (s.storeTable n bs).cfg = s.cfg ∧ (s.storeTable n bs).bright = s.bright ∧ (s.storeTable n bs).txc = s.txc ∧
    (s.storeTable n bs).txcLen = s.txcLen ∧ (s.storeTable n bs).cmd = s.cmd ∧ (s.storeTable n bs).argbuf = s.argbuf ∧
    (s.storeTable n bs).rsp = s.rsp ∧ (s.storeTable n bs).resbuf = s.resbuf ∧
    (s.storeTable n bs).lineSel = s.lineSel ∧ (s.storeTable n bs).byteIdx = s.byteIdx ∧
    (s.storeTable n bs).bitIdx = s.bitIdx ∧ (s.storeTable n bs).shreg = s.shreg ∧
    (s.storeTable n bs).unitCnt = s.unitCnt ∧ (s.storeTable n bs).presc = s.presc ∧
    (s.storeTable n bs).settleCnt = s.settleCnt ∧ (s.storeTable n bs).st = s.st ∧
    (s.storeTable n bs).savedPreempt = s.savedPreempt ∧ (s.storeTable n bs).lockReq = s.lockReq ∧
    (s.storeTable n bs).rspSent = s.rspSent ∧ (s.storeTable n bs).doutIdx = s.doutIdx ∧
    (s.storeTable n bs).lines = s.lines ∧ (s.storeTable n bs).preempt = s.preempt ∧
    (s.storeTable n bs).feed = s.feed ∧ (s.storeTable n bs).trace = s.trace ∧ (s.storeTable n bs).wave = s.wave ∧
    (s.storeTable n bs).draws = s.draws := by
  repeat' constructor

@[simp] theorem State.storeTable_rmp (n : Len) (bs : List Byte) (s : State) :
    (s.storeTable n bs).rmp = Memory.ofBytes bs := rfl

@[simp] theorem State.storeTable_remapLen (n : Len) (bs : List Byte) (s : State) :
    (s.storeTable n bs).remapLen = n := rfl

@[simp] theorem State.storeTable_remapPresent (n : Len) (bs : List Byte) (s : State) :
    (s.storeTable n bs).remapPresent = true := rfl

@[simp] theorem State.dropTable_frame (s : State) :
    (s.dropTable).cfg = s.cfg ∧ (s.dropTable).bright = s.bright ∧ (s.dropTable).txc = s.txc ∧
    (s.dropTable).txcLen = s.txcLen ∧ (s.dropTable).cmd = s.cmd ∧ (s.dropTable).argbuf = s.argbuf ∧
    (s.dropTable).rsp = s.rsp ∧ (s.dropTable).resbuf = s.resbuf ∧ (s.dropTable).lineSel = s.lineSel ∧
    (s.dropTable).byteIdx = s.byteIdx ∧ (s.dropTable).bitIdx = s.bitIdx ∧ (s.dropTable).shreg = s.shreg ∧
    (s.dropTable).unitCnt = s.unitCnt ∧ (s.dropTable).presc = s.presc ∧ (s.dropTable).settleCnt = s.settleCnt ∧
    (s.dropTable).st = s.st ∧ (s.dropTable).savedPreempt = s.savedPreempt ∧ (s.dropTable).lockReq = s.lockReq ∧
    (s.dropTable).rspSent = s.rspSent ∧ (s.dropTable).doutIdx = s.doutIdx ∧ (s.dropTable).lines = s.lines ∧
    (s.dropTable).preempt = s.preempt ∧ (s.dropTable).feed = s.feed ∧ (s.dropTable).trace = s.trace ∧
    (s.dropTable).wave = s.wave ∧ (s.dropTable).draws = s.draws := by
  repeat' constructor

@[simp] theorem State.dropTable_rmp (s : State) :
    s.dropTable.rmp = [] := rfl

@[simp] theorem State.dropTable_remapLen (s : State) :
    s.dropTable.remapLen = 0#32 := rfl

@[simp] theorem State.dropTable_remapPresent (s : State) :
    s.dropTable.remapPresent = false := rfl

@[simp] theorem State.configure_frame (l : Nat) (s : State) :
    (s.configure l).cfg = s.cfg ∧ (s.configure l).bright = s.bright ∧ (s.configure l).remapPresent = s.remapPresent ∧
    (s.configure l).remapLen = s.remapLen ∧ (s.configure l).rmp = s.rmp ∧ (s.configure l).txc = s.txc ∧
    (s.configure l).txcLen = s.txcLen ∧ (s.configure l).cmd = s.cmd ∧ (s.configure l).argbuf = s.argbuf ∧
    (s.configure l).rsp = s.rsp ∧ (s.configure l).resbuf = s.resbuf ∧ (s.configure l).byteIdx = s.byteIdx ∧
    (s.configure l).bitIdx = s.bitIdx ∧ (s.configure l).shreg = s.shreg ∧ (s.configure l).unitCnt = s.unitCnt ∧
    (s.configure l).presc = s.presc ∧ (s.configure l).st = s.st ∧ (s.configure l).savedPreempt = s.savedPreempt ∧
    (s.configure l).lockReq = s.lockReq ∧ (s.configure l).rspSent = s.rspSent ∧ (s.configure l).doutIdx = s.doutIdx ∧
    (s.configure l).preempt = s.preempt ∧ (s.configure l).feed = s.feed ∧ (s.configure l).wave = s.wave := by
  simp [State.configure]

@[simp] theorem State.configure_lineSel (l : Nat) (s : State) :
    (s.configure l).lineSel = l := by
  simp [State.configure]

@[simp] theorem State.configure_draws (l : Nat) (s : State) :
    (s.configure l).draws = s.draws + 1 := by
  simp [State.configure]

@[simp] theorem State.configure_settleCnt (l : Nat) (s : State) :
    (s.configure l).settleCnt = 0 := by
  simp [State.configure]

@[simp] theorem State.configure_trace (l : Nat) (s : State) :
    (s.configure l).trace = s.trace ++ [.pinMode l, .pinWrite l false, .settle s.cfg.tSettle] := by
  simp [State.configure]

@[simp] theorem State.storeCopy_frame (n : Len) (bs : List Byte) (s : State) :
    (s.storeCopy n bs).cfg = s.cfg ∧ (s.storeCopy n bs).bright = s.bright ∧
    (s.storeCopy n bs).remapPresent = s.remapPresent ∧ (s.storeCopy n bs).remapLen = s.remapLen ∧
    (s.storeCopy n bs).rmp = s.rmp ∧ (s.storeCopy n bs).cmd = s.cmd ∧ (s.storeCopy n bs).argbuf = s.argbuf ∧
    (s.storeCopy n bs).rsp = s.rsp ∧ (s.storeCopy n bs).resbuf = s.resbuf ∧ (s.storeCopy n bs).lineSel = s.lineSel ∧
    (s.storeCopy n bs).bitIdx = s.bitIdx ∧ (s.storeCopy n bs).shreg = s.shreg ∧
    (s.storeCopy n bs).unitCnt = s.unitCnt ∧ (s.storeCopy n bs).presc = s.presc ∧
    (s.storeCopy n bs).settleCnt = s.settleCnt ∧ (s.storeCopy n bs).st = s.st ∧
    (s.storeCopy n bs).savedPreempt = s.savedPreempt ∧ (s.storeCopy n bs).lockReq = s.lockReq ∧
    (s.storeCopy n bs).rspSent = s.rspSent ∧ (s.storeCopy n bs).doutIdx = s.doutIdx ∧
    (s.storeCopy n bs).lines = s.lines ∧ (s.storeCopy n bs).preempt = s.preempt ∧ (s.storeCopy n bs).feed = s.feed ∧
    (s.storeCopy n bs).trace = s.trace ∧ (s.storeCopy n bs).wave = s.wave := by
  repeat' constructor

@[simp] theorem State.storeCopy_txc (n : Len) (bs : List Byte) (s : State) :
    (s.storeCopy n bs).txc = Memory.ofBytes (scaleAll s.bright s.draws bs).1 := rfl

@[simp] theorem State.storeCopy_txcLen (n : Len) (bs : List Byte) (s : State) :
    (s.storeCopy n bs).txcLen = n := rfl

@[simp] theorem State.storeCopy_draws (n : Len) (bs : List Byte) (s : State) :
    (s.storeCopy n bs).draws = (scaleAll s.bright s.draws bs).2 := rfl

@[simp] theorem State.dropCopy_frame (s : State) :
    (s.dropCopy).cfg = s.cfg ∧ (s.dropCopy).bright = s.bright ∧ (s.dropCopy).remapPresent = s.remapPresent ∧
    (s.dropCopy).remapLen = s.remapLen ∧ (s.dropCopy).rmp = s.rmp ∧ (s.dropCopy).cmd = s.cmd ∧
    (s.dropCopy).argbuf = s.argbuf ∧ (s.dropCopy).rsp = s.rsp ∧ (s.dropCopy).resbuf = s.resbuf ∧
    (s.dropCopy).lineSel = s.lineSel ∧ (s.dropCopy).byteIdx = s.byteIdx ∧ (s.dropCopy).bitIdx = s.bitIdx ∧
    (s.dropCopy).shreg = s.shreg ∧ (s.dropCopy).unitCnt = s.unitCnt ∧ (s.dropCopy).presc = s.presc ∧
    (s.dropCopy).settleCnt = s.settleCnt ∧ (s.dropCopy).st = s.st ∧ (s.dropCopy).savedPreempt = s.savedPreempt ∧
    (s.dropCopy).lockReq = s.lockReq ∧ (s.dropCopy).rspSent = s.rspSent ∧ (s.dropCopy).doutIdx = s.doutIdx ∧
    (s.dropCopy).lines = s.lines ∧ (s.dropCopy).preempt = s.preempt ∧ (s.dropCopy).feed = s.feed ∧
    (s.dropCopy).trace = s.trace ∧ (s.dropCopy).wave = s.wave ∧ (s.dropCopy).draws = s.draws := by
  repeat' constructor

@[simp] theorem State.dropCopy_txc (s : State) :
    s.dropCopy.txc = [] := rfl

@[simp] theorem State.dropCopy_txcLen (s : State) :
    s.dropCopy.txcLen = 0#32 := rfl

@[simp] theorem State.latch_frame (w : CmdWord) (s : State) :
    (s.latch w).cfg = s.cfg ∧ (s.latch w).bright = s.bright ∧ (s.latch w).remapPresent = s.remapPresent ∧
    (s.latch w).remapLen = s.remapLen ∧ (s.latch w).rmp = s.rmp ∧ (s.latch w).txc = s.txc ∧
    (s.latch w).txcLen = s.txcLen ∧ (s.latch w).rsp = s.rsp ∧ (s.latch w).resbuf = s.resbuf ∧
    (s.latch w).lineSel = s.lineSel ∧ (s.latch w).byteIdx = s.byteIdx ∧ (s.latch w).bitIdx = s.bitIdx ∧
    (s.latch w).shreg = s.shreg ∧ (s.latch w).unitCnt = s.unitCnt ∧ (s.latch w).presc = s.presc ∧
    (s.latch w).settleCnt = s.settleCnt ∧ (s.latch w).st = s.st ∧ (s.latch w).savedPreempt = s.savedPreempt ∧
    (s.latch w).lockReq = s.lockReq ∧ (s.latch w).rspSent = s.rspSent ∧ (s.latch w).doutIdx = s.doutIdx ∧
    (s.latch w).lines = s.lines ∧ (s.latch w).preempt = s.preempt ∧ (s.latch w).feed = s.feed ∧
    (s.latch w).trace = s.trace ∧ (s.latch w).wave = s.wave ∧ (s.latch w).draws = s.draws := by
  repeat' constructor

@[simp] theorem State.latch_cmd (w : CmdWord) (s : State) :
    (s.latch w).cmd = w := rfl

@[simp] theorem State.issue_frame (w : CmdWord) (bs : List Byte) (s : State) :
    (s.issue w bs).cfg = s.cfg ∧ (s.issue w bs).bright = s.bright ∧ (s.issue w bs).remapPresent = s.remapPresent ∧
    (s.issue w bs).remapLen = s.remapLen ∧ (s.issue w bs).rmp = s.rmp ∧ (s.issue w bs).txc = s.txc ∧
    (s.issue w bs).txcLen = s.txcLen ∧ (s.issue w bs).rsp = s.rsp ∧ (s.issue w bs).resbuf = s.resbuf ∧
    (s.issue w bs).lineSel = s.lineSel ∧ (s.issue w bs).byteIdx = s.byteIdx ∧ (s.issue w bs).bitIdx = s.bitIdx ∧
    (s.issue w bs).shreg = s.shreg ∧ (s.issue w bs).unitCnt = s.unitCnt ∧ (s.issue w bs).presc = s.presc ∧
    (s.issue w bs).settleCnt = s.settleCnt ∧ (s.issue w bs).st = s.st ∧
    (s.issue w bs).savedPreempt = s.savedPreempt ∧ (s.issue w bs).lockReq = s.lockReq ∧
    (s.issue w bs).rspSent = s.rspSent ∧ (s.issue w bs).doutIdx = s.doutIdx ∧ (s.issue w bs).lines = s.lines ∧
    (s.issue w bs).preempt = s.preempt ∧ (s.issue w bs).feed = s.feed ∧ (s.issue w bs).trace = s.trace ∧
    (s.issue w bs).wave = s.wave ∧ (s.issue w bs).draws = s.draws := by
  repeat' constructor

@[simp] theorem State.issue_cmd (w : CmdWord) (bs : List Byte) (s : State) :
    (s.issue w bs).cmd = w := rfl

@[simp] theorem State.takeByte_frame (b : Byte) (s : State) :
    (s.takeByte b).cfg = s.cfg ∧ (s.takeByte b).bright = s.bright ∧ (s.takeByte b).remapPresent = s.remapPresent ∧
    (s.takeByte b).remapLen = s.remapLen ∧ (s.takeByte b).rmp = s.rmp ∧ (s.takeByte b).txc = s.txc ∧
    (s.takeByte b).txcLen = s.txcLen ∧ (s.takeByte b).cmd = s.cmd ∧ (s.takeByte b).rsp = s.rsp ∧
    (s.takeByte b).resbuf = s.resbuf ∧ (s.takeByte b).lineSel = s.lineSel ∧ (s.takeByte b).byteIdx = s.byteIdx ∧
    (s.takeByte b).bitIdx = s.bitIdx ∧ (s.takeByte b).shreg = s.shreg ∧ (s.takeByte b).unitCnt = s.unitCnt ∧
    (s.takeByte b).presc = s.presc ∧ (s.takeByte b).settleCnt = s.settleCnt ∧ (s.takeByte b).st = s.st ∧
    (s.takeByte b).savedPreempt = s.savedPreempt ∧ (s.takeByte b).lockReq = s.lockReq ∧
    (s.takeByte b).rspSent = s.rspSent ∧ (s.takeByte b).doutIdx = s.doutIdx ∧ (s.takeByte b).lines = s.lines ∧
    (s.takeByte b).preempt = s.preempt ∧ (s.takeByte b).feed = s.feed ∧ (s.takeByte b).trace = s.trace ∧
    (s.takeByte b).wave = s.wave ∧ (s.takeByte b).draws = s.draws := by
  repeat' constructor

@[simp] theorem State.takeByte_argbuf (b : Byte) (s : State) :
    (s.takeByte b).argbuf = s.argbuf.write s.argbuf.length b := rfl

@[simp] theorem State.hostPreempt_frame (b : Bool) (s : State) :
    (s.hostPreempt b).cfg = s.cfg ∧ (s.hostPreempt b).bright = s.bright ∧
    (s.hostPreempt b).remapPresent = s.remapPresent ∧ (s.hostPreempt b).remapLen = s.remapLen ∧
    (s.hostPreempt b).rmp = s.rmp ∧ (s.hostPreempt b).txc = s.txc ∧ (s.hostPreempt b).txcLen = s.txcLen ∧
    (s.hostPreempt b).cmd = s.cmd ∧ (s.hostPreempt b).argbuf = s.argbuf ∧ (s.hostPreempt b).rsp = s.rsp ∧
    (s.hostPreempt b).resbuf = s.resbuf ∧ (s.hostPreempt b).lineSel = s.lineSel ∧
    (s.hostPreempt b).byteIdx = s.byteIdx ∧ (s.hostPreempt b).bitIdx = s.bitIdx ∧ (s.hostPreempt b).shreg = s.shreg ∧
    (s.hostPreempt b).unitCnt = s.unitCnt ∧ (s.hostPreempt b).presc = s.presc ∧
    (s.hostPreempt b).settleCnt = s.settleCnt ∧ (s.hostPreempt b).st = s.st ∧
    (s.hostPreempt b).savedPreempt = s.savedPreempt ∧ (s.hostPreempt b).lockReq = s.lockReq ∧
    (s.hostPreempt b).rspSent = s.rspSent ∧ (s.hostPreempt b).doutIdx = s.doutIdx ∧
    (s.hostPreempt b).lines = s.lines ∧ (s.hostPreempt b).feed = s.feed ∧ (s.hostPreempt b).trace = s.trace ∧
    (s.hostPreempt b).wave = s.wave ∧ (s.hostPreempt b).draws = s.draws := by
  unfold State.hostPreempt; split <;> (repeat' constructor)

@[simp] theorem State.hostPreempt_preempt (b : Bool) (s : State) :
    (s.hostPreempt b).preempt = if s.lockReq then s.preempt else b := by
  unfold State.hostPreempt; split <;> rfl

@[simp] theorem State.sampled_frame (s : State) :
    (s.sampled).cfg = s.cfg ∧ (s.sampled).bright = s.bright ∧ (s.sampled).remapPresent = s.remapPresent ∧
    (s.sampled).remapLen = s.remapLen ∧ (s.sampled).rmp = s.rmp ∧ (s.sampled).txc = s.txc ∧
    (s.sampled).txcLen = s.txcLen ∧ (s.sampled).cmd = s.cmd ∧ (s.sampled).argbuf = s.argbuf ∧
    (s.sampled).rsp = s.rsp ∧ (s.sampled).resbuf = s.resbuf ∧ (s.sampled).lineSel = s.lineSel ∧
    (s.sampled).byteIdx = s.byteIdx ∧ (s.sampled).bitIdx = s.bitIdx ∧ (s.sampled).shreg = s.shreg ∧
    (s.sampled).unitCnt = s.unitCnt ∧ (s.sampled).presc = s.presc ∧ (s.sampled).settleCnt = s.settleCnt ∧
    (s.sampled).st = s.st ∧ (s.sampled).savedPreempt = s.savedPreempt ∧ (s.sampled).lockReq = s.lockReq ∧
    (s.sampled).rspSent = s.rspSent ∧ (s.sampled).doutIdx = s.doutIdx ∧ (s.sampled).lines = s.lines ∧
    (s.sampled).preempt = s.preempt ∧ (s.sampled).feed = s.feed ∧ (s.sampled).trace = s.trace ∧
    (s.sampled).draws = s.draws := by
  repeat' constructor

@[simp] theorem State.sampled_wave (s : State) :
    s.sampled.wave = s.wave ++ [s.levelNow] := rfl

@[simp] theorem startPulse_frame (s : State) :
    (startPulse s).cfg = s.cfg ∧ (startPulse s).bright = s.bright ∧ (startPulse s).remapPresent = s.remapPresent ∧
    (startPulse s).remapLen = s.remapLen ∧ (startPulse s).rmp = s.rmp ∧ (startPulse s).txc = s.txc ∧
    (startPulse s).txcLen = s.txcLen ∧ (startPulse s).cmd = s.cmd ∧ (startPulse s).argbuf = s.argbuf ∧
    (startPulse s).rsp = s.rsp ∧ (startPulse s).resbuf = s.resbuf ∧ (startPulse s).lineSel = s.lineSel ∧
    (startPulse s).byteIdx = s.byteIdx ∧ (startPulse s).bitIdx = s.bitIdx ∧ (startPulse s).shreg = s.shreg ∧
    (startPulse s).settleCnt = s.settleCnt ∧ (startPulse s).savedPreempt = s.savedPreempt ∧
    (startPulse s).lockReq = s.lockReq ∧ (startPulse s).rspSent = s.rspSent ∧ (startPulse s).doutIdx = s.doutIdx ∧
    (startPulse s).preempt = s.preempt ∧ (startPulse s).feed = s.feed ∧ (startPulse s).wave = s.wave ∧
    (startPulse s).draws = s.draws := by
  simp [startPulse]

@[simp] theorem startPulse_trace (s : State) :
    (startPulse s).trace = s.trace ++ [.emit s.lineSel s.bitNow] := by
  simp [startPulse]

@[simp] theorem startPulse_st (s : State) :
    (startPulse s).st = .high := by
  simp [startPulse]

@[simp] theorem startPulse_unitCnt (s : State) :
    (startPulse s).unitCnt = BitVec.ofNat 4 (tH s.bitNow) := by
  simp [startPulse]

@[simp] theorem startPulse_presc (s : State) :
    (startPulse s).presc = 0 := by
  simp [startPulse]

@[simp] theorem startPulse_lines (s : State) :
    (startPulse s).lines = s.lines.set s.lineSel { s.line s.lineSel with out := true } := by
  simp [startPulse, State.line]

@[simp] theorem highUnit_frame (s : State) :
    (highUnit s).cfg = s.cfg ∧ (highUnit s).bright = s.bright ∧ (highUnit s).remapPresent = s.remapPresent ∧
    (highUnit s).remapLen = s.remapLen ∧ (highUnit s).rmp = s.rmp ∧ (highUnit s).txc = s.txc ∧
    (highUnit s).txcLen = s.txcLen ∧ (highUnit s).cmd = s.cmd ∧ (highUnit s).argbuf = s.argbuf ∧
    (highUnit s).rsp = s.rsp ∧ (highUnit s).resbuf = s.resbuf ∧ (highUnit s).lineSel = s.lineSel ∧
    (highUnit s).byteIdx = s.byteIdx ∧ (highUnit s).bitIdx = s.bitIdx ∧ (highUnit s).shreg = s.shreg ∧
    (highUnit s).presc = s.presc ∧ (highUnit s).settleCnt = s.settleCnt ∧
    (highUnit s).savedPreempt = s.savedPreempt ∧ (highUnit s).lockReq = s.lockReq ∧
    (highUnit s).rspSent = s.rspSent ∧ (highUnit s).doutIdx = s.doutIdx ∧ (highUnit s).preempt = s.preempt ∧
    (highUnit s).feed = s.feed ∧ (highUnit s).trace = s.trace ∧ (highUnit s).wave = s.wave ∧
    (highUnit s).draws = s.draws := by
  unfold highUnit; split <;> simp

@[simp] theorem emitSymbol_frame (b : Bool) (s : State) :
    (emitSymbol b s).cfg = s.cfg ∧ (emitSymbol b s).bright = s.bright ∧
    (emitSymbol b s).remapPresent = s.remapPresent ∧ (emitSymbol b s).remapLen = s.remapLen ∧
    (emitSymbol b s).rmp = s.rmp ∧ (emitSymbol b s).txc = s.txc ∧ (emitSymbol b s).txcLen = s.txcLen ∧
    (emitSymbol b s).cmd = s.cmd ∧ (emitSymbol b s).argbuf = s.argbuf ∧ (emitSymbol b s).rsp = s.rsp ∧
    (emitSymbol b s).resbuf = s.resbuf ∧ (emitSymbol b s).lineSel = s.lineSel ∧
    (emitSymbol b s).byteIdx = s.byteIdx ∧ (emitSymbol b s).bitIdx = s.bitIdx ∧ (emitSymbol b s).shreg = s.shreg ∧
    (emitSymbol b s).settleCnt = s.settleCnt ∧ (emitSymbol b s).st = s.st ∧
    (emitSymbol b s).savedPreempt = s.savedPreempt ∧ (emitSymbol b s).lockReq = s.lockReq ∧
    (emitSymbol b s).rspSent = s.rspSent ∧ (emitSymbol b s).doutIdx = s.doutIdx ∧
    (emitSymbol b s).preempt = s.preempt ∧ (emitSymbol b s).feed = s.feed ∧ (emitSymbol b s).draws = s.draws := by
  simp [emitSymbol]

@[simp] theorem emitSymbol_trace (b : Bool) (s : State) :
    (emitSymbol b s).trace = s.trace ++ [.emit s.lineSel b] := by
  simp [emitSymbol]

@[simp] theorem sendBit_frame (j : BitVec 3) (s : State) :
    (sendBit j s).cfg = s.cfg ∧ (sendBit j s).bright = s.bright ∧ (sendBit j s).remapPresent = s.remapPresent ∧
    (sendBit j s).remapLen = s.remapLen ∧ (sendBit j s).rmp = s.rmp ∧ (sendBit j s).txc = s.txc ∧
    (sendBit j s).txcLen = s.txcLen ∧ (sendBit j s).cmd = s.cmd ∧ (sendBit j s).argbuf = s.argbuf ∧
    (sendBit j s).rsp = s.rsp ∧ (sendBit j s).resbuf = s.resbuf ∧ (sendBit j s).lineSel = s.lineSel ∧
    (sendBit j s).byteIdx = s.byteIdx ∧ (sendBit j s).shreg = s.shreg ∧ (sendBit j s).settleCnt = s.settleCnt ∧
    (sendBit j s).st = s.st ∧ (sendBit j s).savedPreempt = s.savedPreempt ∧ (sendBit j s).lockReq = s.lockReq ∧
    (sendBit j s).rspSent = s.rspSent ∧ (sendBit j s).doutIdx = s.doutIdx ∧ (sendBit j s).preempt = s.preempt ∧
    (sendBit j s).feed = s.feed ∧ (sendBit j s).draws = s.draws := by
  simp [sendBit]

@[simp] theorem sendByte_frame (k : Nat) (v : Byte) (s : State) :
    (sendByte k v s).cfg = s.cfg ∧ (sendByte k v s).bright = s.bright ∧
    (sendByte k v s).remapPresent = s.remapPresent ∧ (sendByte k v s).remapLen = s.remapLen ∧
    (sendByte k v s).rmp = s.rmp ∧ (sendByte k v s).txc = s.txc ∧ (sendByte k v s).txcLen = s.txcLen ∧
    (sendByte k v s).cmd = s.cmd ∧ (sendByte k v s).argbuf = s.argbuf ∧ (sendByte k v s).rsp = s.rsp ∧
    (sendByte k v s).resbuf = s.resbuf ∧ (sendByte k v s).lineSel = s.lineSel ∧
    (sendByte k v s).settleCnt = s.settleCnt ∧ (sendByte k v s).st = s.st ∧
    (sendByte k v s).savedPreempt = s.savedPreempt ∧ (sendByte k v s).lockReq = s.lockReq ∧
    (sendByte k v s).rspSent = s.rspSent ∧ (sendByte k v s).doutIdx = s.doutIdx ∧
    (sendByte k v s).preempt = s.preempt ∧ (sendByte k v s).feed = s.feed ∧ (sendByte k v s).draws = s.draws := by
  simp [sendByte]

@[simp] theorem sendBytes_frame (vs : List Byte) (k : Nat) (s : State) :
    (sendBytes vs k s).cfg = s.cfg ∧ (sendBytes vs k s).bright = s.bright ∧
    (sendBytes vs k s).remapPresent = s.remapPresent ∧ (sendBytes vs k s).remapLen = s.remapLen ∧
    (sendBytes vs k s).rmp = s.rmp ∧ (sendBytes vs k s).txc = s.txc ∧ (sendBytes vs k s).txcLen = s.txcLen ∧
    (sendBytes vs k s).cmd = s.cmd ∧ (sendBytes vs k s).argbuf = s.argbuf ∧ (sendBytes vs k s).rsp = s.rsp ∧
    (sendBytes vs k s).resbuf = s.resbuf ∧ (sendBytes vs k s).lineSel = s.lineSel ∧
    (sendBytes vs k s).settleCnt = s.settleCnt ∧ (sendBytes vs k s).st = s.st ∧
    (sendBytes vs k s).savedPreempt = s.savedPreempt ∧ (sendBytes vs k s).lockReq = s.lockReq ∧
    (sendBytes vs k s).rspSent = s.rspSent ∧ (sendBytes vs k s).doutIdx = s.doutIdx ∧
    (sendBytes vs k s).preempt = s.preempt ∧ (sendBytes vs k s).feed = s.feed ∧ (sendBytes vs k s).draws = s.draws := by
  induction vs generalizing k s with
  | nil => simp [sendBytes]
  | cons v vs ih => simp [sendBytes, ih]

/-- An error response is a response with no flag, no value and no payload (60 R150). -/
theorem raise_eq (e : Status) (s : State) : raise e s = respond e false 0#32 [] s := rfl

end Sys2Proof.Machine
end

