-- ==== Sys2Proof/Laws/Symbols.lean ====
section
/-! SUPPORT. What the pin primitives, a symbol, a byte and a buffer of symbols do (spec 40 R80, R82, R83, R88, 41 R100). -/

namespace Sys2Proof.Machine

/-! ### Lines -/

/-- The pin bits after a line has been replaced. -/
theorem State.line_of_lines {s t : State} {l : Nat} {x : Line} (h : t.lines = s.lines.set l x) (k : Nat) :
    t.line k = if k = l ∧ l < s.numLines then x else s.line k := by
  unfold State.line State.numLines
  rw [h, List.getD_eq_getElem?_getD, List.getD_eq_getElem?_getD, List.getElem?_set]
  by_cases hk : l = k
  · subst hk
    by_cases hl : l < s.lines.length
    · simp [hl]
    · simp [hl]
  · rw [if_neg hk, if_neg (fun hc => hk hc.1.symm)]

/-- Writing back the bits a line has changes nothing. -/
theorem State.set_line_self (s : State) (l : Nat) : s.lines.set l (s.line l) = s.lines := by
  unfold State.line
  apply List.ext_getElem? ; intro k
  rw [List.getElem?_set]
  split
  · next h =>
    subst h
    split
    · next h => simp [h]
    · next h => simp [h]
  · rfl

/-- The number of lines after a line has been replaced. -/
theorem State.numLines_of_lines {s t : State} {l : Nat} {x : Line} (h : t.lines = s.lines.set l x) :
    t.numLines = s.numLines := by
  simp [State.numLines, h]

/-! ### One symbol -/

/-- A symbol leaves its line low and no other bit of any line changed. -/
theorem emitSymbol_lines (b : Bool) (s : State) :
    (emitSymbol b s).lines = s.lines.set s.lineSel { s.line s.lineSel with out := false } := by
  have key : ∀ t : State, t.lines = s.lines.set s.lineSel { s.line s.lineSel with out := true } →
      t.lines.set s.lineSel { t.line s.lineSel with out := false } =
        s.lines.set s.lineSel { s.line s.lineSel with out := false } := by
    intro t ht
    rw [State.line_of_lines ht, ht, List.set_set]
    by_cases hl : s.lineSel < s.numLines
    · rw [if_pos ⟨rfl, hl⟩]
    · rw [if_neg (fun h => hl h.2)]
  have h1 : ((((s.event (.emit s.lineSel b)).level s.lineSel true).delayUnits (tH b))).lines =
      s.lines.set s.lineSel { s.line s.lineSel with out := true } := by
    simp only [State.delayUnits_frame, State.level_lines, State.event_frame, State.line]
  unfold emitSymbol
  generalize ((s.event (.emit s.lineSel b)).level s.lineSel true).delayUnits (tH b) = t at h1 ⊢
  simp only [State.delayUnits_frame, State.level_lines]
  exact key t h1

/-- A symbol puts its pulse on the line, one sample a time-unit. -/
theorem emitSymbol_wave (b : Bool) (s : State) (h : s.lineSel < s.numLines) :
    (emitSymbol b s).wave = s.wave ++ (pulse b).map fun x => (s.lineSel, x) := by
  have h' : s.lineSel < s.lines.length := h
  simp [emitSymbol, pulse, State.levelNow, State.line, h', List.getD_eq_getElem?_getD]

/-- A symbol ends with no time-unit left and no cycle gone. -/
@[simp] theorem emitSymbol_counters (b : Bool) (s : State) :
    (emitSymbol b s).unitCnt = 0#4 ∧ (emitSymbol b s).presc = 0 := by
  cases b <;> simp [emitSymbol, State.delayUnits, tL, t0L, t1L]

/-- The number of lines is not changed by a symbol. -/
@[simp] theorem emitSymbol_numLines (b : Bool) (s : State) : (emitSymbol b s).numLines = s.numLines :=
  State.numLines_of_lines (emitSymbol_lines b s)

/-- The pin bits of a line after a symbol. -/
theorem emitSymbol_line (b : Bool) (s : State) (k : Nat) :
    (emitSymbol b s).line k =
      if k = s.lineSel ∧ s.lineSel < s.numLines then { s.line s.lineSel with out := false } else s.line k :=
  State.line_of_lines (emitSymbol_lines b s) k

/-! ### Bytes and buffers -/

/-- The bits of `v` sent from position `j` of its send order on. -/
theorem sendByte_eq (k : Nat) (v : Byte) (s : State) :
    sendByte k v s =
      sendBit 0#3 (sendBit 1#3 (sendBit 2#3 (sendBit 3#3 (sendBit 4#3 (sendBit 5#3 (sendBit 6#3 (sendBit 7#3
        (s.loadByte (BitVec.ofNat 32 k) v)))))))) := rfl

/-- A byte appends its eight symbols, bit 7 first (41 R100). -/
theorem sendByte_trace (k : Nat) (v : Byte) (s : State) :
    (sendByte k v s).trace = s.trace ++ (byteBits v).map (Event.emit s.lineSel) := by
  simp [sendByte_eq, sendBit, byteBits]

/-- A symbol of SHREG leaves the number of lines alone. -/
@[simp] theorem sendBit_numLines (j : BitVec 3) (s : State) : (sendBit j s).numLines = s.numLines := by
  simp only [sendBit, emitSymbol_numLines]
  rfl

/-- A byte leaves the number of lines alone. -/
@[simp] theorem sendByte_numLines (k : Nat) (v : Byte) (s : State) : (sendByte k v s).numLines = s.numLines := by
  simp only [sendByte_eq, sendBit_numLines]
  rfl

/-- A byte puts its waveform on the line (40 R88). -/
theorem sendByte_wave (k : Nat) (v : Byte) (s : State) (h : s.lineSel < s.numLines) :
    (sendByte k v s).wave = s.wave ++ (waveByte v).map fun x => (s.lineSel, x) := by
  have hn : ∀ t : State, ∀ j, t.lineSel < t.numLines →
      (sendBit j t).wave = t.wave ++ (pulse (t.shreg.getLsbD j.toNat)).map (fun x => (t.lineSel, x)) :=
    fun t j ht => emitSymbol_wave _ (t.setBit j) ht
  have hk : ∀ t : State, ∀ j, t.lineSel < t.numLines → (sendBit j t).lineSel < (sendBit j t).numLines := by
    intro t j ht
    simp only [sendBit, emitSymbol_numLines, emitSymbol_frame]
    exact ht
  rw [sendByte_eq, hn, hn, hn, hn, hn, hn, hn, hn]
  · simp [waveByte, byteBits, List.flatMap]
  all_goals repeat (first | exact h | apply hk)

/-- On a low line a byte leaves the lines as they were. -/
theorem sendByte_lines (k : Nat) (v : Byte) (s : State) (h : (s.line s.lineSel).out = false) :
    (sendByte k v s).lines = s.lines := by
  have step : ∀ t : State, ∀ j, (t.line t.lineSel).out = false → (sendBit j t).lines = t.lines := by
    intro t j ht
    have hx : ({ t.line t.lineSel with out := false } : Line) = t.line t.lineSel := by rw [← ht]
    simp only [sendBit, emitSymbol_lines]
    show t.lines.set t.lineSel { t.line t.lineSel with out := false } = t.lines
    rw [hx, State.set_line_self]
  have low : ∀ t : State, ∀ j, (t.line t.lineSel).out = false →
      ((sendBit j t).line (sendBit j t).lineSel).out = false := by
    intro t j ht
    have : (sendBit j t).lineSel = t.lineSel := by simp
    rw [this, State.line, step t j ht]
    exact ht
  rw [sendByte_eq, step, step, step, step, step, step, step, step]
  · rfl
  all_goals repeat (first | exact h | apply low)

/-- A buffer appends its symbols in order (41 R100). -/
theorem sendBytes_trace (vs : List Byte) (k : Nat) (s : State) :
    (sendBytes vs k s).trace = s.trace ++ (bitsOf vs).map (Event.emit s.lineSel) := by
  induction vs generalizing k s with
  | nil => simp [sendBytes, bitsOf]
  | cons v vs ih => simp [sendBytes, ih, sendByte_trace, bitsOf]

/-- A buffer leaves the number of lines alone. -/
@[simp] theorem sendBytes_numLines (vs : List Byte) (k : Nat) (s : State) :
    (sendBytes vs k s).numLines = s.numLines := by
  induction vs generalizing k s with
  | nil => rfl
  | cons v vs ih => simp [sendBytes, ih]

/-- A buffer puts `Wave` on the line (40 R88). -/
theorem sendBytes_wave (vs : List Byte) (k : Nat) (s : State) (h : s.lineSel < s.numLines) :
    (sendBytes vs k s).wave = s.wave ++ (waveOf vs).map fun x => (s.lineSel, x) := by
  induction vs generalizing k s with
  | nil => simp [sendBytes, waveOf]
  | cons v vs ih =>
    rw [sendBytes, ih _ _ (by simpa using h), sendByte_wave k v s h]
    simp [waveOf]

/-- On a low line a buffer leaves the lines as they were (41 R107). -/
theorem sendBytes_lines (vs : List Byte) (k : Nat) (s : State) (h : (s.line s.lineSel).out = false) :
    (sendBytes vs k s).lines = s.lines := by
  induction vs generalizing k s with
  | nil => rfl
  | cons v vs ih =>
    have hl := sendByte_lines k v s h
    have hs : (sendByte k v s).lineSel = s.lineSel := by simp
    rw [sendBytes, ih _ _ (by rw [hs, State.line, hl]; exact h), hl]

/-! ### The waveform -/

/-- The length of a pulse: 13 time-units for a 0, 14 for a 1 (30 R70). -/
theorem pulse_length (b : Bool) : (pulse b).length = if b then 14 else 13 := by
  cases b <;> rfl

/-- A buffer's waveform is the pulses of its bits in turn. -/
theorem waveOf_eq (bs : List Byte) : waveOf bs = (bitsOf bs).flatMap pulse := by
  simp only [waveOf, bitsOf, List.flatMap_assoc]; rfl

/-- A buffer has eight bits a byte. -/
theorem bitsOf_length (bs : List Byte) : (bitsOf bs).length = 8 * bs.length := by
  induction bs with
  | nil => rfl
  | cons b bs ih =>
    have : bitsOf (b :: bs) = byteBits b ++ bitsOf bs := by simp [bitsOf]
    rw [this, List.length_append, ih]
    simp [byteBits]; omega

end Sys2Proof.Machine
end

