-- ==== Sys2Proof/Laws/Ops.lean ====
section
/-! SUPPORT. One lemma a shared operation: everything it can do (spec 41 R103, 43 R130, R132, 20 R52). -/

namespace Sys2Proof.Machine

/-! ### Operands -/

/-- A resolved pin names a line of the block (41 R96). -/
theorem State.pinLine_lt {s : State} {pin : Pin} {l : Nat} (h : s.pinLine pin = some l) : l < s.numLines := by
  unfold State.pinLine at h
  split at h
  · split at h
    · next hl => cases h; exact hl
    · cases h
  · cases h

/-- Scaling keeps the length of a buffer. -/
@[simp] theorem scaleAll_length (r : Scalar) (k : Nat) (vs : List Byte) : (scaleAll r k vs).1.length = vs.length := by
  induction vs generalizing k with
  | nil => rfl
  | cons v vs ih => simp [scaleAll, ih]

/-- A byte in range is stored as it is, whatever was drawn before (42 R122). -/
theorem scaleAll_inRange (r : Scalar) (k : Nat) (vs : List Byte) (i : Nat) (v : Byte) (hv : vs[i]? = some v)
    (hq : 0 ≤ scaleInt v r ∧ scaleInt v r ≤ 255) :
    (scaleAll r k vs).1[i]? = some (BitVec.ofInt 8 (scaleInt v r)) := by
  induction vs generalizing k i with
  | nil => simp at hv
  | cons u vs ih =>
    cases i with
    | zero =>
      simp only [List.getElem?_cons_zero, Option.some.injEq] at hv
      subst hv
      simp [scaleAll, scale, hq]
    | succ i =>
      simp only [List.getElem?_cons_succ] at hv
      simp only [scaleAll, List.getElem?_cons_succ]
      exact ih _ _ hv

/-- With every byte in range nothing is drawn. -/
theorem scaleAll_draws (r : Scalar) (k : Nat) (vs : List Byte)
    (hq : ∀ v ∈ vs, 0 ≤ scaleInt v r ∧ scaleInt v r ≤ 255) :
    scaleAll r k vs = (vs.map fun v => BitVec.ofInt 8 (scaleInt v r), k) := by
  induction vs generalizing k with
  | nil => rfl
  | cons v vs ih =>
    have hv := hq v (by simp)
    simp [scaleAll, scale, hv, ih k (fun u hu => hq u (by simp [hu]))]

/-! ### TRANSMIT -/

/-- Steps 3 to 6 on a copy that can be read. -/
theorem sendAndEcho_eq {s : State} {bs : List Byte} (h : s.txc.readFrom 0 s.txcLen.toNat = .ok bs) :
    sendAndEcho s = .next (respond .ok false s.txcLen bs (sendBytes bs 0 s.lock).unlock).dropCopy := by
  simp [sendAndEcho, sendCopy, echo, readBytes, h]

/-- Steps 3 to 6 answer a next state only by reading the copy. -/
theorem sendAndEcho_next {s t : State} (h : sendAndEcho s = .next t) :
    ∃ bs, s.txc.readFrom 0 s.txcLen.toNat = .ok bs ∧
      t = (respond .ok false s.txcLen bs (sendBytes bs 0 s.lock).unlock).dropCopy := by
  cases hr : s.txc.readFrom 0 s.txcLen.toNat with
  | ok bs => rw [sendAndEcho_eq hr] at h; cases h; exact ⟨bs, rfl, rfl⟩
  | error i => simp [sendAndEcho, sendCopy, readBytes, hr, andThen] at h

/-- The transmit copy of a TRANSMIT from state `s` whose payload is `bs`: two free values are taken before it is scaled,
by the settle delay and by the storage request. -/
def State.copyOf (s : State) (bs : List Byte) : List Byte := (scaleAll s.bright (s.draws + 2) bs).1

@[simp] theorem State.copyOf_length (s : State) (bs : List Byte) : (s.copyOf bs).length = bs.length := by
  simp [State.copyOf]

/-- The state when the copy has been made: before `Lock()`. -/
def State.copied (s : State) (l : Nat) (n : Len) (bs : List Byte) : State := (s.configure l).asked.storeCopy n bs

/-- The state when TRANSMIT has answered `OK`. -/
def State.transmitted (s : State) (l : Nat) (n : Len) (bs : List Byte) : State :=
  (respond .ok false n (s.copyOf bs) (sendBytes (s.copyOf bs) 0 (s.copied l n bs).lock).unlock).dropCopy

/-- Storage of `n` bytes for the copy is granted to a TRANSMIT from state `s`. -/
abbrev State.copyGranted (s : State) (n : Len) : Prop := allocAnswer s.cfg.txAlloc n.toNat (s.draws + 1) = true

theorem State.configure_txOK (s : State) (l : Nat) (n : Nat) :
    (s.configure l).txOK n = allocAnswer s.cfg.txAlloc n (s.draws + 1) := by
  simp [State.txOK]

/-- An undefined pin identifier (41 R96). -/
theorem transmitBuffer_pin {s : State} {pin : Pin} (n : Len) (h : s.pinLine pin = none) :
    transmitBuffer pin n s = .next (raise .ePin s) := by
  simp [transmitBuffer, h]

/-- Refused storage (41 R98). -/
theorem transmitBuffer_alloc {s : State} {pin : Pin} {n : Len} {l : Nat} (h : s.pinLine pin = some l)
    (ha : ¬s.copyGranted n) : transmitBuffer pin n s = .next (raise .eAlloc (s.configure l).asked) := by
  have ha' : allocAnswer s.cfg.txAlloc n.toNat (s.draws + 1) = false := by simpa using ha
  simp [transmitBuffer, h, withCopy, State.configure_txOK, ha']

/-- The whole of TRANSMIT when nothing is refused (41 R103). -/
theorem transmitBuffer_ok {s : State} {pin : Pin} {n : Len} {l : Nat} {bs : List Byte} (h : s.pinLine pin = some l)
    (ha : s.copyGranted n) (hb : s.argbuf.readFrom 0 n.toNat = .ok bs) :
    transmitBuffer pin n s = .next (s.transmitted l n bs) := by
  have hlen : bs.length = n.toNat := ((Memory.readFrom_eq_ok _ _ _ _).1 hb).1
  have hx : ((s.configure l).asked.storeCopy n bs).txc = Memory.ofBytes (s.copyOf bs) := by
    simp [State.copyOf]
  have hr : ((s.configure l).asked.storeCopy n bs).txc.readFrom 0
      ((s.configure l).asked.storeCopy n bs).txcLen.toNat = .ok (s.copyOf bs) := by
    have := Memory.readFrom_ofBytes (s.copyOf bs)
    rw [State.copyOf_length, hlen] at this
    rw [hx, State.storeCopy_txcLen]
    exact this
  have hg : (s.configure l).txOK n.toNat = true := by rw [State.configure_txOK]; exact ha
  rw [transmitBuffer, h]
  show withCopy n (s.configure l) sendAndEcho = _
  rw [withCopy, if_pos hg, readPayload, readBytes_ok (bs := bs) _ (by simpa using hb), sendAndEcho_eq hr]
  simp only [State.storeCopy_txcLen]
  rfl

/-- Everything TRANSMIT can do when it answers a next state (41 R103). -/
theorem transmitBuffer_next {s t : State} {pin : Pin} {n : Len} (h : transmitBuffer pin n s = .next t) :
    (s.pinLine pin = none ∧ t = raise .ePin s) ∨
    (∃ l, s.pinLine pin = some l ∧ ¬s.copyGranted n ∧ t = raise .eAlloc (s.configure l).asked) ∨
    (∃ l bs, s.pinLine pin = some l ∧ s.copyGranted n ∧ s.argbuf.readFrom 0 n.toNat = .ok bs ∧
      t = s.transmitted l n bs) := by
  cases hp : s.pinLine pin with
  | none => rw [transmitBuffer_pin n hp] at h; cases h; exact .inl ⟨rfl, rfl⟩
  | some l =>
    right
    by_cases ha : s.copyGranted n
    · right
      cases hb : s.argbuf.readFrom 0 n.toNat with
      | ok bs => rw [transmitBuffer_ok hp ha hb] at h; cases h; exact ⟨l, bs, rfl, ha, rfl, rfl⟩
      | error i =>
        have hg : (s.configure l).txOK n.toNat = true := by rw [State.configure_txOK]; exact ha
        simp [transmitBuffer, hp, withCopy, hg, readPayload, readBytes, hb] at h
    · left
      rw [transmitBuffer_alloc hp ha] at h
      cases h
      exact ⟨l, rfl, ha, rfl⟩

/-! ### What a finished TRANSMIT has changed -/

/-- The lines after step 1: the resolved line is a floating output at 0 (41 R97). -/
theorem State.configure_lines (s : State) (l : Nat) (hl : l < s.numLines) :
    (s.configure l).lines = s.lines.set l ⟨true, true, false⟩ := by
  have h1 : ((s.selectLine l).pinMode l).lines =
      s.lines.set l { s.line l with dir := true, pull := true } := rfl
  have h2 := State.line_of_lines h1 l
  rw [if_pos ⟨rfl, hl⟩] at h2
  simp only [State.configure, State.endSettle_frame, State.startSettle_frame, State.pinWrite_lines, h1, h2,
    List.set_set]

@[simp] theorem State.configure_numLines (s : State) (l : Nat) : (s.configure l).numLines = s.numLines := by
  simp [State.numLines, State.configure]

/-- The lines after TRANSMIT (41 R107). -/
theorem State.transmitted_lines (s : State) (l : Nat) (n : Len) (bs : List Byte) (hl : l < s.numLines) :
    (s.transmitted l n bs).lines = s.lines.set l ⟨true, true, false⟩ := by
  have hc : (s.copied l n bs).lock.lines = s.lines.set l ⟨true, true, false⟩ := by
    simp [State.copied, State.configure_lines s l hl]
  have hsel : (s.copied l n bs).lock.lineSel = l := by simp [State.copied]
  have hlow : ((s.copied l n bs).lock.line (s.copied l n bs).lock.lineSel).out = false := by
    rw [hsel, State.line_of_lines hc, if_pos ⟨rfl, hl⟩]
  simp only [State.transmitted, State.dropCopy_frame, respond_frame, State.unlock_frame, sendBytes_lines _ _ _ hlow, hc]

/-- TRACE after TRANSMIT (41 R103, 95 V70). -/
theorem State.transmitted_trace (s : State) (l : Nat) (n : Len) (bs : List Byte) :
    (s.transmitted l n bs).trace = s.trace ++
      ([.pinMode l, .pinWrite l false, .settle s.cfg.tSettle, .lock] ++
        (bitsOf (s.copyOf bs)).map (Event.emit l) ++
        [.unlock, .resp (rspWord .ok false n) (s.copyOf bs)]) := by
  simp [State.transmitted, State.copied, sendBytes_trace]

/-- The waveform of TRANSMIT (40 R88). -/
theorem State.transmitted_wave (s : State) (l : Nat) (n : Len) (bs : List Byte) (hl : l < s.numLines) :
    (s.transmitted l n bs).wave = s.wave ++ (waveOf (s.copyOf bs)).map fun x => (l, x) := by
  have hsel : (s.copied l n bs).lock.lineSel = l := by simp [State.copied]
  have hnum : (s.copied l n bs).lock.numLines = s.numLines := by
    show (s.configure l).numLines = s.numLines
    simp
  have := sendBytes_wave (s.copyOf bs) 0 (s.copied l n bs).lock (by rw [hsel, hnum]; exact hl)
  rw [hsel] at this
  simp only [State.transmitted, State.dropCopy_frame, respond_frame, State.unlock_frame, this]
  simp [State.copied]

/-- The registers TRANSMIT writes, as it leaves them, and the HOST's bit, which it restores (41 R101, R102). -/
theorem State.transmitted_regs (s : State) (l : Nat) (n : Len) (bs : List Byte) :
    (s.transmitted l n bs).rsp = rspWord .ok false n ∧ (s.transmitted l n bs).resbuf = Memory.ofBytes (s.copyOf bs) ∧
    (s.transmitted l n bs).st = .resp ∧ (s.transmitted l n bs).rspSent = false ∧ (s.transmitted l n bs).doutIdx = 0 ∧
    (s.transmitted l n bs).txc = [] ∧ (s.transmitted l n bs).txcLen = 0#32 ∧ (s.transmitted l n bs).lineSel = l ∧
    (s.transmitted l n bs).preempt = s.preempt ∧ (s.transmitted l n bs).lockReq = false := by
  simp [State.transmitted, State.copied]

/-- What TRANSMIT leaves alone (41 R95). -/
theorem State.transmitted_keeps (s : State) (l : Nat) (n : Len) (bs : List Byte) :
    (s.transmitted l n bs).cfg = s.cfg ∧ (s.transmitted l n bs).bright = s.bright ∧
    (s.transmitted l n bs).remapPresent = s.remapPresent ∧ (s.transmitted l n bs).remapLen = s.remapLen ∧
    (s.transmitted l n bs).rmp = s.rmp ∧ (s.transmitted l n bs).cmd = s.cmd ∧
    (s.transmitted l n bs).argbuf = s.argbuf ∧ (s.transmitted l n bs).feed = s.feed := by
  simp [State.transmitted, State.copied]

/-! ### The remap commands -/

/-- Everything SETREMAP can do when it answers a next state (43 R130, R136). -/
theorem execSetremap_next {n : Len} {s t : State} (h : execSetremap n s = .next t) :
    (s.remapOK n.toNat = false ∧ t = raise .eAlloc s.asked) ∨
    (∃ bs, s.remapOK n.toNat = true ∧ s.argbuf.readFrom 0 n.toNat = .ok bs ∧
      t = respond .ok false 0#32 [] (s.asked.storeTable n bs)) := by
  unfold execSetremap at h
  split at h
  · next ha =>
    obtain ⟨bs, hb, ht⟩ := readBytes_next h
    cases ht
    exact .inr ⟨bs, ha, by simpa using hb, rfl⟩
  · next ha => cases h; exact .inl ⟨by simpa using ha, rfl⟩

/-- Everything GETREMAP can do when it answers a next state (43 R132). -/
theorem execGetremap_next {s t : State} (h : execGetremap s = .next t) :
    (s.remapPresent = false ∧ t = respond .ok false 0#32 [] s) ∨
    (∃ bs, s.remapPresent = true ∧ s.rmp.readFrom 0 s.remapLen.toNat = .ok bs ∧
      t = respond .ok true s.remapLen bs s) := by
  unfold execGetremap at h
  split at h
  · next hp =>
    obtain ⟨bs, hb, ht⟩ := readBytes_next h
    cases ht
    exact .inr ⟨bs, hp, hb, by simp [remapFlag, hp]⟩
  · next hp =>
    have hp' : s.remapPresent = false := by simpa using hp
    cases h
    exact .inl ⟨hp', by simp [remapFlag, hp']⟩

/-- Everything an instruction can do when it answers a next state: one case for each way its rule can end. -/
theorem exec_next {i : Instr} {s t : State} (h : exec i s = .next t) :
    (∃ v, i = .setbright v ∧ t = respond .ok false v [] (s.storeBright v)) ∨
    (i = .getbright ∧ t = respond .ok false s.bright [] s) ∨
    (∃ pin n, (i = .transmit pin n ∨ i = .write pin n) ∧ transmitBuffer pin n s = .next t) ∨
    (∃ n, i = .setremap n ∧ execSetremap n s = .next t) ∨
    (i = .clearremap ∧ t = respond .ok s.remapPresent 0#32 [] s.dropTable) ∨
    (i = .getremap ∧ execGetremap s = .next t) ∨
    (∃ b, i = symbolOf b ∧ t = emitSymbol b s) := by
  cases i with
  | setbright v => cases h; exact .inl ⟨v, rfl, rfl⟩
  | getbright => cases h; exact .inr (.inl ⟨rfl, rfl⟩)
  | transmit pin n => exact .inr (.inr (.inl ⟨pin, n, .inl rfl, h⟩))
  | write pin n => exact .inr (.inr (.inl ⟨pin, n, .inr rfl, h⟩))
  | setremap n => exact .inr (.inr (.inr (.inl ⟨n, rfl, h⟩)))
  | clearremap => cases h; exact .inr (.inr (.inr (.inr (.inl ⟨rfl, rfl⟩))))
  | getremap => exact .inr (.inr (.inr (.inr (.inr (.inl ⟨rfl, h⟩)))))
  | emit0 => cases h; exact .inr (.inr (.inr (.inr (.inr (.inr ⟨false, rfl, rfl⟩)))))
  | emit1 => cases h; exact .inr (.inr (.inr (.inr (.inr (.inr ⟨true, rfl, rfl⟩)))))

end Sys2Proof.Machine
end

