-- ==== Sys2Proof/Laws/PerInstr.lean ====
section
/-! SUPPORT. One statement for every instruction: the core instruction it stands for is well formed, has the same words
and brings the same payload (spec 30 R72). -/

namespace Sys2Proof.Laws.Canonical

/-- The core instruction of `i` is well formed, is its own core instruction, and has the words and the payload of `i`. -/
def Statement (i : Instr) : Prop :=
  i.canonical.wellFormed = true ∧ i.canonical.canonical = i.canonical ∧ encode i.canonical = encode i ∧
  i.canonical.payloadIn = i.payloadIn ∧ i.canonical.takesPayload = i.takesPayload

theorem setbright (s : Scalar) : Statement (.setbright s) := ⟨rfl, rfl, rfl, rfl, rfl⟩

theorem getbright : Statement .getbright := ⟨rfl, rfl, rfl, rfl, rfl⟩

theorem transmit (pin : Pin) (len : Len) : Statement (.transmit pin len) := ⟨rfl, rfl, rfl, rfl, rfl⟩

theorem write (pin : Pin) (len : Len) : Statement (.write pin len) := ⟨rfl, rfl, rfl, rfl, rfl⟩

theorem setremap (len : Len) : Statement (.setremap len) := ⟨rfl, rfl, rfl, rfl, rfl⟩

theorem clearremap : Statement .clearremap := ⟨rfl, rfl, rfl, rfl, rfl⟩

theorem getremap : Statement .getremap := ⟨rfl, rfl, rfl, rfl, rfl⟩

theorem emit0 : Statement .emit0 := ⟨rfl, rfl, rfl, rfl, rfl⟩

theorem emit1 : Statement .emit1 := ⟨rfl, rfl, rfl, rfl, rfl⟩

end Sys2Proof.Laws.Canonical
end

