-- ==== Sys2Proof/Laws/Step.lean ====
section
/-! SUPPORT. What one step does at each grain, and what a safe idle state looks like (spec 10 R22, 41 R108). -/

namespace Sys2Proof.Machine

/-! ### Payload lengths -/

theorem wordPayload_ok {w : CmdWord} {i : Instr} (h : decode w = .ok i) : wordPayload w = i.payloadIn := by
  simp [wordPayload, h]

theorem wordTakesPayload_ok {w : CmdWord} {i : Instr} (h : decode w = .ok i) :
    wordTakesPayload w = i.takesPayload := by
  simp [wordTakesPayload, h]

/-- An instruction that brings no payload has none. -/
theorem Instr.payloadIn_of_not_takes {i : Instr} (h : i.takesPayload = false) : i.payloadIn = 0 := by
  cases i <;> simp_all [Instr.takesPayload, Instr.payloadIn]

/-! ### One step by the head of the feed -/

/-- With nothing left to do the HOST lets quiet edges pass. -/
theorem step_nil {s : State} (h : s.feed = []) : step s = edge s.quiet s := by
  simp [step, h]

/-- A clock edge with given wires. -/
theorem step_edge {s : State} {p : PortIn} {rest : List Input} (h : s.feed = .edge p :: rest) :
    step s = edge p (s.setFeed rest) := by
  simp [step, h]

/-- The time of one symbol. -/
theorem step_pulse {s : State} {rest : List Input} (h : s.feed = .pulse :: rest) :
    step s = pulseStep (s.setFeed rest) := by
  simp [step, h]

/-- A command issued in IDLE. -/
theorem step_call_idle {s : State} {w : CmdWord} {bs : List Byte} {rest : List Input}
    (h : s.feed = .call w bs :: rest) (hi : s.st = .idle) : step s = callStep w bs (s.setFeed rest) := by
  simp [step, h, hi]

/-- A command waits while the block is busy. -/
theorem step_call_busy {s : State} {w : CmdWord} {bs : List Byte} {rest : List Input}
    (h : s.feed = .call w bs :: rest) (hi : s.st ≠ .idle) : step s = edge s.quiet s := by
  simp [step, h, hi]

/-- A quiet edge is a row of the transition table, and PREEMPT is left alone. -/
theorem edge_quiet (s : State) : edge s.quiet s = seqEdge s.quiet s := by
  have : s.hostPreempt s.quiet.preemptIn = s := by
    unfold State.hostPreempt
    split <;> rfl
  simp only [edge, this]
  rfl

/-- Any edge without reset is a row of the transition table, after the HOST has set its own bit. -/
theorem edge_of_not_rst {p : PortIn} (s : State) (h : p.rst = false) :
    edge p s = seqEdge p (s.hostPreempt p.preemptIn) := by
  simp [edge, h]

/-- The next `k + 1` steps are the next one and then `k` more. -/
theorem run_succ_of_next {k : Nat} {s t : State} (h : step s = .next t) :
    Host.Core.run Sys2Proof.core (k + 1) s = Host.Core.run Sys2Proof.core k t := by
  have h' : Sys2Proof.core.step s = .next t := h
  simp only [Host.Core.run, h']

/-- No steps. -/
theorem run_zero (s : State) : Host.Core.run Sys2Proof.core 0 s = .next s := rfl

/-- A run of `j` steps and then one of `k`. -/
theorem run_add {j k : Nat} {s t : State} (h : Host.Core.run Sys2Proof.core j s = .next t) :
    Host.Core.run Sys2Proof.core (j + k) s = Host.Core.run Sys2Proof.core k t := by
  induction j generalizing s with
  | zero => cases h; rw [Nat.zero_add]
  | succ j ih =>
    rw [show j + 1 + k = (j + k) + 1 by omega]
    cases hs : step s with
    | next u =>
      rw [run_succ_of_next hs] at h
      rw [run_succ_of_next hs]
      exact ih h
    | fault r =>
      have h' : Sys2Proof.core.step s = .fault r := hs
      simp only [Host.Core.run, h'] at h
      cases h
    | refused r =>
      have h' : Sys2Proof.core.step s = .refused r := hs
      simp only [Host.Core.run, h'] at h
      cases h

/-- With edges ahead, the next step of a busy block is a clock edge without reset, and the other edges stay ahead. -/
theorem step_edgesAhead {k : Nat} {s : State} (h : edgesAhead (k + 1) s.feed = true) (hs : s.st ≠ .idle) :
    ∃ (p : PortIn) (f : List Input), step s = edge p (s.setFeed f) ∧ p.rst = false ∧ p.preemptIn = s.preemptNext ∧
      edgesAhead k f = true := by
  have hq : s.setFeed s.feed = s := rfl
  unfold State.preemptNext
  cases hf : s.feed with
  | nil =>
    refine ⟨s.quiet, s.feed, by rw [step_nil hf, hq], rfl, rfl, ?_⟩
    rw [hf]; cases k <;> rfl
  | cons x rest =>
    rw [hf] at h
    cases x with
    | edge p =>
      simp only [edgesAhead, Bool.and_eq_true, Bool.not_eq_true'] at h
      exact ⟨p, rest, step_edge hf, h.1, rfl, h.2⟩
    | pulse => simp [edgesAhead] at h
    | call w bs =>
      refine ⟨s.quiet, s.feed, by rw [step_call_busy hf hs, hq], rfl, rfl, ?_⟩
      rw [hf]; cases k <;> rfl

/-! ### Safe states between commands -/

/-- A safe idle state holds nothing of a command past. -/
theorem State.Safe.idle {s : State} (h : s.Safe) (hi : s.st = .idle) :
    s.txc = [] ∧ s.txcLen = 0#32 ∧ s.resbuf = [] ∧ s.rspSent = false ∧ s.doutIdx = 0 ∧ s.lockReq = false := by
  obtain ⟨hb, -, -, hl, -, hc, hr⟩ := h
  have h0 : s.txcLen = 0#32 := by
    by_contra hne
    have := hc.1 hne
    simp [hi, SeqState.critical] at this
  obtain ⟨h1, h2⟩ := hr.1 (by simp [hi])
  refine ⟨?_, h0, h1, h2, hr.2.1 h2, ?_⟩
  · have := Memory.dense_length hb.2.1
    rw [h0] at this
    simpa using this
  · by_contra hne
    have := hl.1.1 (by simpa using hne)
    simp [hi, SeqState.critical] at this

end Sys2Proof.Machine
end

