-- ==== Sys2Proof/Laws/Sequencer.lean ====
section
/-! SUPPORT. One lemma a shared operation of the sequencer: everything it can do (spec 41 R108, 40 R81, R84); and what a
change of one line does to the pin invariant. -/

namespace Sys2Proof.Machine

/-! ### The word in CMD -/

/-- A word decodes to a command, never to a symbol (30 R60). -/
theorem decode_command {w : CmdWord} {i : Instr} (h : decode w = .ok i) : i ≠ .emit0 ∧ i ≠ .emit1 := by
  unfold decode needPinZero needNoOperand at h
  repeat' (split at h)
  all_goals cases h
  all_goals simp

/-- A word never decodes to a pseudo-instruction (30 R72). -/
theorem decode_wellFormed {w : CmdWord} {i : Instr} (h : decode w = .ok i) : i.wellFormed = true := by
  unfold decode needPinZero needNoOperand at h
  repeat' (split at h)
  all_goals cases h
  all_goals rfl

/-- The operands of a TRANSMIT are the PIN and ARG fields of its word (30 R62, R63). -/
theorem decode_transmit {w : CmdWord} {pin : Pin} {n : Len} (h : decode w = .ok (.transmit pin n)) :
    pin = pinField w ∧ n = argField w := by
  unfold decode needPinZero needNoOperand at h
  repeat' (split at h)
  all_goals cases h
  exact ⟨rfl, rfl⟩

/-- A word followed by payload bytes brings a payload buffer. -/
theorem wordTakesPayload_of_pos {w : CmdWord} (h : 0 < wordPayload w) : wordTakesPayload w = true := by
  unfold wordPayload wordTakesPayload at *
  cases hd : decode w with
  | error e => simp [hd] at h
  | ok i => cases i <;> simp_all [Instr.payloadIn, Instr.takesPayload]

/-! ### Rows of the transition table -/

/-- The two ends of `resolvePin` (41 R96). -/
theorem resolvePin_cases (pin : Pin) (s : State) :
    (s.pinLine pin = none ∧ resolvePin pin s = raise .ePin s) ∨
    (∃ l, s.pinLine pin = some l ∧ l < s.numLines ∧ resolvePin pin s = (s.selectLine l).goto .cfg) := by
  unfold resolvePin
  cases h : s.pinLine pin with
  | none => exact .inl ⟨rfl, rfl⟩
  | some l => exact .inr ⟨l, rfl, State.pinLine_lt h, rfl⟩

/-- A complete command goes to CFG or E_PIN if it is a TRANSMIT, else to EXEC (41 R108). -/
theorem startCommand_cases (s : State) :
    (∃ pin n, decode s.cmd = .ok (.transmit pin n) ∧ startCommand s = resolvePin pin s) ∨
    ((∀ pin n, decode s.cmd ≠ .ok (.transmit pin n)) ∧ startCommand s = s.goto .exec) := by
  unfold startCommand
  split
  · next pin n h => exact .inl ⟨pin, n, h, rfl⟩
  · next h => exact .inr ⟨h, rfl⟩

/-- A clock cycle within a time-unit, or the one that ends it (40 R81). -/
theorem unitClock_cases (s : State) (k : State → Res) :
    (s.presc + 1 < s.cfg.cal ∧ unitClock s k = .next (s.setPresc (s.presc + 1))) ∨
    (s.cfg.cal ≤ s.presc + 1 ∧ unitClock s k = k (s.setPresc 0)) := by
  unfold unitClock
  by_cases h : s.presc + 1 < s.cfg.cal
  · exact .inl ⟨h, if_pos h⟩
  · exact .inr ⟨by omega, if_neg h⟩

/-- SCALE: refused storage, or a copy of the payload that can be read (41 R98). -/
theorem withCopy_next {n : Len} {s t : State} {k : State → Res} (h : withCopy n s k = .next t) :
    (s.txOK n.toNat = false ∧ t = raise .eAlloc s.asked) ∨
    (∃ bs, s.txOK n.toNat = true ∧ s.argbuf.readFrom 0 n.toNat = .ok bs ∧ k (s.asked.storeCopy n bs) = .next t) := by
  unfold withCopy at h
  split at h
  · next ha =>
    obtain ⟨bs, hb, ht⟩ := readBytes_next h
    exact .inr ⟨bs, ha, by simpa using hb, ht⟩
  · next ha => cases h; exact .inl ⟨by simpa using ha, rfl⟩

/-- LOCK: straight to UNLOCK for an empty copy, else the first byte of the copy is loaded (41 R108). -/
theorem enterCritical_next {s t : State} {k : State → Res} (h : enterCritical s k = .next t) :
    (s.txcLen = 0#32 ∧ t = s.lock.goto .unlock) ∨
    (∃ v, s.txcLen ≠ 0#32 ∧ s.txc.read 0 = some v ∧ k (s.lock.loadByte 0#32 v) = .next t) := by
  unfold enterCritical at h
  split at h
  · next h0 => cases h; exact .inl ⟨h0, rfl⟩
  · next h0 =>
    obtain ⟨v, hv, ht⟩ := readByte_next h
    exact .inr ⟨v, h0, hv, ht⟩

/-- `NextBit()`'s index part: the next bit, the next byte, or the end (41 R108). -/
theorem nextIndex_next {s t : State} (h : nextIndex s = .next t) :
    (s.bitIdx ≠ 0#3 ∧ t = s.setBit (s.bitIdx - 1#3)) ∨
    (∃ v, s.bitIdx = 0#3 ∧ s.byteIdx.toNat + 1 < s.txcLen.toNat ∧ s.txc.read (s.byteIdx.toNat + 1) = some v ∧
      t = s.loadByte (s.byteIdx + 1#32) v) ∨
    (s.bitIdx = 0#3 ∧ s.txcLen.toNat ≤ s.byteIdx.toNat + 1 ∧ t = s.goto .unlock) := by
  unfold nextIndex at h
  split at h
  · next hb => cases h; exact .inl ⟨hb, rfl⟩
  · next hb =>
    have hb' : s.bitIdx = 0#3 := by simpa using hb
    split at h
    · next hlt =>
      obtain ⟨v, hv, ht⟩ := readByte_next h
      cases ht
      exact .inr (.inl ⟨v, hb', hlt, hv, rfl⟩)
    · next hlt => cases h; exact .inr (.inr ⟨hb', by omega, rfl⟩)

/-- RESP: nothing is taken, the word goes and payload follows, a payload byte goes and more follow, or all has gone
(10 R22). -/
theorem respEdge_cases (p : PortIn) (s : State) :
    respEdge p s = s ∨
    (s.rspSent = false ∧ s.resbuf.length ≠ 0 ∧ respEdge p s = { s with rspSent := true }) ∨
    (s.rspSent = true ∧ s.doutIdx + 1 < s.resbuf.length ∧ respEdge p s = { s with doutIdx := s.doutIdx + 1 }) ∨
    respEdge p s = finish s := by
  unfold respEdge
  by_cases h1 : s.rspSent = false
  · rw [if_pos h1]
    by_cases h2 : p.rspReady = true
    · rw [if_pos h2]
      by_cases h3 : s.resbuf.length = 0
      · rw [if_pos h3]; exact .inr (.inr (.inr rfl))
      · rw [if_neg h3]; exact .inr (.inl ⟨h1, h3, rfl⟩)
    · rw [if_neg h2]; exact .inl rfl
  · rw [if_neg h1]
    by_cases h2 : p.doutReady = true
    · rw [if_pos h2]
      by_cases h3 : s.doutIdx + 1 < s.resbuf.length
      · rw [if_pos h3]; exact .inr (.inr (.inl ⟨by simpa using h1, h3, rfl⟩))
      · rw [if_neg h3]; exact .inr (.inr (.inr rfl))
    · rw [if_neg h2]; exact .inl rfl

/-! ### The pin invariant -/

/-- With the lines and LINE_SEL unchanged the pin invariant is kept, if no line is high outside HIGH. -/
theorem State.PinsOK.same {s t : State} (h : s.PinsOK) (h1 : t.lines = s.lines) (h2 : t.lineSel = s.lineSel)
    (h3 : ∀ l, l < s.numLines → (s.line l).out = true → t.st = .high) (h4 : t.st.configured → s.st.configured) :
    t.PinsOK := by
  obtain ⟨n1, n2, n3, n4⟩ := h
  have hl : ∀ l, t.line l = s.line l := fun l => by simp [State.line, h1]
  have hn : t.numLines = s.numLines := by simp [State.numLines, h1]
  refine ⟨by rw [h2, hn]; exact n1, ?_, ?_, ?_⟩
  · intro l hl'; rw [hl]; exact n2 l (hn ▸ hl')
  · intro l hl' ho; rw [hl] at ho; exact ⟨h3 l (hn ▸ hl') ho, h2 ▸ (n3 l (hn ▸ hl') ho).2⟩
  · intro hc; rw [h2, hl]; exact n4 (h4 hc)

/-- The selected line takes new bits, every other line is low. -/
theorem State.PinsOK.set {s t : State} {l : Nat} {x : Line} (h : s.PinsOK) (h1 : t.lines = s.lines.set l x)
    (h2 : t.lineSel = l) (hl : l < s.numLines) (hx : x.dir = true → x.pull = true) (hx2 : x.out = true → t.st = .high)
    (hx3 : t.st.configured → x.dir = true)
    (h3 : ∀ k, k < s.numLines → k ≠ l → (s.line k).out = false) : t.PinsOK := by
  obtain ⟨n1, n2, n3, n4⟩ := h
  have hn := State.numLines_of_lines h1
  have hlk := State.line_of_lines h1
  refine ⟨by rw [h2, hn]; exact hl, ?_, ?_, ?_⟩
  · intro k hk; rw [hlk]; split
    · exact hx
    · exact n2 k (hn ▸ hk)
  · intro k hk; rw [hlk]; split
    · next hc => intro ho; exact ⟨hx2 ho, by rw [h2]; exact hc.1⟩
    · next hc =>
      intro ho
      have hkl : k ≠ l := by rintro rfl; exact hc ⟨rfl, hl⟩
      rw [h3 k (hn ▸ hk) hkl] at ho
      cases ho
  · intro hc; rw [h2, hlk, if_pos ⟨rfl, hl⟩]; exact hx3 hc

/-- Outside HIGH every line is low. -/
theorem State.PinsOK.low {s : State} (h : s.PinsOK) (hs : s.st ≠ .high) (l : Nat) (hl : l < s.numLines) :
    (s.line l).out = false := by
  by_contra hc
  exact hs (h.2.2.1 l hl (by simpa using hc)).1

/-! ### Memory after reset -/

/-- Every buffer is canonical after reset. -/
theorem State.reset_buffers : State.reset.CanonicalBuffers := ⟨rfl, rfl, rfl, rfl⟩

end Sys2Proof.Machine
end

