-- ==== Sys2Proof/Tests/Slice0.lean ====
section
/-! SUPPORT. The author's tests. Expected results are those of spec/95_test_vectors.md (V and P numbers) or written out from
the encodings of spec/30_encoding.md. Each `test_wit_<Name>` shows that the hypotheses of the obligation `<Name>` can be met
together, clause by clause. -/

namespace Sys2Proof.Machine.Test

open Sys2Proof Sys2Proof.Machine

/-! ### Small states on the test platform of spec/95, and ways to look at an outcome -/

/-- After reset, with this for the HOST to do. -/
def idleS (f : List Input) : State := { State.reset with feed := f }

/-- After reset, with a payload in ARGBUF. -/
def argS (bs : List Byte) : State := { State.reset with argbuf := Memory.ofBytes bs }

/-- With a remap table. -/
def tableS (bs : List Byte) : State :=
  { State.reset with remapPresent := true, remapLen := BitVec.ofNat 32 bs.length, rmp := Memory.ofBytes bs }

/-- With both capacities at `cap` bytes. -/
def capS (cap : Nat) (s : State) : State :=
  { s with cfg := { s.cfg with txAlloc := .atMost cap, remapAlloc := .atMost cap } }

/-- In EXEC with a word in CMD. -/
def execS (w : CmdWord) (f : List Input) : State := { State.reset with st := .exec, cmd := w, feed := f }

/-- In CFG with `TRANSMIT 2, bs` in hand. -/
def cfgS (bs : List Byte) : State :=
  { State.reset with
    st := .cfg, cmd := commandWord 3#4 2#8 (BitVec.ofNat 32 bs.length), argbuf := Memory.ofBytes bs, lineSel := 2 }

/-- In LOCK with the copy `bs` made, line 2 configured. -/
def lockS (bs : List Byte) : State :=
  { State.reset with
    st := .lock, txc := Memory.ofBytes bs, txcLen := BitVec.ofNat 32 bs.length, lineSel := 2,
    lines := State.reset.lines.set 2 ⟨true, true, false⟩ }

/-- The line LINE_SEL is high. -/
def lineHigh (s : State) : State := { s with lines := s.lines.set s.lineSel ⟨true, true, true⟩ }

/-- The outcome is a next state with this property. -/
def ends (r : Res) (P : State → Bool) : Bool :=
  match r with
  | .next t => P t
  | .fault _ => false
  | .refused _ => false

/-- `k` steps end in a next state with this property. -/
def after (k : Nat) (s : State) (P : State → Bool) : Bool := ends (Host.Core.run Sys2Proof.core k s) P

/-- The wires of a HOST at rest, with `rst` and a command on offer or not. -/
def wires (rst valid : Bool) (w : CmdWord) : PortIn := ⟨rst, valid, w, false, 0#8, true, true, true⟩

/-- The wires of a HOST that offers a payload byte. -/
def dataIn (b : Byte) : PortIn := { wires false false 0#48 with dinValid := true, dinData := b }

/-- In RECV of `SETREMAP` of two bytes, with these taken. -/
def recvS (bs : List Byte) : State :=
  { State.reset with st := .recv, cmd := 0x400000000002#48, argbuf := Memory.ofBytes bs }

/-- In RESP, with this payload to deliver. -/
def respS (bs : List Byte) : State := { State.reset with st := .resp, resbuf := Memory.ofBytes bs }

/-! ### Well-formedness: one ill-formed term for each check -/

/-- A pseudo-instruction is no core instruction (30 R72). -/
theorem test_wf_write_refused : (Instr.write 4#8 3#32).wellFormed = false := by decide
theorem test_wf_transmit : (Instr.transmit 4#8 3#32).wellFormed = true := by decide
/-- V11, V12, V13: the reserved opcodes. -/
theorem test_illegal_opcode :
    legalWord 0x000000000000#48 = false ∧ legalWord 0x700000000000#48 = false ∧
    legalWord 0xF00000000000#48 = false := by decide
/-- V14 against V4: one bit of ZERO. -/
theorem test_illegal_zero : legalWord 0x310400000003#48 = false ∧ legalWord 0x300400000003#48 = true := by decide
/-- V16, V17, V18: PIN not 0. -/
theorem test_illegal_pin :
    legalWord 0x100100008000#48 = false ∧ legalWord 0x400500000003#48 = false ∧
    legalWord 0x600100000000#48 = false := by decide
/-- V15, V18: ARG not 0. -/
theorem test_illegal_arg : legalWord 0x200000000001#48 = false ∧ legalWord 0x500000000001#48 = false := by decide

/-! ### Decoding: each word written out bit by bit, OP ZERO PIN ARG (30 R61, R67, R69) -/

theorem test_decode_setbright :
    decode 0b0001_0000_00000000_11111111111111110000000000000000#48 = .ok (.setbright 0xFFFF0000#32) := by decide
theorem test_decode_getbright :
    decode 0b0010_0000_00000000_00000000000000000000000000000000#48 = .ok .getbright := by decide
theorem test_decode_transmit :
    decode 0b0011_0000_11001000_00000000000000000000000000000010#48 = .ok (.transmit 200#8 2#32) := by decide
theorem test_decode_setremap :
    decode 0b0100_0000_00000000_00000000000000000000000000000011#48 = .ok (.setremap 3#32) := by decide
theorem test_decode_clearremap :
    decode 0b0101_0000_00000000_00000000000000000000000000000000#48 = .ok .clearremap := by decide
theorem test_decode_getremap :
    decode 0b0110_0000_00000000_00000000000000000000000000000000#48 = .ok .getremap := by decide
theorem test_decode_emit0 : decodeCode (.symbol 0b0#1) = .ok .emit0 := by decide
theorem test_decode_emit1 : decodeCode (.symbol 0b1#1) = .ok .emit1 := by decide
/-- WRITE has the words of TRANSMIT (30 R72), which decode to TRANSMIT. -/
theorem test_decode_write :
    encode (.write 4#8 3#32) = .command 0b0011_0000_00000100_00000000000000000000000000000011#48 ∧
    decode 0b0011_0000_00000100_00000000000000000000000000000011#48 = .ok (.transmit 4#8 3#32) := by decide
/-- The table's bits at each width (spec/opcode_table.json). -/
theorem test_decode_table :
    decodeTableWord 48 0x300400000003 = some (.transmit 4#8 3#32) ∧ decodeTableWord 8 1 = some .emit1 ∧
    decodeTableWord 48 0x700000000000 = none := by decide
/-- Most significant byte first (20 R41), and too few bytes. -/
theorem test_decode_bytes :
    decodeBytes [0x30#8, 0x04#8, 0#8, 0#8, 0#8, 0x03#8, 0xB0#8] = .ok (.transmit 4#8 3#32, [0xB0#8]) ∧
    decodeBytes [0x30#8, 0x04#8] = .error .truncated := by decide
/-- The first step after reset with a row's word in place runs that row. -/
theorem test_fetch_getbright :
    ends (step (State.reset.withFetchWord 48 0x200000000000))
      (fun t => t.rsp == 0x0000010000#40 && t.st == .idle) = true := by decide
theorem test_fetch_emit1 :
    ends (step (State.reset.withFetchWord 8 1))
      (fun t => t.wave == List.replicate 8 (0, true) ++ List.replicate 6 (0, false)) = true := by decide

/-! ### SETBRIGHT and GETBRIGHT -/

/-- V63: -1.0 is stored and answered. -/
theorem test_setbright :
    ends (step (idleS [.call 0x1000FFFF0000#48 []])) (fun t =>
      t.bright == 0xFFFF0000#32 && t.trace == [.resp 0x00FFFF0000#40 []]) = true := by decide
/-- V60. -/
theorem test_getbright :
    ends (step (idleS [.call 0x200000000000#48 []])) (fun t => t.trace == [.resp 0x0000010000#40 []]) = true := by decide

/-! ### Scaling: V42, V49, V53, V54, V57 and the worked arithmetic -/

theorem test_scale_half :
    [127#8, 255#8, 254#8, 3#8].map (fun v => (scale v 0x00008000#32 0).1) = [64#8, 128#8, 127#8, 2#8] := by decide
theorem test_scale_bounds :
    scaleInt 255#8 0x00010080#32 = 255 ∧ scaleInt 255#8 0x00010081#32 = 256 ∧ scaleInt 255#8 0xFFFFFF80#32 = 0 ∧
    scaleInt 255#8 0xFFFFFF7F#32 = -1 ∧ scaleInt 1#8 0x80000000#32 = -32768 ∧ scaleInt 1#8 0x7FFFFFFF#32 = 32768 ∧
    scaleInt 255#8 0x0000199A#32 = 26 := by decide
/-- V49: outside 0..255 the byte is the next free value. -/
theorem test_scale_draw : scale 255#8 0x00010081#32 5 = (Config.draw8 5, 6) := by
  simp [scale, show scaleInt 255#8 0x00010081#32 = 256 by decide]

/-! ### The symbols and the waveform: V29 to V36 -/

theorem test_emit0 :
    ends (exec .emit0 { State.reset with lineSel := 7 }) (fun t =>
      t.trace == [.emit 7 false] && t.wave == List.replicate 4 (7, true) ++ List.replicate 9 (7, false)) = true := by decide
theorem test_emit1 :
    ends (exec .emit1 { State.reset with lineSel := 7 }) (fun t =>
      t.trace == [.emit 7 true] && t.wave == List.replicate 8 (7, true) ++ List.replicate 6 (7, false)) = true := by decide
theorem test_wave_bits :
    pulse false = [true, true, true, true, false, false, false, false, false, false, false, false, false] ∧
    byteBits 0xB0#8 = [true, false, true, true, false, false, false, false] := by decide
theorem test_wave_lengths :
    [[0xB0#8], [0xFF#8], []].map (fun L => (waveOf L).length) = [107, 112, 0] := by
  simp [waveOf_eq, bitsOf, byteBits, pulse_length]
/-- The table under V36: units 0, 8 and 14 of the byte 0x80 on the wires. -/
theorem test_edges_unit0 : after 1 (lockS [0x80#8]) (fun t =>
    t.st == .high && t.bitIdx == 7#3 && t.unitCnt == 8#4 && (t.line 2).out) = true := by decide
theorem test_edges_unit8 : after 9 (lockS [0x80#8]) (fun t =>
    t.st == .low && t.bitIdx == 7#3 && t.unitCnt == 6#4 && !(t.line 2).out) = true := by decide
theorem test_edges_unit14 : after 15 (lockS [0x80#8]) (fun t =>
    t.st == .high && t.bitIdx == 6#3 && t.unitCnt == 4#4 && (t.line 2).out) = true := by decide

/-! ### TRANSMIT and WRITE -/

/-- V70. -/
theorem test_transmit :
    ends (step (idleS [.call 0x300400000001#48 [0xB0#8]])) (fun t =>
      t.trace == [.pinMode 4, .pinWrite 4 false, .settle 2, .lock, .emit 4 true, .emit 4 false, .emit 4 true,
        .emit 4 true, .emit 4 false, .emit 4 false, .emit 4 false, .emit 4 false, .unlock,
        .resp 0x0000000001#40 [0xB0#8]] &&
      t.line 4 == ⟨true, true, false⟩ && t.txcLen == 0#32 && t.preempt && t.st == .idle &&
      t.wave.length == 107) = true := by decide
/-- V74: step 1 is done, then the storage is refused. -/
theorem test_transmit_alloc :
    ends (step (capS 1 (idleS [.call 0x300400000002#48 [255#8, 128#8]]))) (fun t =>
      t.trace == [.pinMode 4, .pinWrite 4 false, .settle 2, .resp 0x2000000000#40 []] &&
      t.line 4 == ⟨true, true, false⟩) = true := by decide
/-- V77: WRITE, with preemption off before. -/
theorem test_write :
    ends (exec (.write 4#8 1#32) { argS [0#8] with preempt := false }) (fun t =>
      t.rsp == 1#40 && t.resbuf == [(0, 0#8)] && !t.preempt && t.wave.length == 104) = true := by decide
/-- V96: the pin is checked before the storage. -/
theorem test_write_pin :
    ends (exec (.write 200#8 2#32) (capS 1 (argS [1#8, 2#8]))) (fun t =>
      t.trace == [.resp 0x1000000000#40 []]) = true := by decide

/-! ### The remap commands -/

/-- V84: a shorter table replaces a longer one. -/
theorem test_setremap :
    ends (step { tableS [2#8, 1#8, 0#8] with feed := [.call 0x400000000001#48 [7#8]] }) (fun t =>
      t.remapPresent && t.remapLen == 1#32 && t.rmp == [(0, 7#8)] && t.trace == [.resp 0#40 []]) = true := by decide
/-- V89: refused, and the old table stands. -/
theorem test_setremap_alloc :
    ends (step (capS 4 { tableS [2#8, 1#8, 0#8] with
        feed := [.call 0x400000000005#48 [9#8, 9#8, 9#8, 9#8, 9#8]] })) (fun t =>
      t.rmp == [(0, 2#8), (1, 1#8), (2, 0#8)] && t.trace == [.resp 0x2000000000#40 []]) = true := by decide
/-- V83. -/
theorem test_getremap :
    ends (exec .getremap (tableS [2#8, 1#8, 0#8])) (fun t =>
      t.trace == [.resp 0x0100000003#40 [2#8, 1#8, 0#8]]) = true := by decide
/-- V88 against V80: an empty table and no table differ in FLAG only. -/
theorem test_getremap_empty :
    ends (exec .getremap (tableS [])) (fun t => t.rsp == 0x0100000000#40) = true ∧
    ends (exec .getremap State.reset) (fun t => t.rsp == 0x0000000000#40) = true := by decide
/-- V86. -/
theorem test_clearremap :
    ends (exec .clearremap (tableS [7#8])) (fun t =>
      t.rsp == 0x0100000000#40 && !t.remapPresent && t.remapLen == 0#32 && t.rmp == []) = true := by decide
/-- V90, V91. -/
theorem test_lookup :
    [0, 2, 3].map (tableS [2#8, 1#8, 0#8]).remapLookup = [2, 0, 3] ∧ State.reset.remapLookup 5 = 5 := by decide

/-! ### Reset and the ports -/

/-- V101: reset inside the critical section. -/
theorem test_reset_edge :
    ends (step (State.placeSymbol { tableS [1#8] with bright := 0x00004000#32, feed := [] } true |>.setFeed
        [.edge (wires true false 0#48)])) (fun t =>
      t.bright == 0x00010000#32 && !t.remapPresent && t.st == .idle && !t.lockReq && t.line 0 == Line.undriven &&
      t.preempt && t.trace == []) = true := by decide
/-- A command on the wires: accept, execute, respond (P1 step 1). -/
theorem test_edges_getbright :
    after 3 (idleS [.edge (wires false true 0x200000000000#48), .edge (wires false false 0#48)])
      (fun t => t.st == .idle && t.trace == [.resp 0x0000010000#40 []]) = true := by decide
/-- A payload on the wires, with an idle edge between (10 R22). -/
theorem test_edges_payload :
    after 4 (idleS [.edge (wires false true 0x400000000002#48), .edge (dataIn 9#8), .edge (wires false false 0#48),
        .edge (dataIn 8#8)]) (fun t => t.st == .exec && t.argbuf == [(0, 9#8), (1, 8#8)]) = true := by decide
/-- The second payload byte of a response stands on the wires (10 R22). -/
theorem test_edges_response :
    after 2 (respS [5#8, 6#8]) (fun t => t.ports.doutValid && t.ports.doutData == some 6#8) = true := by decide
/-- cmd_ready in IDLE only. -/
theorem test_ports : State.reset.ports.cmdReady = true ∧ (lockS []).ports.cmdReady = false := by decide

/-! ### Witnesses: the hypotheses of the obligations can be met -/

theorem safe_idleS (f : List Input) : (idleS f).Safe :=
  ⟨(by decide : (idleS []).BuffersExact), (by decide : (idleS []).TableOK), (by decide : (idleS []).PayloadOK),
   (by decide : (idleS []).LockOK), (by decide : (idleS []).PinsOK), (by decide : (idleS []).CopyOK),
   (by decide : (idleS []).ResponseOK)⟩

theorem safe_tableS : (tableS [2#8, 1#8, 0#8]).Safe :=
  ⟨by decide, by decide, by decide, by decide, by decide, by decide, by decide⟩

theorem safe_lockS : (lockS [0xA5#8]).Safe :=
  ⟨by decide, by decide, by decide, by decide, by decide, by decide, by decide⟩

theorem safe_cfgS : (cfgS [0xA5#8]).Safe :=
  ⟨by decide, by decide, by decide, by decide, by decide, by decide, by decide⟩

theorem safe_recvS : (recvS [5#8]).Safe ∧ (recvS []).Safe :=
  ⟨⟨by decide, by decide, by decide, by decide, by decide, by decide, by decide⟩,
   ⟨by decide, by decide, by decide, by decide, by decide, by decide, by decide⟩⟩

theorem safe_respS : (respS [5#8, 6#8]).Safe ∧ (respS []).Safe :=
  ⟨⟨by decide, by decide, by decide, by decide, by decide, by decide, by decide⟩,
   ⟨by decide, by decide, by decide, by decide, by decide, by decide, by decide⟩⟩

theorem safe_empty : (lockS []).Safe ∧ (cfgS []).Safe :=
  ⟨⟨by decide, by decide, by decide, by decide, by decide, by decide, by decide⟩,
   ⟨by decide, by decide, by decide, by decide, by decide, by decide, by decide⟩⟩

theorem test_wit_DecodeOfEncode : (Instr.transmit 255#8 0xFFFFFFFF#32).wellFormed = true := by decide
theorem test_wit_EncodeOfDecode :
    decodeCode (.command 0x30FFFFFFFFFF#48) = .ok (.transmit 255#8 0xFFFFFFFF#32) := by decide
theorem test_wit_OpcodeMapByMask :
    opcodeMap.map (fun r => r.selects 0x30FFFFFFFFFF#48) = [false, false, true, false, false, false] := by decide
theorem test_wit_SerialisedWordDecodes :
    decode 0x30C800000002#48 = .ok (.transmit 200#8 2#32) ∧ decode 0x310400000003#48 = .error .zeroField := by decide
theorem test_wit_StepRunsDecodedInstruction :
    ((idleS [.call 0x300400000001#48 [0xB0#8]]).st = .idle ∧
      decode 0x300400000001#48 = .ok (.transmit 4#8 1#32) ∧
      (Instr.transmit 4#8 1#32).payloadIn ≤ [0xB0#8].length) ∧
    ((State.reset.placeSymbol true).st = .low ∧ (State.reset.placeSymbol true).unitCnt = 0#4 ∧
      (State.reset.placeSymbol true).feed = .pulse :: []) ∧
    ((execS 0x200000000000#48 [.edge (wires false false 0#48)]).st = .exec ∧
      (wires false false 0#48).rst = false ∧ decode 0x200000000000#48 = .ok .getbright) ∧
    ((execS 0x310400000003#48 [.edge (wires false false 0#48)]).st = .exec ∧
      decode 0x310400000003#48 = .error .zeroField) := by decide
theorem test_wit_IllegalWordIsAnswered :
    (idleS [.call 0x310400000003#48 [1#8]]).Safe ∧ (idleS [.call 0x310400000003#48 [1#8]]).st = .idle ∧
    decode 0x310400000003#48 = .error .zeroField := ⟨safe_idleS _, by decide, by decide⟩
theorem test_wit_ShortPayloadWaits :
    (idleS [.call 0x300400000001#48 []]).st = .idle ∧ decode 0x300400000001#48 = .ok (.transmit 4#8 1#32) ∧
    ([] : List Byte).length < (Instr.transmit 4#8 1#32).payloadIn := by decide
theorem test_wit_GetbrightAnswers :
    ends (exec .getbright State.reset) (fun t => ends (exec .getbright (finish t)) fun _ => true) = true := by decide
theorem test_wit_SetThenGetBrightness :
    (idleS [.call 0x1000FFFF0000#48 [], .call 0x200000000000#48 []]).st = .idle ∧
    (0x1000#16 ++ 0xFFFF0000#32 : BitVec (16 + 32)) = 0x1000FFFF0000#48 := by decide
theorem test_wit_ScaleIsNearest :
    (0 ≤ scaleInt 255#8 0x00010080#32 ∧ scaleInt 255#8 0x00010080#32 ≤ 255) ∧
    (0 ≤ scaleInt 255#8 0xFFFFFF80#32 ∧ scaleInt 255#8 0xFFFFFF80#32 ≤ 255) ∧
    ¬(0 ≤ scaleInt 255#8 0x00010081#32 ∧ scaleInt 255#8 0x00010081#32 ≤ 255) ∧
    ¬(0 ≤ scaleInt 255#8 0xFFFFFF7F#32 ∧ scaleInt 255#8 0xFFFFFF7F#32 ≤ 255) := by decide
theorem test_wit_ScaleTiesGoUp :
    ((255#8 : Byte).toNat : Int) * (0x00008000#32 : Scalar).toInt = 65536 * 127 + 32768 := by decide
theorem test_wit_ScaleRange :
    (0 ≤ (0#32 : Scalar).toInt ∧ (0#32 : Scalar).toInt ≤ 0x00010000) ∧
    (0 ≤ (0x00010000#32 : Scalar).toInt ∧ (0x00010000#32 : Scalar).toInt ≤ 0x00010000) ∧
    (-128 ≤ (0xFFFFFF80#32 : Scalar).toInt ∧ (0x00010080#32 : Scalar).toInt ≤ 0x00010080) := by decide
theorem test_wit_ScaleIdentities :
    0 ≤ (0x00008000#32 : Scalar).toInt ∧ (0x00008000#32 : Scalar).toInt ≤ (0x00010000#32 : Scalar).toInt ∧
    (0x00010000#32 : Scalar).toInt ≤ 0x00010000 ∧ (3#8 : Byte).toNat ≤ (255#8 : Byte).toNat := by decide
theorem test_wit_ClearremapAnswers :
    (idleS []).Safe ∧ (idleS []).remapPresent = false ∧ ends (exec .clearremap (idleS [])) (fun _ => true) = true :=
  ⟨safe_idleS _, by decide, by decide⟩
theorem test_wit_GetremapAnswers :
    ((tableS [2#8, 1#8, 0#8]).remapPresent = true ∧
      [2#8, 1#8, 0#8].length = (tableS [2#8, 1#8, 0#8]).remapLen.toNat ∧
      ∀ j, j < [2#8, 1#8, 0#8].length → (tableS [2#8, 1#8, 0#8]).rmp.read j = [2#8, 1#8, 0#8][j]?) ∧
    (idleS []).remapPresent = false := by decide
theorem test_wit_GetremapCompletes :
    (tableS [2#8, 1#8, 0#8]).Safe ∧ (tableS [2#8, 1#8, 0#8]).remapPresent = true := ⟨safe_tableS, by decide⟩
theorem test_wit_SetremapStores :
    ([7#8].length = (1#32 : Len).toNat ∧ (∀ j, j < [7#8].length → (argS [7#8]).argbuf.read j = [7#8][j]?) ∧
      allocAnswer (capS 1 (argS [7#8])).cfg.remapAlloc 1 0 = true) ∧
    (([] : List Byte).length = (0#32 : Len).toNat ∧
      allocAnswer (capS 0 (argS [])).cfg.remapAlloc 0 0 = true) := by decide
theorem test_wit_SetremapRefusedKeepsTable :
    allocAnswer (capS 4 (tableS [2#8])).cfg.remapAlloc (5#32 : Len).toNat 0 = false := by decide
theorem test_wit_RemapStateMachine :
    ends (exec (.setremap 1#32) (argS [7#8])) (fun _ => true) = true ∧
    allocAnswer (argS [7#8]).cfg.remapAlloc 1 0 = true ∧
    ends (exec (.setremap 1#32) (capS 0 (argS [7#8]))) (fun _ => true) = true ∧
    allocAnswer (capS 0 (argS [7#8])).cfg.remapAlloc 1 0 = false ∧
    ends (exec .clearremap (tableS [7#8])) (fun _ => true) = true ∧
    ends (exec .clearremap (idleS [])) (fun _ => true) = true ∧
    ends (exec .getremap (tableS [7#8])) (fun _ => true) = true ∧
    ends (exec .getremap (idleS [])) (fun _ => true) = true ∧
    ends (exec .getbright (tableS [7#8])) (fun _ => true) = true := by decide
theorem test_wit_RemapCommandsInTurn :
    (idleS []).st = .idle ∧ (idleS []).cfg.remapAlloc = .unbounded ∧ [2#8, 1#8].length < 2 ^ 32 ∧
    (0x4000#16 ++ BitVec.ofNat 32 [2#8, 1#8].length : BitVec (16 + 32)) = 0x400000000002#48 := by decide
theorem test_wit_RemapLookupReads :
    ((tableS [2#8, 1#8]).remapPresent = true ∧ 1 < (tableS [2#8, 1#8]).remapLen.toNat ∧
      (tableS [2#8, 1#8]).rmp.read 1 = some 1#8) ∧
    (tableS [2#8, 1#8]).remapLen.toNat ≤ 2 ∧ (idleS []).remapPresent = false := by decide
theorem test_wit_Emit0Pulse : (0 : Nat) < State.reset.numLines ∧ 7 < State.reset.numLines := by decide
theorem test_wit_Emit1Pulse :
    { State.reset with lineSel := 7 }.lineSel < { State.reset with lineSel := 7 }.numLines := by decide
theorem test_wit_WaveIsUniquelyReadable : waveOf [0x80#8] = waveOf [0b10000000#8] := by decide
theorem test_wit_TransmitCompletes :
    (argS [0xB0#8]).pinLine 7#8 = some 7 ∧ allocAnswer (capS 1 (argS [0xB0#8])).cfg.txAlloc 1 1 = true ∧
    [0xB0#8].length = (1#32 : Len).toNat ∧
    (∀ j, j < [0xB0#8].length → (argS [0xB0#8]).argbuf.read j = [0xB0#8][j]?) ∧
    [0xB0#8][0]? = some 0xB0#8 ∧
    ((0xB0#8 : Byte).toNat : Int) = (((0xB0#8 : Byte).toNat : Int) * (0x00010000#32 : Scalar).toInt + 32768) / 65536 := by
  decide
theorem test_wit_TransmitFrame :
    ends (exec (.transmit 4#8 1#32) (argS [0xB0#8])) (fun _ => true) = true ∧
    ends (exec (.write 8#8 1#32) (argS [0xB0#8])) (fun _ => true) = true ∧
    (argS [0xB0#8]).pinLine 4#8 ≠ some 3 := by decide
theorem test_wit_InvalidPinIsRejected : State.reset.pinLine 8#8 = none ∧ State.reset.pinLine 255#8 = none := by decide
theorem test_wit_TransmitRefusedStorage :
    (capS 1 (argS [1#8, 2#8])).pinLine 4#8 = some 4 ∧
    allocAnswer (capS 1 (argS [1#8, 2#8])).cfg.txAlloc (2#32 : Len).toNat 1 = false := by decide
theorem test_wit_EmptyTransmit :
    (Alloc.atMost 0 ≠ .drawn ∧ State.reset.pinLine 200#8 = none) ∧
    (State.reset.pinLine 0#8 = some 0 ∧ State.reset.cfg.txAlloc ≠ .drawn) ∧
    ((lockS []).st = .lock ∧ (lockS []).txcLen = 0#32 ∧ (wires false false 0#48).rst = false ∧
      (lockS []).lockReq = false) := by decide
theorem test_wit_TransmitIgnoresRemapTable :
    ends (exec (.transmit 4#8 1#32) (argS [0xB0#8])) (fun _ => true) = true := by decide
theorem test_wit_OneAnswerAndErrorsBeforeLock :
    ends (exec .getbright State.reset) (fun _ => true) = true ∧
    ends (exec (.setbright 5#32) State.reset) (fun _ => true) = true ∧
    ends (exec .getremap (tableS [2#8, 1#8])) (fun t => (rspValue t.rsp).toNat == t.resbuf.length) = true ∧
    ends (exec (.transmit 200#8 0#32) State.reset) (fun t => rspStatus t.rsp != 0#4) = true := by decide
theorem test_wit_PreemptionIsRestored :
    ends (exec (.transmit 4#8 0#32) State.reset) (fun _ => !State.reset.lockReq) = true := by decide
theorem test_wit_BrightWrittenOnlyBySetbright :
    ends (exec (.setbright 5#32) State.reset) (fun t => t.bright != State.reset.bright) = true ∧
    ends (step (idleS [.call 0x100000008000#48 []])) (fun t => t.bright != 0x00010000#32) = true ∧
    ends (step (execS 0x100000008000#48 [])) (fun t => t.bright != 0x00010000#32) = true ∧
    ends (step { idleS [.edge (wires true false 0#48)] with bright := 5#32 }) (fun t => t.bright != 5#32) = true := by
  decide
theorem test_wit_PinsWrittenOnlyByTransmit :
    ends (exec (.transmit 4#8 0#32) State.reset) (fun t => t.line 4 != State.reset.line 4) = true ∧
    ends (exec .emit0 (lineHigh State.reset)) (fun t => t.line 0 != (lineHigh State.reset).line 0) = true := by decide
/-- The ways a step changes a line: a whole TRANSMIT, one in EXEC, CFG, the first rising edge, a reset. -/
theorem test_wit_PinsWrittenOnlyByTransmit_step :
    ends (step (idleS [.call 0x300400000000#48 []])) (fun t => t.line 4 != (idleS []).line 4) = true ∧
    ends (step (execS 0x300400000000#48 [])) (fun t => t.line 4 != (execS 0#48 []).line 4) = true ∧
    ends (step (cfgS [])) (fun t => t.line 2 != (cfgS []).line 2) = true ∧
    ends (step (lockS [0xA5#8])) (fun t => t.line 2 != (lockS [0xA5#8]).line 2) = true ∧
    ends (step { lockS [] with feed := [.edge (wires true false 0#48)] })
      (fun t => t.line 2 != (lockS []).line 2) = true := by decide
theorem test_wit_ObservationOnlyGrows :
    ends (step (idleS [.edge (wires false true 0x200000000000#48)])) (fun _ => true) = true := by decide
theorem test_wit_SafeStepNeverStops : (lockS [0xA5#8]).Safe := safe_lockS
theorem test_wit_CanonicalBuffersKept :
    (argS [1#8, 2#8]).CanonicalBuffers ∧ ends (step (argS [1#8, 2#8])) (fun _ => true) = true := by decide
theorem test_wit_InvariantsBetweenCommands : (tableS [2#8, 1#8, 0#8]).Safe ∧ (tableS [2#8, 1#8, 0#8]).st = .idle :=
  ⟨safe_tableS, by decide⟩
theorem test_wit_ParametersAreFixed :
    ends (step (idleS [.edge (wires true false 0#48)])) (fun _ => true) = true := by decide
theorem test_wit_ResetEdge :
    (wires true false 0#48).rst = true ∧ (State.reset.placeSymbol false).lockReq = true ∧
    (idleS []).lockReq = false := by decide
theorem test_wit_CommandPortWhileBusy : (lockS []).st ≠ .idle := by decide
theorem test_wit_NoWireSampledInCriticalSection :
    (State.reset.placeSymbol true).LockOK ∧ (State.reset.placeSymbol true).st.critical ∧
    (wires false false 0#48).rst = (wires false true 5#48).rst := by decide
theorem test_wit_NoWireSampledInCriticalSection_lock :
    (lockS [0xA5#8]).st = .lock ∧ (wires false false 0#48).rst = (wires false true 5#48).rst ∧
    (wires false false 0#48).preemptIn = (wires false true 5#48).preemptIn := by decide
theorem test_wit_WireCarriesTheWave :
    (lockS [0xA5#8]).Safe ∧ (lockS [0xA5#8]).st = .lock ∧ 1 ≤ (lockS [0xA5#8]).cfg.cal ∧
    [0xA5#8].length = (lockS [0xA5#8]).txcLen.toNat ∧
    (∀ j, j < [0xA5#8].length → (lockS [0xA5#8]).txc.read j = [0xA5#8][j]?) ∧
    edgesAhead 200 (lockS [0xA5#8]).feed = true ∧ (lockS []).Safe ∧
    edgesAhead 200 [.edge (wires false true 5#48), .call 0#48 []] = true :=
  ⟨safe_lockS, by decide, by decide, by decide, by decide, by decide, safe_empty.1, by decide⟩
theorem test_wit_EdgesComputeTheAlgorithm :
    (cfgS [0xA5#8]).Safe ∧ (cfgS [0xA5#8]).st = .cfg ∧ 1 ≤ (cfgS [0xA5#8]).cfg.cal ∧
    decode (cfgS [0xA5#8]).cmd = .ok (.transmit 2#8 1#32) ∧
    (cfgS [0xA5#8]).pinLine 2#8 = some (cfgS [0xA5#8]).lineSel ∧ (cfgS []).Safe ∧
    ∀ k, edgesAhead k [] = true :=
  ⟨safe_cfgS, by decide, by decide, by decide, by decide, safe_empty.2, fun k => by cases k <;> rfl⟩
theorem test_wit_SymbolStepsSendTheCopy :
    (lockS [0xA5#8]).Safe ∧ (lockS [0xA5#8]).st = .lock ∧ [0xA5#8].length = (lockS [0xA5#8]).txcLen.toNat ∧
    (∀ j, j < [0xA5#8].length → (lockS [0xA5#8]).txc.read j = [0xA5#8][j]?) ∧
    after 9 { lockS [0xA5#8] with feed := List.replicate (1 + 8 * [0xA5#8].length) .pulse ++ [] }
      (fun t => t.st == .unlock) = true := ⟨safe_lockS, by decide, by decide, by decide, by decide⟩
theorem test_wit_EdgesAgreeWithOneStep :
    (idleS []).Safe ∧ (idleS []).st = .idle ∧
    (∀ pin n, decode 0x400000000001#48 ≠ .ok (.transmit pin n)) ∧
    (∀ pin n, decode 0x310400000003#48 ≠ .ok (.transmit pin n)) ∧
    (wires false true 0x400000000001#48).cmdValid = true ∧
    (wires false true 0x400000000001#48).cmdWord = 0x400000000001#48 ∧
    [dataIn 7#8].length = wordPayload 0x400000000001#48 ∧ (∀ d ∈ [dataIn 7#8], d.dinValid = true) ∧
    (∀ e ∈ [wires false true 0x400000000001#48, wires false false 0#48, dataIn 7#8],
      e.rst = false ∧ e.preemptIn = (idleS []).preempt) ∧
    ((wires false false 0#48).rspReady = true ∧ (wires false false 0#48).doutReady = true) := by
  have h1 : decode 0x400000000001#48 = .ok (.setremap 1#32) := by decide
  have h2 : decode 0x310400000003#48 = .error .zeroField := by decide
  exact ⟨safe_idleS _, by decide, fun _ _ h => by simp [h1] at h, fun _ _ h => by simp [h2] at h,
    by decide, by decide, by decide, by decide, by decide, by decide⟩
theorem test_wit_CommandAndPayloadTransfers :
    (idleS []).st = .idle ∧ (wires false true 0x300400000000#48).cmdValid = true ∧
    0 < wordPayload 0x300400000001#48 ∧ wordPayload 0x300400000000#48 = 0 ∧ (recvS [5#8]).Safe ∧
    (recvS [5#8]).st = .recv ∧ (wires false false 0#48).dinValid = false ∧ (dataIn 7#8).dinValid = true ∧
    (recvS [5#8]).argbuf.length + 1 = wordPayload (recvS [5#8]).cmd ∧ (recvS []).Safe ∧
    (recvS []).argbuf.length + 1 < wordPayload (recvS []).cmd :=
  ⟨by decide, by decide, by decide, by decide, safe_recvS.1, by decide, by decide, by decide, by decide, safe_recvS.2,
   by decide⟩
theorem test_wit_CommandAndPayloadTransfers_idle :
    (idleS [.edge (wires false false 0#48)]).Safe ∧ (idleS [.edge (wires false false 0#48)]).st = .idle ∧
    (wires false false 0#48).cmdValid = false := ⟨safe_idleS _, by decide, by decide⟩
theorem test_wit_ResponseTransfers :
    (respS [5#8, 6#8]).Safe ∧ (respS [5#8, 6#8]).st = .resp ∧ (respS [5#8, 6#8]).rspSent = false ∧
    (respS [5#8, 6#8]).resbuf = Memory.ofBytes [5#8, 6#8] ∧ (respS []).Safe ∧
    (wires false false 0#48).rspReady = true ∧ { wires false false 0#48 with rspReady := false }.rspReady = false :=
  ⟨safe_respS.1, by decide, by decide, by decide, safe_respS.2, by decide, by decide⟩
theorem test_wit_SettleLastsAtLeast :
    (cfgS [0xA5#8]).Safe ∧ (cfgS [0xA5#8]).st = .cfg ∧
    2 ≤ (cfgS [0xA5#8]).cfg.cal * (cfgS [0xA5#8]).cfg.tSettle ∧ edgesAhead (1 + 2) (cfgS [0xA5#8]).feed = true :=
  ⟨safe_cfgS, by decide, by decide, by decide⟩
theorem test_wit_TableWrittenOnlyByRemapCommands :
    ends (step { argS [] with feed := [.call 0x400000000000#48 []] }) (fun t => t.remapPresent) = true ∧
    ends (step { tableS [7#8] with st := .exec, cmd := 0x500000000000#48 }) (fun t => !t.remapPresent) = true ∧
    ends (step { tableS [7#8] with feed := [.edge (wires true false 0#48)] }) (fun t => t.rmp == []) = true := by decide
theorem test_wit_DrivenLinesStayDriven :
    ((lockS [0xA5#8]).line 2).dir = true ∧ ((lockS [0xA5#8]).line 2).pull = true ∧
    ends (step (lockS [0xA5#8])) (fun _ => true) = true := by decide

end Sys2Proof.Machine.Test
end

section
/-! Proofs about the register state: TRANSMIT of the empty buffer (spec 41 R104) and the state after reset (10 R25). -/

namespace Sys2Proof.Machine

/-! ### The empty buffer as a whole command -/

/-- Under the capacity reading of `AllocOK` a request for no bytes is never refused (41 R104). -/
theorem allocAnswer_zero {a : Alloc} (k : Nat) (h : a ≠ .drawn) : allocAnswer a 0 k = true := by
  cases a with
  | unbounded => rfl
  | atMost cap => simp [allocAnswer]
  | drawn => exact absurd rfl h

/-- The transmit copy of the empty buffer is empty. -/
@[simp] theorem State.copyOf_nil (s : State) : s.copyOf [] = [] := rfl

/-- The empty buffer on a defined pin goes through all of rule R103, whatever ARGBUF holds. -/
theorem transmitBuffer_empty {s : State} {pin : Pin} {l : Nat} (h : s.pinLine pin = some l)
    (ha : s.cfg.txAlloc ≠ .drawn) : transmitBuffer pin 0#32 s = .next (s.transmitted l 0#32 []) :=
  transmitBuffer_ok h (allocAnswer_zero _ ha) rfl

/-- TRACE after the empty buffer: `EvUnlock` follows `EvLock` at once, and the echo is empty (41 R104). -/
theorem State.transmitted_empty_trace (s : State) (l : Nat) :
    (s.transmitted l 0#32 []).trace = s.trace ++
      [.pinMode l, .pinWrite l false, .settle s.cfg.tSettle, .lock, .unlock, .resp 0#40 []] :=
  s.transmitted_trace l 0#32 []

/-- The empty buffer puts no sample on the wire. -/
theorem State.transmitted_empty_wave (s : State) (l : Nat) (hl : l < s.numLines) :
    (s.transmitted l 0#32 []).wave = s.wave := by
  rw [s.transmitted_wave l _ _ hl]
  simp [waveOf]

/-! ### The empty copy on the wires (41 R108, rows LOCK and UNLOCK) -/

/-- A LOCK edge with an empty copy takes the critical section straight to UNLOCK. -/
theorem edge_lock_empty {s : State} {p : PortIn} (hst : s.st = .lock) (h0 : s.txcLen = 0#32) (hp : p.rst = false) :
    edge p s = .next ((s.hostPreempt p.preemptIn).lock.goto .unlock) := by
  simp [edge_of_not_rst s hp, seqEdge, hst, enterCritical, h0]

/-- While lock_req is 1 the HOST's wire does not reach PREEMPT (10 R21; log entry 14). -/
theorem State.hostPreempt_of_lockReq {s : State} (b : Bool) (h : s.lockReq = true) : s.hostPreempt b = s := by
  simp [State.hostPreempt, h]

/-- An UNLOCK edge with an empty copy ends the critical section and answers with the empty echo. -/
theorem edge_unlock_empty {s : State} {q : PortIn} (hst : s.st = .unlock) (h0 : s.txcLen = 0#32)
    (hlock : s.lockReq = true) (hq : q.rst = false) :
    edge q s = .next (respond .ok false 0#32 [] s.unlock) := by
  rw [edge_of_not_rst s hq, State.hostPreempt_of_lockReq _ hlock]
  simp [seqEdge, hst, unlockEdge, echo, readBytes, Memory.readFrom, h0]

/-- Settles O34: with no byte in the copy, rule R103 and the two clock edges of LOCK and UNLOCK both run from `Lock()`
straight to `Unlock()`. -/
theorem emptyTransmit : Obligations.EmptyTransmit := by
  refine ⟨fun _ k ha => allocAnswer_zero k ha, fun s pin hp => ?_, fun s pin l hp ha => ?_,
    fun s p q hst h0 hp hq hlock => ?_⟩
  · exact ⟨raise .ePin s, transmitBuffer_pin _ hp, transmitBuffer_pin _ hp, rfl⟩
  · have hl := State.pinLine_lt hp
    obtain ⟨hrsp, hres, -, -, -, -, -, -, hpre, -⟩ := s.transmitted_regs l 0#32 []
    exact ⟨s.transmitted l 0#32 [], transmitBuffer_empty hp ha, transmitBuffer_empty hp ha,
      s.transmitted_empty_trace l, s.transmitted_empty_wave l hl, hrsp, hres, hpre, s.transmitted_lines l _ _ hl⟩
  · refine ⟨_, _, edge_lock_empty hst h0 hp, edge_unlock_empty ?_ ?_ ?_ hq, ?_⟩ <;> simp [h0, hlock]

/-! ### Reset -/

/-- After reset no line is driven, floating or high, nor is any index beyond the lines of the block (10 R25). -/
theorem State.reset_line (l : Nat) : State.reset.line l = Line.undriven := by
  by_cases h : l < Config.testLines <;> simp [State.line, State.reset, List.getD_eq_getElem?_getD, h]

/-- Settles O47: the registers and wires stand in `State.reset` itself; the lines are those of `State.reset_line`. -/
theorem resetValues : Obligations.ResetValues :=
  ⟨rfl, rfl, rfl, fun _ => rfl, rfl, fun _ => rfl, rfl, rfl, rfl, State.reset_line, rfl, rfl, rfl, rfl⟩

end Sys2Proof.Machine
end

section
/-! Proofs about the encoding: the decoder against the pseudocode of rule R73 (spec 30). -/

namespace Sys2Proof

/-! ### The operand checks as conditions (30 R61) -/

/-- A word that must have PIN = 0 is legal exactly when it has. -/
@[simp] theorem needPinZero_toOption (w : CmdWord) (i : Instr) :
    (needPinZero w i).toOption = if pinField w = 0#8 then some i else none := by
  unfold needPinZero
  split <;> rfl

/-- A word that must have no operand is legal exactly when PIN and ARG are both 0. -/
@[simp] theorem needNoOperand_toOption (w : CmdWord) (i : Instr) :
    (needNoOperand w i).toOption = if pinField w = 0#8 ∧ argField w = 0#32 then some i else none := by
  rw [ite_and]
  unfold needNoOperand
  split
  · split <;> rfl
  · rfl

end Sys2Proof

namespace Sys2Proof.Machine

/-- Settles O3. The decoder tests OP alone and then checks the operands, where R73 tests both at once; they agree because
the rows have different opcodes, so that a word that fails its own row's check meets no later row. In the payload clause
a decoded word is no WRITE (30 R72). -/
theorem decodeIsRule73 : Obligations.DecodeIsRule73 := by
  refine ⟨fun op zero pin arg => ?_, fun w => ?_⟩
  · obtain ⟨hop, hzero, hpin, harg⟩ := fields_of_append op zero pin arg
    generalize (op ++ zero ++ pin ++ arg : BitVec (4 + 4 + 8 + 32)) = w at hop hzero hpin harg ⊢
    subst hop hzero hpin harg
    unfold decode
    by_cases hz : zeroField w = 0#4
    case neg => simp [hz, Except.toOption]
    by_cases h1 : opField w = 0x1#4
    · simp [hz, h1]
    by_cases h2 : opField w = 0x2#4
    · simp [hz, h2]
    by_cases h3 : opField w = 0x3#4
    · simp [hz, h3, Except.toOption]
    by_cases h4 : opField w = 0x4#4
    · simp [hz, h4]
    by_cases h5 : opField w = 0x5#4
    · simp [hz, h5]
    by_cases h6 : opField w = 0x6#4
    · simp [hz, h6]
    simp [hz, h1, h2, h3, h4, h5, h6, Except.toOption]
  · cases hd : decode w with
    | error e => simp [wordPayload, hd]
    | ok i =>
      rw [wordPayload_ok hd]
      cases i with
      | write pin len => cases decode_wellFormed hd
      | _ => rfl

end Sys2Proof.Machine
end

section
/-! Proofs about the pin driver: EMIT0 and EMIT1 as whole instructions (spec 40 R82, R83). -/

namespace Sys2Proof.Machine

/-- One symbol on a line of the block: all that it writes, and the pulse it puts on the wire (40 R82, R83). -/
theorem emitSymbol_eq (b : Bool) (s : State) (h : s.lineSel < s.numLines) :
    emitSymbol b s = { s with
      trace := s.trace ++ [.emit s.lineSel b],
      wave := s.wave ++ List.replicate (tH b) (s.lineSel, true) ++ List.replicate (tL b) (s.lineSel, false),
      lines := s.lines.set s.lineSel { s.line s.lineSel with out := false },
      unitCnt := (emitSymbol b s).unitCnt, presc := (emitSymbol b s).presc } := by
  apply State.ext
  case lines => exact emitSymbol_lines b s
  case wave => simp [emitSymbol_wave b s h, pulse]
  all_goals simp only [emitSymbol_frame, emitSymbol_trace]

/-- Settles O26: the symbol of data bit 0, whose figures are TH = 4 and TL = 9 (00 R4). -/
theorem emit0Pulse : Obligations.Emit0Pulse :=
  ⟨rfl, fun s h => ⟨emitSymbol false s, rfl, emitSymbol_eq false s h⟩⟩

/-- Settles O27: the symbol of data bit 1, whose figures are TH = 8 and TL = 6 (00 R4). -/
theorem emit1Pulse : Obligations.Emit1Pulse :=
  ⟨rfl, fun s h => ⟨emitSymbol true s, rfl, emitSymbol_eq true s h⟩⟩

end Sys2Proof.Machine
end

section
/-! Proofs about brightness: SETBRIGHT and GETBRIGHT as whole instructions (spec 42 R120, R121). -/

namespace Sys2Proof.Machine

/-! ### The answer of both commands: OK, no flag, no payload -/

/-- STATUS, ZERO and FLAG of an OK answer without the flag are one byte of zeros before the value (30 R65, R66). -/
theorem rspWord_ok (v : BitVec 32) : rspWord .ok false v = (0#8 ++ v : BitVec (8 + 32)) := by
  have hhead : (Status.ok.code ++ 0#3 ++ bit1 false : BitVec (4 + 3 + 1)) = 0#8 := by decide
  exact congrArg (· ++ v) hhead

/-- Everything an OK answer without flag and payload writes. -/
theorem respond_ok_nil (v : BitVec 32) (s : State) :
    respond .ok false v [] s = { s with
      rsp := (0#8 ++ v : BitVec (8 + 32)), resbuf := [], rspSent := false, doutIdx := 0, st := .resp,
      trace := s.trace ++ [.resp (0#8 ++ v : BitVec (8 + 32)) []] } := by
  rw [← rspWord_ok]
  rfl

/-! ### The two commands -/

/-- SETBRIGHT is one register write and the answer (42 R120). -/
theorem exec_setbright (v : Scalar) (s : State) :
    exec (.setbright v) s = .next (respond .ok false v [] (s.storeBright v)) := rfl

/-- GETBRIGHT is the answer alone (42 R121). -/
theorem exec_getbright (s : State) : exec .getbright s = .next (respond .ok false s.bright [] s) := rfl

/-- The word SETBRIGHT is encoded as: OP = 1, then ZERO and PIN of 0, then the scalar (30 R67). -/
theorem encode_setbright (v : Scalar) :
    encode (.setbright v) = .command (0x1000#16 ++ v : BitVec (16 + 32)) := by
  have hhead : (0x1#4 ++ 0#4 ++ 0#8 : BitVec (4 + 4 + 8)) = 0x1000#16 := by decide
  exact congrArg (fun head : BitVec 16 => Code.command (head ++ v)) hhead

/-- After GETBRIGHT both the answer and BRIGHT are what BRIGHT was before. -/
theorem getbright_next {s t : State} (h : exec .getbright s = .next t) :
    t.rsp = (0#8 ++ s.bright : BitVec (8 + 32)) ∧ t.bright = s.bright := by
  rw [exec_getbright] at h
  cases h
  simp [rspWord_ok]

/-- Settles O11: BRIGHT is stored first, and the answer then writes the response alone (`respond_ok_nil`). -/
theorem setbrightStoresAndAnswers : Obligations.SetbrightStoresAndAnswers := by
  refine fun s v => ⟨encode_setbright v, ?_⟩
  rw [exec_setbright, respond_ok_nil]
  rfl

/-- Settles O12: the second answer is the first because neither GETBRIGHT nor the response's delivery writes BRIGHT. -/
theorem getbrightAnswers : Obligations.GetbrightAnswers := by
  refine ⟨by decide, fun s => ?_, fun s t u ht hu => ?_, ?_⟩
  · rw [exec_getbright, respond_ok_nil]
  · obtain ⟨hrsp, hbright⟩ := getbright_next ht
    obtain ⟨hrsp', -⟩ := getbright_next hu
    simp [hrsp, hrsp', hbright]
  · refine ⟨_, exec_getbright State.reset, ?_⟩
    rw [respond_rsp]
    decide

end Sys2Proof.Machine
end

section
/-! Proofs about the remap table: CLEARREMAP and GETREMAP as whole instructions, and the table's state machine
(spec 43 R131, R132, R133). -/

namespace Sys2Proof.Machine

/-! ### The answer of the remap commands -/

/-- STATUS, ZERO and FLAG of an OK answer with the flag are the byte 1 before the value (30 R65, R66). -/
theorem rspWord_ok_flag (v : BitVec 32) : rspWord .ok true v = (0x01#8 ++ v : BitVec (8 + 32)) := by
  have hhead : (Status.ok.code ++ 0#3 ++ bit1 true : BitVec (4 + 3 + 1)) = 0x01#8 := by decide
  exact congrArg (· ++ v) hhead

/-- An OK answer without a value is its flag alone. -/
theorem rspWord_ok_zero (f : Bool) :
    rspWord .ok f 0#32 = if f then 0x0100000000#40 else 0x0000000000#40 := by
  cases f <;> decide

/-- Everything a response writes. -/
theorem respond_eq (c : Status) (f : Bool) (v : BitVec 32) (bs : List Byte) (s : State) :
    respond c f v bs s = { s with
      rsp := rspWord c f v, resbuf := Memory.ofBytes bs, rspSent := false, doutIdx := 0, st := .resp,
      trace := s.trace ++ [.resp (rspWord c f v) bs] } := rfl

/-- A buffer made of the first `n` bytes of another holds those bytes and nothing else. -/
theorem Memory.read_ofBytes_of_readFrom {m : Memory} {n : Nat} {bs : List Byte} (h : m.readFrom 0 n = .ok bs)
    (j : Nat) : (Memory.ofBytes bs).read j = if j < n then m.read j else none := by
  obtain ⟨hlen, hread⟩ := (Memory.readFrom_eq_ok m 0 n bs).1 h
  rw [Memory.read_ofBytes]
  split
  · next hj => rw [← hread j hj, Nat.zero_add]
  · next hj => exact List.getElem?_eq_none (by omega)

/-! ### CLEARREMAP -/

/-- CLEARREMAP drops the table and answers with the old REMAP_PRESENT (43 R131). -/
theorem exec_clearremap (s : State) :
    exec .clearremap s = .next (respond .ok s.remapPresent 0#32 [] s.dropTable) := rfl

/-- In a safe state a table that is absent has no length and no bytes (10 R13, R14). -/
theorem State.Safe.absent_table {s : State} (h : s.Safe) (hp : s.remapPresent = false) :
    s.remapLen = 0#32 ∧ s.rmp = [] := by
  obtain ⟨⟨hrmp, -⟩, ⟨hlen, -⟩, -⟩ := h
  have h0 := hlen hp
  rw [h0] at hrmp
  exact ⟨h0, List.eq_nil_of_length_eq_zero (Memory.dense_length hrmp)⟩

/-- Settles O18: on an absent table CLEARREMAP writes the values that `State.Safe.absent_table` says are there. -/
theorem clearremapAnswers : Obligations.ClearremapAnswers := by
  refine ⟨by decide, fun s => ?_, fun s t hs hp ht => ?_⟩
  · rw [exec_clearremap, respond_eq, rspWord_ok_zero]
    rfl
  · obtain ⟨hlen, hrmp⟩ := hs.absent_table hp
    rw [exec_clearremap] at ht
    cases ht
    simp [hp, hlen, hrmp]

/-! ### GETREMAP -/

/-- GETREMAP of a table that can be read answers all of it (43 R132). -/
theorem exec_getremap_present {s : State} {bs : List Byte} (hp : s.remapPresent = true)
    (hb : s.rmp.readFrom 0 s.remapLen.toNat = .ok bs) :
    exec .getremap s = .next (respond .ok true s.remapLen bs s) := by
  show execGetremap s = _
  rw [execGetremap, if_pos hp, readBytes_ok _ hb, remapFlag, hp]

/-- GETREMAP of no table answers the absent signal (43 R132). -/
theorem exec_getremap_absent {s : State} (hp : s.remapPresent = false) :
    exec .getremap s = .next (respond .ok false 0#32 [] s) := by
  show execGetremap s = _
  rw [execGetremap, if_neg (by simp [hp]), remapFlag, hp]

/-- Settles O19: the bytes of the table are what a read of RMP from index 0 gives. -/
theorem getremapAnswers : Obligations.GetremapAnswers := by
  refine ⟨by decide, fun s bs hp hlen hread => ?_, fun s hp => ?_⟩
  · have hb : s.rmp.readFrom 0 s.remapLen.toNat = .ok bs :=
      (Memory.readFrom_eq_ok _ _ _ _).2 ⟨hlen, fun j hj => by rw [Nat.zero_add, hread j (by omega)]⟩
    rw [exec_getremap_present hp hb, respond_eq, rspWord_ok_flag]
  · rw [exec_getremap_absent hp, respond_ok_nil]
    rfl

/-! ### The table's state machine (43 R133) -/

/-- However TRANSMIT ends, it leaves the table alone (43 R133). -/
theorem transmitBuffer_keeps_table {s t : State} {pin : Pin} {n : Len} (h : transmitBuffer pin n s = .next t) :
    t.remapPresent = s.remapPresent ∧ t.remapLen = s.remapLen ∧ t.rmp = s.rmp := by
  obtain ⟨-, rfl⟩ | ⟨l, -, -, rfl⟩ | ⟨l, bs, -, -, -, rfl⟩ := transmitBuffer_next h
  · simp [raise_eq]
  · simp [raise_eq]
  · obtain ⟨-, -, hpresent, hlen, hrmp, -⟩ := s.transmitted_keeps l n bs
    exact ⟨hpresent, hlen, hrmp⟩

/-- Only SETREMAP and CLEARREMAP write the table (43 R133). -/
theorem exec_keeps_table {i : Instr} {s t : State} (h : exec i s = .next t) (hset : ∀ n, i ≠ .setremap n)
    (hclear : i ≠ .clearremap) :
    t.remapPresent = s.remapPresent ∧ t.remapLen = s.remapLen ∧ t.rmp = s.rmp := by
  obtain ⟨v, -, rfl⟩ | ⟨-, rfl⟩ | ⟨pin, n, -, ht⟩ | ⟨n, hi, -⟩ | ⟨hi, -⟩ | ⟨-, hg⟩ | ⟨b, -, rfl⟩ := exec_next h
  · simp
  · simp
  · exact transmitBuffer_keeps_table ht
  · exact absurd hi (hset n)
  · exact absurd hi hclear
  · obtain ⟨-, rfl⟩ | ⟨bs, -, -, rfl⟩ := execGetremap_next hg <;> simp
  · simp

/-- Settles O23, row by row: what SETREMAP, CLEARREMAP and GETREMAP can do when they end, and `exec_keeps_table`
for the rest. -/
theorem remapStateMachine : Obligations.RemapStateMachine := by
  refine ⟨rfl, fun s t n h => ?_, fun s t h => ?_, fun s t h => ?_, fun i s t h hset hclear => ?_⟩
  · obtain ⟨hno, rfl⟩ | ⟨bs, hok, hb, rfl⟩ := execSetremap_next h
    · exact ⟨fun hyes => absurd (hno.symm.trans hyes) Bool.false_ne_true, fun _ => ⟨rfl, rfl, rfl, rfl⟩⟩
    · exact ⟨fun _ => ⟨rfl, rfl, rfl, rfl, Memory.read_ofBytes_of_readFrom hb⟩,
        fun hno => absurd (hno.symm.trans hok) Bool.false_ne_true⟩
  · rw [exec_clearremap] at h
    cases h
    exact ⟨rfl, rfl, fun hp => by simp [hp, rspWord_ok_zero], fun hp => by simp [hp, rspWord_ok_zero]⟩
  · obtain ⟨hno, rfl⟩ | ⟨bs, hyes, hb, rfl⟩ := execGetremap_next h
    · exact ⟨fun hp => absurd (hno.symm.trans hp) Bool.false_ne_true, fun _ => ⟨rfl, rfl⟩⟩
    · refine ⟨fun _ => ⟨rspWord_ok_flag _, fun j hj => ?_⟩,
        fun hp => absurd (hp.symm.trans hyes) Bool.false_ne_true⟩
      rw [respond_resbuf, Memory.read_ofBytes_of_readFrom hb, if_pos hj]
  · exact exec_keeps_table h hset hclear

end Sys2Proof.Machine
end

section
/-! Proofs about errors: what an error response writes, an illegal word and an undefined pin (spec 60 R146, R148, R150). -/

namespace Sys2Proof.Machine

/-! ### The error response (60 R150) -/

/-- Everything an error response writes: an error brings no flag, no value and no payload. -/
theorem raise_writes (c : Status) (s : State) :
    raise c s = { s with
      rsp := rspWord c false 0#32, resbuf := [], rspSent := false, doutIdx := 0, st := .resp,
      trace := s.trace ++ [.resp (rspWord c false 0#32) []] } := by
  rw [raise_eq, respond_eq]
  rfl

/-- In an idle block without remains of an earlier command, an error that has been raised and delivered leaves its answer
in RSP and TRACE and nothing else. -/
theorem finish_raise_of_idle (c : Status) {s : State} (hst : s.st = .idle) (htxc : s.txc = []) (hlen : s.txcLen = 0#32)
    (hres : s.resbuf = []) (hsent : s.rspSent = false) (hdout : s.doutIdx = 0) :
    finish (raise c s) = { s with
      rsp := rspWord c false 0#32, trace := s.trace ++ [.resp (rspWord c false 0#32) []] } := by
  rw [raise_writes]
  simp [finish, hst, htxc, hlen, hres, hsent, hdout]

/-! ### An undefined pin (60 R146) -/

/-- E_PIN as a response word: STATUS = 1 and zeros (30 R65, R66). -/
theorem rspWord_ePin : rspWord .ePin false 0#32 = 0x1000000000#40 := by decide

/-- TRANSMIT is rule R103. -/
theorem exec_transmit (pin : Pin) (n : Len) (s : State) : exec (.transmit pin n) s = transmitBuffer pin n s := rfl

/-- WRITE is TRANSMIT (30 R72). -/
theorem exec_write (pin : Pin) (n : Len) (s : State) : exec (.write pin n) s = exec (.transmit pin n) s := rfl

/-- Settles O32: the pin is looked up first, so the error response is all there is (`transmitBuffer_pin`). -/
theorem invalidPinIsRejected : Obligations.InvalidPinIsRejected := by
  refine fun s pin n hpin => ⟨?_, exec_write pin n s⟩
  rw [exec_transmit, transmitBuffer_pin n hpin, raise_writes, rspWord_ePin]

/-! ### An illegal word (60 R148) -/

/-- E_ILLEGAL as a response word: STATUS = 3 and zeros (30 R65, R66). -/
theorem rspWord_eIllegal : rspWord .eIllegal false 0#32 = 0x3000000000#40 := by decide

/-- An illegal word brings no payload buffer (30 R64). -/
theorem wordTakesPayload_error {w : CmdWord} {e : DecodeError} (h : decode w = .error e) :
    wordTakesPayload w = false := by
  simp [wordTakesPayload, h]

/-- Taking an illegal word writes CMD alone: ARGBUF stays as it was. -/
theorem State.latch_error {w : CmdWord} {e : DecodeError} (s : State) (h : decode w = .error e) :
    s.latch w = { s with cmd := w } := by
  simp [State.latch, wordTakesPayload_error h]

/-- A whole command whose word is illegal: CMD, then the error and its delivery, whatever payload was offered. -/
theorem callStep_error {w : CmdWord} {e : DecodeError} (payload : List Byte) (s : State) (h : decode w = .error e) :
    callStep w payload s = .next (finish (raise .eIllegal { s with cmd := w })) := by
  rw [← State.latch_error s h]
  simp [callStep, h]

/-- Settles O9: taking the word writes CMD alone, and what the delivery of the response clears was already clear, since a
safe idle state holds nothing of a command past (`State.Safe.idle`). -/
theorem illegalWordIsAnswered : Obligations.IllegalWordIsAnswered := by
  intro s w payload rest e hs hst hfeed hdec
  obtain ⟨htxc, hlen, hres, hsent, hdout, -⟩ := hs.idle hst
  rw [step_call_idle hfeed hst, callStep_error payload _ hdec,
    finish_raise_of_idle (s := { s.setFeed rest with cmd := w }) .eIllegal hst htxc hlen hres hsent hdout,
    rspWord_eIllegal]
  rfl

end Sys2Proof.Machine
end

section
/-! Proofs about the encoding: decoder and encoder against each other, the opcode map by mask and match, serialised
words (spec 30 R67 to R69, R72, 20 R41). -/

namespace Sys2Proof

/-! ### Decoding what was encoded -/

/-- The decoder on a word put together from its fields: ZERO is 0, and the field checks read the fields back. -/
theorem decode_commandWord (op : BitVec 4) (pin : Pin) (arg : BitVec 32) :
    decode (commandWord op pin arg) =
      if op = 0x1#4 then (if pin = 0#8 then .ok (.setbright arg) else .error .pinField)
      else if op = 0x2#4 then
        (if pin = 0#8 then (if arg = 0#32 then .ok .getbright else .error .argField) else .error .pinField)
      else if op = 0x3#4 then .ok (.transmit pin arg)
      else if op = 0x4#4 then (if pin = 0#8 then .ok (.setremap arg) else .error .pinField)
      else if op = 0x5#4 then
        (if pin = 0#8 then (if arg = 0#32 then .ok .clearremap else .error .argField) else .error .pinField)
      else if op = 0x6#4 then
        (if pin = 0#8 then (if arg = 0#32 then .ok .getremap else .error .argField) else .error .pinField)
      else .error .reservedOpcode := by
  obtain ⟨hop, hzero, hpin, harg⟩ := commandWord_fields op pin arg
  simp [decode, needPinZero, needNoOperand, hop, hzero, hpin, harg]

/-- The decoder reads back every instruction's code, as the core instruction it stands for (30 R67, R69, R72). -/
theorem decodeCode_encode (i : Instr) : decodeCode (encode i) = .ok i.canonical := by
  cases i with
  | emit0 => rfl
  | emit1 => rfl
  | _ => simp [encode, decodeCode, decode_commandWord, Instr.canonical]

/-- A well-formed instruction is its own core instruction. -/
theorem Instr.canonical_of_wellFormed {i : Instr} (h : i.wellFormed = true) : i.canonical = i := by
  cases i with
  | write pin len => cases h
  | _ => rfl

/-! ### Encoding what was decoded -/

/-- A word whose ZERO field is 0 is the command word of its other fields. -/
theorem commandWord_of_fields {w : CmdWord} (h : zeroField w = 0#4) :
    commandWord (opField w) (pinField w) (argField w) = w := by
  have := append_of_fields w
  rw [h] at this
  exact this.symm

/-- Every word that decodes is the word of what it decodes to: the decoder has checked each field it does not keep
(30 R67). -/
theorem encode_of_decode {w : CmdWord} {i : Instr} (h : decode w = .ok i) : encode i = .command w := by
  unfold decode needPinZero needNoOperand at h
  split at h
  · cases h
  next hz =>
  have hzero := not_not.1 hz
  repeat' split at h
  all_goals cases h
  all_goals refine congrArg Code.command (Eq.trans ?_ (commandWord_of_fields hzero)); simp only [*]

/-- A word decodes to a core instruction exactly when it is its word. -/
theorem decode_eq_ok_iff {w : CmdWord} {i : Instr} (hi : i.wellFormed = true) :
    decode w = .ok i ↔ encode i = .command w := by
  refine ⟨encode_of_decode, fun h => ?_⟩
  have := decodeCode_encode i
  rwa [h, i.canonical_of_wellFormed hi] at this

/-! ### Masks (30 R67) -/

/-- Two words are equal exactly when their fields are. -/
theorem word_eq_iff (w v : CmdWord) : w = v ↔
    opField w = opField v ∧ zeroField w = zeroField v ∧ pinField w = pinField v ∧ argField w = argField v := by
  refine ⟨by rintro rfl; simp, fun ⟨hop, hzero, hpin, harg⟩ => ?_⟩
  rw [append_of_fields w, append_of_fields v, hop, hzero, hpin, harg]

/-- A mask works on each field by itself. -/
theorem fields_and (w m : CmdWord) :
    opField (w &&& m) = opField w &&& opField m ∧ zeroField (w &&& m) = zeroField w &&& zeroField m ∧
    pinField (w &&& m) = pinField w &&& pinField m ∧ argField (w &&& m) = argField w &&& argField m := by
  simp only [opField, zeroField, pinField, argField, BitVec.extractLsb'_and, and_self]

/-- A word under a mask, field by field. -/
theorem and_eq_iff (w m v : CmdWord) : w &&& m = v ↔
    opField w &&& opField m = opField v ∧ zeroField w &&& zeroField m = zeroField v ∧
    pinField w &&& pinField m = pinField v ∧ argField w &&& argField m = argField v := by
  obtain ⟨hop, hzero, hpin, harg⟩ := fields_and w m
  rw [word_eq_iff, hop, hzero, hpin, harg]

/-- The words of a command by OP and the two fields that must be 0. -/
theorem eq_commandWord_iff (w : CmdWord) (op : BitVec 4) (pin : Pin) (arg : BitVec 32) :
    commandWord op pin arg = w ↔ opField w = op ∧ zeroField w = 0#4 ∧ pinField w = pin ∧ argField w = arg := by
  obtain ⟨hop, hzero, hpin, harg⟩ := commandWord_fields op pin arg
  rw [eq_comm, word_eq_iff, hop, hzero, hpin, harg]

/-- The mask 0xF keeps a four-bit field. -/
theorem and_mask4 (x : BitVec 4) : x &&& 0xF#4 = x := BitVec.and_allOnes

/-- The mask 0xFF keeps a byte. -/
theorem and_mask8 (x : BitVec 8) : x &&& 0xFF#8 = x := BitVec.and_allOnes

/-- The mask of TRANSMIT's row keeps OP and ZERO. -/
theorem and_opMask_iff (w : CmdWord) (op : BitVec 4) :
    w &&& 0xFF0000000000#48 = commandWord op 0#8 0#32 ↔ opField w = op ∧ zeroField w = 0#4 := by
  obtain ⟨hop, hzero, hpin, harg⟩ := commandWord_fields op 0#8 0#32
  have mop : opField 0xFF0000000000#48 = 0xF#4 := by decide
  have mzero : zeroField 0xFF0000000000#48 = 0xF#4 := by decide
  have mpin : pinField 0xFF0000000000#48 = 0#8 := by decide
  have marg : argField 0xFF0000000000#48 = 0#32 := by decide
  simp only [and_eq_iff, hop, hzero, hpin, harg, mop, mzero, mpin, marg, and_mask4, BitVec.and_zero, and_true]

/-- The mask of the rows with PIN = 0 and any ARG keeps OP, ZERO and PIN. -/
theorem and_pinMask_iff (w : CmdWord) (op : BitVec 4) :
    w &&& 0xFFFF00000000#48 = commandWord op 0#8 0#32 ↔
      opField w = op ∧ zeroField w = 0#4 ∧ pinField w = 0#8 := by
  obtain ⟨hop, hzero, hpin, harg⟩ := commandWord_fields op 0#8 0#32
  have mop : opField 0xFFFF00000000#48 = 0xF#4 := by decide
  have mzero : zeroField 0xFFFF00000000#48 = 0xF#4 := by decide
  have mpin : pinField 0xFFFF00000000#48 = 0xFF#8 := by decide
  have marg : argField 0xFFFF00000000#48 = 0#32 := by decide
  simp only [and_eq_iff, hop, hzero, hpin, harg, mop, mzero, mpin, marg, and_mask4, and_mask8, BitVec.and_zero,
    and_true]

/-- The full mask keeps the word. -/
theorem and_fullMask (w : CmdWord) : w &&& 0xFFFFFFFFFFFF#48 = w := BitVec.and_allOnes

/-! ### The rows of the opcode map (30 R67, R68) -/

theorem decode_setbright_iff (w : CmdWord) :
    decode w = .ok (.setbright (argField w)) ↔ w &&& 0xFFFF00000000#48 = 0x100000000000#48 := by
  rw [decode_eq_ok_iff rfl, show (0x100000000000#48 : CmdWord) = commandWord 0x1#4 0#8 0#32 by decide,
    and_pinMask_iff, encode, Code.command.injEq, eq_commandWord_iff]
  simp

theorem decode_setremap_iff (w : CmdWord) :
    decode w = .ok (.setremap (argField w)) ↔ w &&& 0xFFFF00000000#48 = 0x400000000000#48 := by
  rw [decode_eq_ok_iff rfl, show (0x400000000000#48 : CmdWord) = commandWord 0x4#4 0#8 0#32 by decide,
    and_pinMask_iff, encode, Code.command.injEq, eq_commandWord_iff]
  simp

theorem decode_transmit_iff (w : CmdWord) :
    decode w = .ok (.transmit (pinField w) (argField w)) ↔ w &&& 0xFF0000000000#48 = 0x300000000000#48 := by
  rw [decode_eq_ok_iff rfl, show (0x300000000000#48 : CmdWord) = commandWord 0x3#4 0#8 0#32 by decide,
    and_opMask_iff, encode, Code.command.injEq, eq_commandWord_iff]
  simp

/-- A command without operands has one word. -/
theorem decode_fixed_iff {w v : CmdWord} {i : Instr} (hi : i.wellFormed = true) (hv : encode i = .command v) :
    decode w = .ok i ↔ w = v := by
  rw [decode_eq_ok_iff hi, hv, Code.command.injEq, eq_comm]

/-- The six commands a word can decode to, with their operands in its fields. -/
theorem decode_ok_cases {w : CmdWord} {i : Instr} (h : decode w = .ok i) :
    i = .setbright (argField w) ∨ i = .getbright ∨ i = .transmit (pinField w) (argField w) ∨
    i = .setremap (argField w) ∨ i = .clearremap ∨ i = .getremap := by
  unfold decode needPinZero needNoOperand at h
  repeat' split at h
  all_goals cases h
  all_goals simp

/-- A word is legal exactly when the decoder accepts it (30 R68). -/
theorem legalWord_iff (w : CmdWord) : legalWord w = true ↔ ∃ i, decode w = .ok i := by
  have rows : legalWord w = true ↔
      decode w = .ok (.setbright (argField w)) ∨ decode w = .ok .getbright ∨
      decode w = .ok (.transmit (pinField w) (argField w)) ∨ decode w = .ok (.setremap (argField w)) ∨
      decode w = .ok .clearremap ∨ decode w = .ok .getremap := by
    rw [decode_setbright_iff, decode_setremap_iff, decode_transmit_iff,
      decode_fixed_iff (v := 0x200000000000#48) rfl (by decide),
      decode_fixed_iff (v := 0x500000000000#48) rfl (by decide),
      decode_fixed_iff (v := 0x600000000000#48) rfl (by decide)]
    simp [legalWord, opcodeMap, OpRow.selects, and_fullMask]
  rw [rows]
  constructor
  · rintro (h | h | h | h | h | h) <;> exact ⟨_, h⟩
  · rintro ⟨i, h⟩
    obtain rfl | rfl | rfl | rfl | rfl | rfl := decode_ok_cases h <;> simp [h]

/-- A row's mask keeps OP, so the words a row selects have the OP of its pattern. -/
theorem opField_of_selects {w : CmdWord} {r : OpRow} (hr : r ∈ opcodeMap) (h : r.selects w = true) :
    opField w = opField r.pattern := by
  have hmask : ∀ q ∈ opcodeMap, opField q.mask = 0xF#4 := by decide
  have heq : w &&& r.mask = r.pattern := by simpa [OpRow.selects] using h
  obtain ⟨hop, -⟩ := (and_eq_iff _ _ _).1 heq
  rwa [hmask r hr, and_mask4] at hop

/-- No word selects two rows: the patterns differ in OP (30 R67). -/
theorem opcodeMap_disjoint {w : CmdWord} {r q : OpRow} (hr : r ∈ opcodeMap) (hq : q ∈ opcodeMap)
    (h : r.selects w = true) (h' : q.selects w = true) : r = q := by
  have hops : ∀ r ∈ opcodeMap, ∀ q ∈ opcodeMap, opField r.pattern = opField q.pattern → r = q := by decide
  exact hops r hr q hq ((opField_of_selects hr h).symm.trans (opField_of_selects hq h'))

/-! ### Serialised words (20 R41) -/

/-- Cutting a word into bytes and reading them back gives the word. -/
theorem bytesWord_wordBytes (w : CmdWord) :
    bytesWord (w.extractLsb' 40 8) (w.extractLsb' 32 8) (w.extractLsb' 24 8) (w.extractLsb' 16 8)
      (w.extractLsb' 8 8) (w.extractLsb' 0 8) = w := by
  unfold bytesWord
  rw [BitVec.extractLsb'_append_extractLsb'_eq_extractLsb' (start₂ := 40) (start₁ := 32) rfl,
    BitVec.extractLsb'_append_extractLsb'_eq_extractLsb' (start₂ := 32) (start₁ := 24) rfl,
    BitVec.extractLsb'_append_extractLsb'_eq_extractLsb' (start₂ := 24) (start₁ := 16) rfl,
    BitVec.extractLsb'_append_extractLsb'_eq_extractLsb' (start₂ := 16) (start₁ := 8) rfl,
    BitVec.extractLsb'_append_extractLsb'_eq_extractLsb' (start₂ := 8) (start₁ := 0) rfl]
  exact BitVec.extractLsb'_eq_self

/-- Decoding a serialised word is decoding the word; the bytes after it are left. -/
theorem decodeBytes_wordBytes (w : CmdWord) (rest : List Byte) :
    decodeBytes (wordBytes w ++ rest) = (decode w).map (fun i => (i, rest)) := by
  simp only [wordBytes, List.cons_append, List.nil_append, decodeBytes, bytesWord_wordBytes]
  cases decode w <;> rfl

end Sys2Proof

namespace Sys2Proof.Machine

/-! ### The response word (30 R65, R66) -/

/-- The fields of a response word, read back. -/
theorem rspWord_fields (c : Status) (f : Bool) (v : BitVec 32) :
    rspStatus (rspWord c f v) = c.code ∧ rspZero (rspWord c f v) = 0#3 ∧ rspFlag (rspWord c f v) = f ∧
    rspValue (rspWord c f v) = v := by
  unfold rspWord rspStatus rspZero rspFlag rspValue
  refine ⟨?_, ?_, ?_, BitVec.extractLsb'_append_eq_right⟩
  · rw [BitVec.extractLsb'_append_eq_of_le (by omega), BitVec.extractLsb'_append_eq_of_le (by omega)]
    exact BitVec.extractLsb'_append_eq_left
  · rw [BitVec.extractLsb'_append_eq_of_le (by omega), BitVec.extractLsb'_append_eq_of_le (by omega),
      BitVec.extractLsb'_append_eq_of_add_le (by omega)]
    exact BitVec.extractLsb'_eq_self
  · rw [BitVec.getLsbD_append, if_neg (by omega), BitVec.getLsbD_append, if_pos (by omega)]
    cases f <;> rfl

/-! ### The statements -/

/-- Settles O1: the encoder puts each operand into its field with ZERO = 0, and the decoder reads the fields back. -/
theorem decodeOfEncode : Obligations.DecodeOfEncode :=
  fun i => ⟨decodeCode_encode i, i.canonical_of_wellFormed⟩

/-- Settles O2, for a command word by `encode_of_decode`, for a data bit by its two values. -/
theorem encodeOfDecode : Obligations.EncodeOfDecode := by
  intro c i h
  cases c with
  | command w => exact ⟨decode_wellFormed h, encode_of_decode h⟩
  | symbol b =>
    cases h
    obtain rfl | rfl : b = 0#1 ∨ b = 1#1 := BitVec.eq_zero_or_eq_one b
    · exact ⟨rfl, rfl⟩
    · exact ⟨rfl, rfl⟩

/-- Settles O4: under its mask a row's pattern fixes OP and the fields that must be 0. -/
theorem opcodeMapByMask : Obligations.OpcodeMapByMask := by
  intro w
  refine ⟨decode_setbright_iff w, decode_fixed_iff rfl (by decide), decode_transmit_iff w, decode_setremap_iff w,
    decode_fixed_iff rfl (by decide), decode_fixed_iff rfl (by decide), ?_, fun r hr q hq => opcodeMap_disjoint hr hq⟩
  rw [← Bool.not_eq_true, legalWord_iff]
  cases decode w <;> simp

/-- Settles O6: the six bytes put together again are the word (`bytesWord_wordBytes`). -/
theorem serialisedWordDecodes : Obligations.SerialisedWordDecodes := by
  refine fun w rest => ⟨rfl, fun i h => ?_, fun e h => ?_⟩
  · rw [decodeBytes_wordBytes, h]; rfl
  · rw [decodeBytes_wordBytes, h]; rfl

/-- Settles O7: the fields of `rspWord_fields`, with the numbers of rule R66. -/
theorem responseWordFields : Obligations.ResponseWordFields := by
  intro c f v
  obtain ⟨hstatus, hrest⟩ := rspWord_fields c f v
  refine ⟨?_, hrest⟩
  rw [hstatus]
  cases c <;> rfl

/-- Settles O5, word by word. -/
theorem sampleWordsDecode : Obligations.SampleWordsDecode := by
  unfold Obligations.SampleWordsDecode
  decide

end Sys2Proof.Machine
end

section
/-! What one step can do, said once: a reset edge, one instruction, or a row that keeps the settings (spec 10 R22, 41
R108). Who may write what, and what only grows, are read off from it. -/

namespace Sys2Proof.Machine

/-! ### What a row of the transition table keeps -/

/-- From `s` to `t` the parameters stay, TRACE and the waveform grow and canonical buffers stay canonical. -/
structure State.Grows (s t : State) : Prop where
  cfg : t.cfg = s.cfg
  trace : ∃ es, t.trace = s.trace ++ es
  wave : ∃ ws, t.wave = s.wave ++ ws
  buffers : s.CanonicalBuffers → t.CanonicalBuffers

/-- From `s` to `t` BRIGHT and the table stay too. -/
structure State.Keeps (s t : State) : Prop extends s.Grows t where
  bright : t.bright = s.bright
  table : t.remapPresent = s.remapPresent ∧ t.remapLen = s.remapLen ∧ t.rmp = s.rmp

theorem State.Grows.trans {s t u : State} (h : s.Grows t) (h' : t.Grows u) : s.Grows u where
  cfg := h'.cfg.trans h.cfg
  trace := by
    obtain ⟨es, hes⟩ := h.trace
    obtain ⟨fs, hfs⟩ := h'.trace
    exact ⟨es ++ fs, by rw [hfs, hes, List.append_assoc]⟩
  wave := by
    obtain ⟨ws, hws⟩ := h.wave
    obtain ⟨xs, hxs⟩ := h'.wave
    exact ⟨ws ++ xs, by rw [hxs, hws, List.append_assoc]⟩
  buffers := h'.buffers ∘ h.buffers

theorem State.Grows.refl (s : State) : s.Grows s :=
  ⟨rfl, ⟨[], (List.append_nil _).symm⟩, ⟨[], (List.append_nil _).symm⟩, id⟩

theorem State.Keeps.refl (s : State) : s.Keeps s := ⟨.refl s, rfl, rfl, rfl, rfl⟩

theorem State.Keeps.trans {s t u : State} (h : s.Keeps t) (h' : t.Keeps u) : s.Keeps u where
  toGrows := h.toGrows.trans h'.toGrows
  bright := h'.bright.trans h.bright
  table := by
    obtain ⟨hpresent, hlen, hrmp⟩ := h.table
    rw [← hpresent, ← hlen, ← hrmp]
    exact h'.table

/-- A change of the sequencer's registers and the pins that appends to TRACE and to the waveform. -/
theorem State.Keeps.of_append {s t : State} (es : List Event) (ws : List (Nat × Bool))
    (h : t = { s with
      cmd := t.cmd, rsp := t.rsp, lineSel := t.lineSel, byteIdx := t.byteIdx, bitIdx := t.bitIdx, shreg := t.shreg,
      unitCnt := t.unitCnt, presc := t.presc, settleCnt := t.settleCnt, st := t.st, savedPreempt := t.savedPreempt,
      lockReq := t.lockReq, rspSent := t.rspSent, doutIdx := t.doutIdx, txcLen := t.txcLen, lines := t.lines,
      preempt := t.preempt, feed := t.feed, draws := t.draws,
      trace := s.trace ++ es, wave := s.wave ++ ws }) : s.Keeps t := by
  rw [h]
  exact ⟨⟨rfl, ⟨es, rfl⟩, ⟨ws, rfl⟩, id⟩, rfl, rfl, rfl, rfl⟩

/-- A change of the sequencer's registers and the pins that records nothing. -/
theorem State.Keeps.of_eq {s t : State}
    (h : t = { s with
      cmd := t.cmd, rsp := t.rsp, lineSel := t.lineSel, byteIdx := t.byteIdx, bitIdx := t.bitIdx, shreg := t.shreg,
      unitCnt := t.unitCnt, presc := t.presc, settleCnt := t.settleCnt, st := t.st, savedPreempt := t.savedPreempt,
      lockReq := t.lockReq, rspSent := t.rspSent, doutIdx := t.doutIdx, txcLen := t.txcLen, lines := t.lines,
      preempt := t.preempt, feed := t.feed, draws := t.draws }) : s.Keeps t := by
  rw [h]
  exact ⟨⟨rfl, ⟨[], (List.append_nil _).symm⟩, ⟨[], (List.append_nil _).symm⟩, id⟩, rfl, rfl, rfl, rfl⟩

/-- A buffer is written anew and nothing else: it is canonical if what it holds is. -/
theorem State.Keeps.of_buffers {s t : State}
    (h : t = { s with
      argbuf := t.argbuf, txc := t.txc, resbuf := t.resbuf, byteIdx := t.byteIdx, txcLen := t.txcLen, draws := t.draws,
      cmd := t.cmd, rspSent := t.rspSent, doutIdx := t.doutIdx, st := t.st })
    (hbuf : s.CanonicalBuffers → t.argbuf.wf = true ∧ t.txc.wf = true ∧ t.resbuf.wf = true) : s.Keeps t := by
  refine ⟨⟨?_, ⟨[], ?_⟩, ⟨[], ?_⟩, fun hs => ?_⟩, ?_, ?_⟩
  case refine_4 =>
    obtain ⟨harg, htxc, hres⟩ := hbuf hs
    obtain ⟨-, -, hrmp, -⟩ := hs
    exact ⟨harg, htxc, by rw [h]; exact hrmp, hres⟩
  all_goals rw [h]
  · exact (List.append_nil _).symm
  · exact (List.append_nil _).symm
  · exact ⟨rfl, rfl, rfl⟩

/-- A response appends its event and makes RESBUF afresh. -/
theorem keeps_respond (c : Status) (f : Bool) (v : BitVec 32) (bs : List Byte) (s : State) :
    s.Keeps (respond c f v bs s) :=
  ⟨⟨rfl, ⟨[.resp (rspWord c f v) bs], rfl⟩, ⟨[], (List.append_nil _).symm⟩,
    fun ⟨harg, htxc, hrmp, _⟩ => ⟨harg, htxc, hrmp, Memory.wf_ofBytes bs⟩⟩, rfl, rfl, rfl, rfl⟩

theorem keeps_raise (c : Status) (s : State) : s.Keeps (raise c s) := keeps_respond c false 0#32 [] s

/-- The end of a response empties TXC and RESBUF. -/
theorem keeps_finish (s : State) : s.Keeps (finish s) :=
  .of_buffers rfl fun ⟨harg, _⟩ => ⟨harg, rfl, rfl⟩

theorem keeps_dropCopy (s : State) : s.Keeps s.dropCopy :=
  .of_buffers rfl fun ⟨harg, _, _, hres⟩ => ⟨harg, rfl, hres⟩

theorem keeps_storeCopy (n : Len) (bs : List Byte) (s : State) : s.Keeps (s.storeCopy n bs) :=
  .of_buffers rfl fun ⟨harg, _, _, hres⟩ => ⟨harg, Memory.wf_ofBytes _, hres⟩

theorem keeps_takeByte (b : Byte) (s : State) : s.Keeps (s.takeByte b) :=
  .of_buffers rfl fun ⟨harg, htxc, _, hres⟩ => ⟨Memory.wf_write _ _ _ harg, htxc, hres⟩

theorem keeps_latch (w : CmdWord) (s : State) : s.Keeps (s.latch w) := by
  refine .of_buffers rfl fun ⟨harg, htxc, _, hres⟩ => ⟨?_, htxc, hres⟩
  unfold State.latch
  split
  · rfl
  · exact harg

theorem keeps_issue (w : CmdWord) (bs : List Byte) (s : State) : s.Keeps (s.issue w bs) := by
  refine .of_buffers rfl fun ⟨harg, htxc, _, hres⟩ => ⟨?_, htxc, hres⟩
  unfold State.issue
  split
  · exact Memory.wf_ofBytes _
  · exact harg

theorem keeps_goto (q : SeqState) (s : State) : s.Keeps (s.goto q) := .of_eq rfl

theorem keeps_setFeed (f : List Input) (s : State) : s.Keeps (s.setFeed f) := .of_eq rfl

theorem keeps_hostPreempt (b : Bool) (s : State) : s.Keeps (s.hostPreempt b) := by
  unfold State.hostPreempt
  split
  · exact .refl s
  · exact .of_eq rfl

theorem keeps_pinMode (l : Nat) (s : State) : s.Keeps (s.pinMode l) :=
  .of_append [.pinMode l] [] (by rw [List.append_nil]; rfl)

theorem keeps_pinWrite (l : Nat) (b : Bool) (s : State) : s.Keeps (s.pinWrite l b) :=
  .of_append [.pinWrite l b] [] (by rw [List.append_nil]; rfl)

theorem keeps_startSettle (s : State) : s.Keeps s.startSettle := .of_eq rfl

theorem keeps_endSettle (s : State) : s.Keeps s.endSettle :=
  .of_append [.settle s.cfg.tSettle] [] (by rw [List.append_nil]; rfl)

theorem keeps_configure (l : Nat) (s : State) : s.Keeps (s.configure l) :=
  ((((State.Keeps.of_eq (t := s.selectLine l) rfl).trans (keeps_pinMode l _)).trans (keeps_pinWrite l false _)).trans
    (keeps_startSettle _)).trans (keeps_endSettle _)

theorem keeps_asked (s : State) : s.Keeps s.asked := .of_eq rfl

theorem keeps_lock (s : State) : s.Keeps s.lock := .of_append [.lock] [] (by rw [List.append_nil]; rfl)

theorem keeps_unlock (s : State) : s.Keeps s.unlock := .of_append [.unlock] [] (by rw [List.append_nil]; rfl)

theorem keeps_level (l : Nat) (b : Bool) (s : State) : s.Keeps (s.level l b) := .of_eq rfl

theorem keeps_delayUnits (n : Nat) (s : State) : s.Keeps (s.delayUnits n) := by
  unfold State.delayUnits
  split
  · exact .refl s
  · exact .of_append [] (List.replicate n s.levelNow) (by rw [List.append_nil])

theorem keeps_emitSymbol (b : Bool) (s : State) : s.Keeps (emitSymbol b s) :=
  ((((State.Keeps.of_append [.emit s.lineSel b] [] (by rw [List.append_nil]; rfl)).trans (keeps_level _ _ _)).trans
    (keeps_delayUnits _ _)).trans (keeps_level _ _ _)).trans (keeps_delayUnits _ _)

theorem keeps_sendBit (j : BitVec 3) (s : State) : s.Keeps (sendBit j s) :=
  (State.Keeps.of_eq (t := s.setBit j) rfl).trans (keeps_emitSymbol _ _)

theorem keeps_sendByte (k : Nat) (v : Byte) (s : State) : s.Keeps (sendByte k v s) := by
  rw [sendByte_eq]
  refine (State.Keeps.of_eq (t := s.loadByte (BitVec.ofNat 32 k) v) rfl).trans ?_
  generalize s.loadByte (BitVec.ofNat 32 k) v = u
  exact (((((((keeps_sendBit _ u).trans (keeps_sendBit _ _)).trans (keeps_sendBit _ _)).trans (keeps_sendBit _ _)).trans
    (keeps_sendBit _ _)).trans (keeps_sendBit _ _)).trans (keeps_sendBit _ _)).trans (keeps_sendBit _ _)

theorem keeps_sendBytes (vs : List Byte) (k : Nat) (s : State) : s.Keeps (sendBytes vs k s) := by
  induction vs generalizing k s with
  | nil => exact .refl s
  | cons v vs ih => exact (keeps_sendByte k v s).trans (ih _ _)

/-- However TRANSMIT ends, the settings stay (41 R95, R112). -/
theorem keeps_transmitBuffer {pin : Pin} {n : Len} {s t : State}
    (h : transmitBuffer pin n s = .next t) : s.Keeps t := by
  obtain ⟨-, rfl⟩ | ⟨l, -, -, rfl⟩ | ⟨l, bs, -, -, -, rfl⟩ := transmitBuffer_next h
  · exact keeps_raise _ s
  · exact ((keeps_configure l s).trans (keeps_asked _)).trans (keeps_raise _ _)
  · exact (((((((keeps_configure l s).trans (keeps_asked _)).trans (keeps_storeCopy n bs _)).trans (keeps_lock _)).trans
      (keeps_sendBytes _ 0 _)).trans (keeps_unlock _)).trans (keeps_respond _ _ _ _ _)).trans (keeps_dropCopy _)

/-- From `s` to `t` a row of the transition table has been taken: the settings stay, and of the pins at most LINE_SEL's
change, to a floating output at 0 in CFG, in their level alone from LOCK to LOW (41 R108). -/
structure State.Row (s t : State) : Prop where
  keeps : s.Keeps t
  lines : t.lines = s.lines ∨
    (s.st = .cfg ∧ t.lines = s.lines.set s.lineSel ⟨true, true, false⟩) ∨
    ((s.st = .lock ∨ s.st = .high ∨ s.st = .low) ∧
      t.lines = s.lines.set s.lineSel { s.line s.lineSel with out := decide (t.st = .high) })

/-- A row taken from `u` is one taken from `s` if `u` is `s` but for what the HOST does. -/
theorem State.Row.of_keeps {s u t : State} (h : s.Keeps u) (hlines : u.lines = s.lines) (hsel : u.lineSel = s.lineSel)
    (hst : u.st = s.st) (hrow : u.Row t) : s.Row t := by
  refine ⟨h.trans hrow.keeps, ?_⟩
  have hline : u.line s.lineSel = s.line s.lineSel := by simp [State.line, hlines]
  have := hrow.lines
  rwa [hlines, hsel, hst, hline] at this

/-! ### The rows (41 R108) -/

/-- Execution starts: the sequencer moves, or E_PIN is answered. -/
theorem row_startCommand (s : State) : s.Row (startCommand s) := by
  obtain ⟨pin, n, -, h⟩ | ⟨-, h⟩ := startCommand_cases s
  · obtain ⟨-, h'⟩ | ⟨l, -, -, h'⟩ := resolvePin_cases pin s
    · rw [h, h']
      exact ⟨keeps_raise _ s, .inl (by simp [raise_eq])⟩
    · rw [h, h']
      exact ⟨.of_eq rfl, .inl rfl⟩
  · rw [h]
    exact ⟨.of_eq rfl, .inl rfl⟩

theorem row_acceptWord (w : CmdWord) (s : State) : s.Row (acceptWord w s) := by
  unfold acceptWord
  split
  · exact ⟨(keeps_latch w s).trans (.of_eq rfl), .inl rfl⟩
  · exact .of_keeps (keeps_latch w s) rfl rfl rfl (row_startCommand _)

theorem row_recvEdge (p : PortIn) (s : State) : s.Row (recvEdge p s) := by
  unfold recvEdge
  split
  · split
    · exact ⟨keeps_takeByte _ s, .inl rfl⟩
    · exact .of_keeps (keeps_takeByte _ s) rfl rfl rfl (row_startCommand _)
  · exact ⟨.refl s, .inl rfl⟩

/-- The lines after the two pin writes of step 1, on any index (41 R97). -/
theorem State.pinWrite_pinMode_lines (s : State) (l : Nat) :
    ((s.pinMode l).pinWrite l false).lines = s.lines.set l ⟨true, true, false⟩ := by
  by_cases hl : l < s.numLines
  · have h1 : (s.pinMode l).lines = s.lines.set l { s.line l with dir := true, pull := true } := rfl
    have h2 := State.line_of_lines h1 l
    rw [if_pos ⟨rfl, hl⟩] at h2
    rw [State.pinWrite_lines, h1, List.set_set]
    show s.lines.set l { (s.pinMode l).line l with out := false } = _
    rw [h2]
  · have hl' : s.lines.length ≤ l := Nat.le_of_not_lt hl
    rw [State.pinWrite_lines, State.pinMode_lines, List.set_set, List.set_eq_of_length_le hl',
      List.set_eq_of_length_le hl']

theorem row_cfgEdge {s : State} (h : s.st = .cfg) : s.Row (cfgEdge s) := by
  refine ⟨?_, .inr (.inl ⟨h, ?_⟩)⟩
  · exact ((((keeps_pinMode _ s).trans (keeps_pinWrite _ _ _)).trans (keeps_startSettle _)).trans (.of_eq rfl)).trans
      (keeps_goto _ _)
  · simp only [cfgEdge, State.goto_frame, State.setPresc_frame, State.startSettle_frame, State.pinWrite_pinMode_lines]

/-- A clock cycle within a time-unit is a row that moves PRESC. -/
theorem row_setPresc (n : Nat) (s : State) : s.Row (s.setPresc n) :=
  ⟨.of_eq rfl, .inl rfl⟩

theorem row_settleEdge {s t : State} (h : settleEdge s = .next t) : s.Row t := by
  unfold settleEdge at h
  split at h
  · cases h
    exact ⟨.of_append [.settle s.cfg.tSettle] [] (by rw [List.append_nil]; rfl), .inl rfl⟩
  · obtain ⟨-, hu⟩ | ⟨-, hu⟩ := unitClock_cases s fun t => .next t.settleTick
    · rw [hu] at h; cases h; exact row_setPresc _ s
    · rw [hu] at h; cases h
      exact .of_keeps (row_setPresc 0 s).keeps rfl rfl rfl
        ⟨.of_eq rfl, .inl rfl⟩

theorem row_scaleEdge {s t : State} (h : scaleEdge s = .next t) : s.Row t := by
  obtain ⟨-, rfl⟩ | ⟨bs, -, -, ht⟩ := withCopy_next h
  · exact ⟨(keeps_asked s).trans (keeps_raise _ _), .inl (by simp [raise_eq])⟩
  · cases ht
    exact ⟨((keeps_asked s).trans (keeps_storeCopy (argField s.cmd) bs _)).trans (.of_eq rfl), .inl rfl⟩

/-- The rising edge of a pulse. -/
theorem row_startPulse {s : State} (h : s.st = .lock ∨ s.st = .high ∨ s.st = .low) : s.Row (startPulse s) := by
  refine ⟨.of_append [.emit s.lineSel s.bitNow] [] (by rw [List.append_nil]; rfl), .inr (.inr ⟨h, ?_⟩)⟩
  rw [startPulse_lines, startPulse_st, decide_eq_true rfl]

/-- The critical section is entered: with an empty copy the row is done, else `k` finishes it. -/
theorem row_enterCritical {s t : State} {k : State → Res} (h : enterCritical s k = .next t)
    (hk : ∀ v, k (s.lock.loadByte 0#32 v) = .next t → (s.lock.loadByte 0#32 v).Row t) : s.Row t := by
  obtain ⟨-, rfl⟩ | ⟨v, -, -, ht⟩ := enterCritical_next h
  · exact ⟨(keeps_lock s).trans (.of_eq rfl), .inl rfl⟩
  · exact .of_keeps (u := s.lock.loadByte 0#32 v) ((keeps_lock s).trans (.of_eq rfl)) rfl rfl rfl (hk v ht)

/-- `NextBit()`'s index part moves indices and the sequencer only. -/
theorem nextIndex_keeps {s t : State} (h : nextIndex s = .next t) :
    s.Keeps t ∧ t.lines = s.lines ∧ t.lineSel = s.lineSel ∧ (t.st = s.st ∨ t.st = .unlock) := by
  obtain ⟨-, rfl⟩ | ⟨v, -, -, -, rfl⟩ | ⟨-, -, rfl⟩ := nextIndex_next h
  · exact ⟨.of_eq rfl, rfl, rfl, .inl rfl⟩
  · exact ⟨.of_eq rfl, rfl, rfl, .inl rfl⟩
  · exact ⟨.of_eq rfl, rfl, rfl, .inr rfl⟩

theorem row_nextBit {s t : State} (hst : s.st = .low) (h : nextBit s = .next t) : s.Row t := by
  obtain ⟨u, hu, ht⟩ := andThen_next h
  obtain ⟨hkeeps, hlines, hsel, hst'⟩ := nextIndex_keeps hu
  cases ht
  split
  · exact ⟨hkeeps, .inl hlines⟩
  · next hne =>
    have hlow : u.st = s.st := hst'.resolve_right hne
    exact .of_keeps hkeeps hlines hsel hlow (row_startPulse (.inr (.inr (hlow.trans hst))))

theorem keeps_sampled (s : State) : s.Keeps s.sampled :=
  .of_append [] [s.levelNow] (by rw [List.append_nil]; rfl)

theorem row_setUnits (n : Nat) (s : State) : s.Row (s.setUnits n) :=
  ⟨.of_eq rfl, .inl rfl⟩

/-- A time-unit of HIGH ends: the next one begins, or the falling edge. -/
theorem row_highUnit {s : State} (h : s.st = .high) : s.Row (highUnit s) := by
  unfold highUnit
  split
  · exact row_setUnits _ s
  · exact ⟨.of_eq rfl, .inr (.inr ⟨.inr (.inl h), rfl⟩)⟩

theorem row_lowUnit {s t : State} (hst : s.st = .low) (h : lowUnit s = .next t) : s.Row t := by
  unfold lowUnit at h
  split at h
  · cases h; exact row_setUnits _ s
  · exact row_nextBit hst h

/-- A clock cycle of a pulse: PRESC moves, or the time-unit is sampled and ends. -/
theorem row_pulseClock {s t : State} {k : State → Res} (h : unitClock s (fun u => k u.sampled) = .next t)
    (hk : k (s.setPresc 0).sampled = .next t → (s.setPresc 0).sampled.Row t) : s.Row t := by
  obtain ⟨-, hu⟩ | ⟨-, hu⟩ := unitClock_cases s fun u => k u.sampled
  · rw [hu] at h; cases h; exact row_setPresc _ s
  · rw [hu] at h
    exact .of_keeps ((row_setPresc 0 s).keeps.trans (keeps_sampled _)) rfl rfl rfl (hk h)

theorem row_lowEdge {s t : State} (hst : s.st = .low) (h : lowEdge s = .next t) : s.Row t := by
  unfold lowEdge at h
  split at h
  · cases h; exact row_startPulse (.inr (.inr hst))
  · exact row_pulseClock h (row_lowUnit hst)

theorem row_highEdge {s t : State} (hst : s.st = .high) (h : highEdge s = .next t) : s.Row t :=
  row_pulseClock (k := fun u => .next (highUnit u)) h fun h' => by cases h'; exact row_highUnit hst

theorem row_unlockEdge {s t : State} (h : unlockEdge s = .next t) : s.Row t := by
  obtain ⟨bs, -, ht⟩ := readBytes_next h
  cases ht
  exact ⟨(keeps_unlock s).trans (keeps_respond _ _ _ _ _), .inl (by simp)⟩

theorem row_respEdge (p : PortIn) (s : State) : s.Row (respEdge p s) := by
  obtain h | ⟨-, -, h⟩ | ⟨-, -, h⟩ | h := respEdge_cases p s
  · rw [h]; exact ⟨.refl s, .inl rfl⟩
  · rw [h]; exact ⟨.of_eq rfl, .inl rfl⟩
  · rw [h]; exact ⟨.of_eq rfl, .inl rfl⟩
  · rw [h]; exact ⟨keeps_finish s, .inl (by simp)⟩

/-- Every row but EXEC's. -/
theorem row_seqEdge {p : PortIn} {s t : State} (h : seqEdge p s = .next t) (hst : s.st ≠ .exec) : s.Row t := by
  unfold seqEdge at h
  split at h
  next => cases h; split; exacts [row_acceptWord _ s, ⟨.refl s, .inl rfl⟩]
  next => cases h; exact row_recvEdge p s
  next hs => exact absurd hs hst
  next hs => cases h; exact row_cfgEdge hs
  next => exact row_settleEdge h
  next => exact row_scaleEdge h
  next hs => exact row_enterCritical h fun v hv => by cases hv; exact row_startPulse (.inl hs)
  next hs => exact row_highEdge hs h
  next hs => exact row_lowEdge hs h
  next => exact row_unlockEdge h
  next => cases h; exact row_respEdge p s

/-! ### Instructions -/

/-- Every instruction keeps the settings but SETBRIGHT, SETREMAP and CLEARREMAP (10 R11, R12). -/
theorem exec_keeps {i : Instr} {s t : State} (h : exec i s = .next t) :
    s.Keeps t ∨ (∃ v, i = .setbright v ∧ t = respond .ok false v [] (s.storeBright v)) ∨
    (∃ n bs, i = .setremap n ∧ t = respond .ok false 0#32 [] (s.asked.storeTable n bs)) ∨
    (i = .clearremap ∧ t = respond .ok s.remapPresent 0#32 [] s.dropTable) := by
  obtain ⟨v, hi, ht⟩ | ⟨-, rfl⟩ | ⟨pin, n, -, ht⟩ | ⟨n, hi, hs⟩ | ⟨hi, ht⟩ | ⟨-, hg⟩ | ⟨b, -, rfl⟩ := exec_next h
  · exact .inr (.inl ⟨v, hi, ht⟩)
  · exact .inl (keeps_respond _ _ _ _ s)
  · exact .inl (keeps_transmitBuffer ht)
  · obtain ⟨-, rfl⟩ | ⟨bs, -, -, ht⟩ := execSetremap_next hs
    · exact .inl ((keeps_asked s).trans (keeps_raise _ _))
    · exact .inr (.inr (.inl ⟨n, bs, hi, ht⟩))
  · exact .inr (.inr (.inr ⟨hi, ht⟩))
  · obtain ⟨-, rfl⟩ | ⟨bs, -, -, rfl⟩ := execGetremap_next hg
    · exact .inl (keeps_respond _ _ _ _ s)
    · exact .inl (keeps_respond _ _ _ _ s)
  · exact .inl (keeps_emitSymbol b s)

/-- Every instruction that completes lets the observation grow and keeps the buffers canonical. -/
theorem exec_grows {i : Instr} {s t : State} (h : exec i s = .next t) : s.Grows t := by
  obtain hk | ⟨v, -, rfl⟩ | ⟨n, bs, -, rfl⟩ | ⟨-, rfl⟩ := exec_keeps h
  · exact hk.toGrows
  · exact State.Grows.trans (t := s.storeBright v)
      ⟨rfl, ⟨[], (List.append_nil _).symm⟩, ⟨[], (List.append_nil _).symm⟩, id⟩
      (keeps_respond _ _ _ _ _).toGrows
  · exact State.Grows.trans (t := s.asked.storeTable n bs)
      ⟨rfl, ⟨[], (List.append_nil _).symm⟩, ⟨[], (List.append_nil _).symm⟩,
        fun ⟨harg, htxc, _, hres⟩ => ⟨harg, htxc, Memory.wf_ofBytes bs, hres⟩⟩ (keeps_respond _ _ _ _ _).toGrows
  · exact State.Grows.trans (t := s.dropTable)
      ⟨rfl, ⟨[], (List.append_nil _).symm⟩, ⟨[], (List.append_nil _).symm⟩,
        fun ⟨harg, htxc, _, hres⟩ => ⟨harg, htxc, rfl, hres⟩⟩ (keeps_respond _ _ _ _ _).toGrows

/-- The lines after step 1, on any index (41 R97). -/
theorem State.configure_lines_set (s : State) (l : Nat) :
    (s.configure l).lines = s.lines.set l ⟨true, true, false⟩ := by
  simp only [State.configure, State.endSettle_frame, State.startSettle_frame, State.pinWrite_pinMode_lines,
    State.selectLine_frame]

/-- However TRANSMIT ends, at most the resolved line has changed (41 R96). -/
theorem transmitBuffer_lines {s t : State} {pin : Pin} {n : Len} (h : transmitBuffer pin n s = .next t) :
    t.lines = s.lines ∨ ∃ l, s.pinLine pin = some l ∧ t.lines = s.lines.set l ⟨true, true, false⟩ := by
  obtain ⟨-, rfl⟩ | ⟨l, hl, -, rfl⟩ | ⟨l, bs, hl, -, -, rfl⟩ := transmitBuffer_next h
  · exact .inl (by simp [raise_eq])
  · exact .inr ⟨l, hl, by simp [raise_eq, State.configure_lines_set]⟩
  · exact .inr ⟨l, hl, s.transmitted_lines l n bs (State.pinLine_lt hl)⟩

/-- The lines after an instruction: TRANSMIT makes the resolved line a floating output at 0, a symbol leaves LINE_SEL
low, and nothing else writes a line (10 R19). -/
theorem exec_lines {i : Instr} {s t : State} (h : exec i s = .next t) :
    t.lines = s.lines ∨
    (∃ pin n l, (i = .transmit pin n ∨ i = .write pin n) ∧ s.pinLine pin = some l ∧
      t.lines = s.lines.set l ⟨true, true, false⟩) ∨
    ((i = .emit0 ∨ i = .emit1) ∧ t.lines = s.lines.set s.lineSel { s.line s.lineSel with out := false }) := by
  obtain ⟨v, -, rfl⟩ | ⟨-, rfl⟩ | ⟨pin, n, hi, ht⟩ | ⟨n, -, hs⟩ | ⟨-, rfl⟩ | ⟨-, hg⟩ | ⟨b, hi, rfl⟩ := exec_next h
  · exact .inl (by simp)
  · exact .inl (by simp)
  · obtain hsame | ⟨l, hl, hset⟩ := transmitBuffer_lines ht
    · exact .inl hsame
    · exact .inr (.inl ⟨pin, n, l, hi, hl, hset⟩)
  · obtain ⟨-, rfl⟩ | ⟨bs, -, -, rfl⟩ := execSetremap_next hs
    · exact .inl (by simp [raise_eq])
    · exact .inl (by simp)
  · exact .inl (by simp)
  · obtain ⟨-, rfl⟩ | ⟨bs, -, -, rfl⟩ := execGetremap_next hg
    · exact .inl (by simp)
    · exact .inl (by simp)
  · refine .inr (.inr ⟨?_, emitSymbol_lines b s⟩)
    cases b
    · exact .inl hi
    · exact .inr hi

/-! ### One step -/

/-- Between two symbols a symbol is the instruction SHREG[BIT_IDX] selects, and then the position moves on. -/
theorem pulseStep_symbol {s : State} (h : s.atSymbol = true) :
    pulseStep s = andThen (exec (symbolOf s.bitNow) s) nextIndex := if_pos h

/-- From LOCK a symbol enters the critical section. -/
theorem pulseStep_lock {s : State} (h : s.st = .lock) :
    pulseStep s = enterCritical s fun t => .next (((t.goto .low).setUnits 0).setPresc 0) := by
  have ha : ¬s.atSymbol = true := by simp [State.atSymbol, h]
  rw [pulseStep, if_neg ha, if_pos h]

/-- At any other place the time of a symbol is a quiet edge. -/
theorem pulseStep_other {s : State} (h : ¬s.atSymbol = true) (h' : s.st ≠ .lock) : pulseStep s = edge s.quiet s := by
  rw [pulseStep, if_neg h, if_neg h']

/-- The four kinds of step: a clock edge, a symbol between two symbols, a symbol that enters the critical section, and a
whole command in IDLE. A quiet edge is an edge too, and only an edge the HOST drives can be a reset edge. -/
theorem step_cases (s : State) :
    (∃ p f, step s = edge p (s.setFeed f) ∧ (p.rst = true → s.feed = .edge p :: f)) ∨
    (∃ f, s.feed = .pulse :: f ∧ s.atSymbol = true ∧
      step s = andThen (exec (symbolOf s.bitNow) (s.setFeed f)) nextIndex) ∨
    (∃ f, s.feed = .pulse :: f ∧ s.st = .lock ∧
      step s = enterCritical (s.setFeed f) fun t => .next (((t.goto .low).setUnits 0).setPresc 0)) ∨
    (∃ w bs f, s.feed = .call w bs :: f ∧ s.st = .idle ∧ step s = callStep w bs (s.setFeed f)) := by
  have hq : s.setFeed s.feed = s := rfl
  have hquiet : ∀ u : State, u.quiet.rst = true → u.feed = .edge u.quiet :: u.feed := fun u hu => by cases hu
  cases hf : s.feed with
  | nil => exact .inl ⟨s.quiet, s.feed, by rw [step_nil hf, hq], hf ▸ hquiet s⟩
  | cons x f =>
    cases x with
    | edge p => exact .inl ⟨p, f, step_edge hf, fun _ => rfl⟩
    | pulse =>
      rw [step_pulse hf]
      by_cases ha : s.atSymbol = true
      · exact .inr (.inl ⟨f, rfl, ha, pulseStep_symbol ha⟩)
      · by_cases hl : s.st = .lock
        · exact .inr (.inr (.inl ⟨f, rfl, hl, pulseStep_lock hl⟩))
        · exact .inl ⟨(s.setFeed f).quiet, f, pulseStep_other ha hl, fun hr => by cases hr⟩
    | call w bs =>
      by_cases hi : s.st = .idle
      · exact .inr (.inr (.inr ⟨w, bs, f, rfl, hi, step_call_idle hf hi⟩))
      · exact .inl ⟨s.quiet, s.feed, by rw [step_call_busy hf hi, hq], hf ▸ hquiet s⟩

/-- A whole symbol on LINE_SEL is a row of LOW: the line ends low. -/
theorem row_symbol {s t u : State} {b : Bool} (hst : s.st = .low) (h : exec (symbolOf b) s = .next u)
    (h' : nextIndex u = .next t) : s.Row t := by
  have hu : u = emitSymbol b s := by cases b <;> cases h <;> rfl
  subst hu
  obtain ⟨hkeeps, hlines, -, hst'⟩ := nextIndex_keeps h'
  refine ⟨(keeps_emitSymbol b s).trans hkeeps, .inr (.inr ⟨.inr (.inr hst), ?_⟩)⟩
  have hne : t.st ≠ .high := by
    obtain hs | hs := hst' <;> simp [hs, hst]
  rw [hlines, emitSymbol_lines, decide_eq_false hne]

/-- The instruction `i` that a step from `s` runs: a whole command from IDLE, or the command in EXEC. -/
def State.Runs (s : State) (i : Instr) : Prop :=
  (∃ w payload rest, s.feed = .call w payload :: rest ∧ s.st = .idle ∧ decode w = .ok i) ∨
  (s.st = .exec ∧ decode s.cmd = .ok i)

/-- Everything a step can do when it answers a next state: reset, a row, or one instruction, run on `s` with what the
HOST does taken and perhaps followed by the end of the response. -/
theorem step_next {s t : State} (h : step s = .next t) :
    (∃ p rest, s.feed = .edge p :: rest ∧ p.rst = true ∧ t = resetEdge ((s.setFeed rest).hostPreempt p.preemptIn)) ∨
    s.Row t ∨
    (∃ i u v, s.Runs i ∧ s.Keeps u ∧ u.lines = s.lines ∧ exec i u = .next v ∧ (t = v ∨ t = finish v)) := by
  obtain ⟨p, f, he, hr⟩ | ⟨f, -, ha, he⟩ | ⟨f, -, hl, he⟩ | ⟨w, bs, f, hf, hi, he⟩ := step_cases s
  all_goals rw [he] at h
  · have hk := (keeps_setFeed f s).trans (keeps_hostPreempt p.preemptIn (s.setFeed f))
    have hlines : ((s.setFeed f).hostPreempt p.preemptIn).lines = s.lines := by simp
    have hsel : ((s.setFeed f).hostPreempt p.preemptIn).lineSel = s.lineSel := by simp
    have hst : ((s.setFeed f).hostPreempt p.preemptIn).st = s.st := by simp
    have hcmd : ((s.setFeed f).hostPreempt p.preemptIn).cmd = s.cmd := by simp
    by_cases hrst : p.rst = true
    · rw [edge, if_pos hrst] at h
      cases h
      exact .inl ⟨p, f, hr hrst, hrst, rfl⟩
    rw [edge, if_neg hrst] at h
    by_cases hexec : s.st = .exec
    · simp only [seqEdge, hst, hexec] at h
      unfold execEdge at h
      rw [hcmd] at h
      split at h
      · next i hd => exact .inr (.inr ⟨i, _, t, .inr ⟨hexec, hd⟩, hk, hlines, h, .inl rfl⟩)
      · cases h
        exact .inr (.inl (.of_keeps hk hlines hsel hst ⟨keeps_raise _ _, .inl (by simp [raise_eq])⟩))
    · exact .inr (.inl (.of_keeps hk hlines hsel hst (row_seqEdge h (by rw [hst]; exact hexec))))
  · have hlow : s.st = .low := by
      simp only [State.atSymbol, Bool.and_eq_true, beq_iff_eq] at ha
      exact ha.1
    obtain ⟨u, hu, ht⟩ := andThen_next h
    exact .inr (.inl (.of_keeps (keeps_setFeed f s) rfl rfl rfl (row_symbol hlow hu ht)))
  · refine .inr (.inl (.of_keeps (keeps_setFeed f s) rfl rfl rfl (row_enterCritical h fun v hv => ?_)))
    cases hv
    exact ⟨.of_eq rfl, .inl rfl⟩
  · unfold callStep at h
    split at h
    · cases h
      exact .inr (.inl ⟨(((keeps_setFeed f s).trans (keeps_latch w _)).trans (keeps_raise _ _)).trans (keeps_finish _),
        .inl (by simp [raise_eq])⟩)
    · next i hd =>
      have hk := (keeps_setFeed f s).trans (keeps_issue w bs _)
      split at h
      · cases h
        exact .inr (.inl ⟨hk.trans (keeps_goto _ _), .inl rfl⟩)
      · obtain ⟨v, hv, ht⟩ := andThen_next h
        cases ht
        exact .inr (.inr ⟨i, _, v, .inl ⟨w, bs, f, hf, hi, hd⟩, hk, rfl, hv, .inr rfl⟩)

/-! ### Lines -/

/-- A line that differs after one line has been replaced is the replaced one. -/
theorem State.line_changed {s t : State} {m l : Nat} {x : Line} (h : t.lines = s.lines.set m x)
    (hne : t.line l ≠ s.line l) : l = m ∧ t.line l = x := by
  rw [State.line_of_lines h] at hne ⊢
  split at hne
  · next hc => exact ⟨hc.1, if_pos hc⟩
  · exact absurd rfl hne

/-- With the same lines every line has the same bits. -/
theorem State.line_congr {s t : State} (h : t.lines = s.lines) (l : Nat) : t.line l = s.line l := by
  simp [State.line, h]

/-- PIN_MAP is resolved by the parameters and the number of lines. -/
theorem State.pinLine_congr {s t : State} (hcfg : t.cfg = s.cfg) (h : t.numLines = s.numLines) (pin : Pin) :
    t.pinLine pin = s.pinLine pin := by
  simp only [State.pinLine, hcfg, h]

/-- The lines of a step's outcome: as before, or one line replaced, which stays driven and floating if it was. A reset
edge apart. -/
theorem step_lines {s t : State} (h : step s = .next t) (hr : ∀ p rest, s.feed = .edge p :: rest → p.rst = false) :
    t.lines = s.lines ∨ ∃ l x, t.lines = s.lines.set l x ∧ ((s.line l).dir = true → x.dir = true) ∧
      ((s.line l).pull = true → x.pull = true) := by
  obtain ⟨p, rest, hf, hrst, -⟩ | hrow | ⟨i, u, v, -, -, hlines, hv, ht⟩ := step_next h
  · rw [hr p rest hf] at hrst
    cases hrst
  · obtain hl | ⟨-, hl⟩ | ⟨-, hl⟩ := hrow.lines
    · exact .inl hl
    · exact .inr ⟨_, _, hl, fun _ => rfl, fun _ => rfl⟩
    · exact .inr ⟨_, _, hl, id, id⟩
  · have htv : t.lines = v.lines := by obtain rfl | rfl := ht <;> simp
    rw [htv, ← hlines]
    simp only [← State.line_congr hlines]
    obtain hl | ⟨-, -, l, -, -, hl⟩ | ⟨-, hl⟩ := exec_lines hv
    · exact .inl hl
    · exact .inr ⟨_, _, hl, fun _ => rfl, fun _ => rfl⟩
    · exact .inr ⟨_, _, hl, id, id⟩

/-! ### What only grows -/

/-- Every step but a reset edge keeps the parameters and the canonical buffers and lets the observation grow. -/
theorem step_grows {s t : State} (h : step s = .next t) :
    s.Grows t ∨ ∃ p rest, s.feed = .edge p :: rest ∧ p.rst = true ∧
      t = resetEdge ((s.setFeed rest).hostPreempt p.preemptIn) := by
  obtain hreset | hrow | ⟨i, u, v, -, hk, -, hv, rfl | rfl⟩ := step_next h
  · exact .inr hreset
  · exact .inl hrow.keeps.toGrows
  · exact .inl (hk.toGrows.trans (exec_grows hv))
  · exact .inl ((hk.toGrows.trans (exec_grows hv)).trans (keeps_finish v).toGrows)

/-- Settles O44: a buffer is written whole, emptied, or extended by a write that keeps the canonical form. -/
theorem canonicalBuffersKept : Obligations.CanonicalBuffersKept := by
  intro s t hs h
  obtain hg | ⟨p, rest, -, -, rfl⟩ := step_grows h
  · exact hg.buffers hs
  · exact State.reset_buffers

/-- Settles O41. -/
theorem observationOnlyGrows : Obligations.ObservationOnlyGrows := by
  intro s t h hr
  obtain hg | ⟨p, rest, hf, hrst, -⟩ := step_grows h
  · exact ⟨hg.trace, hg.wave⟩
  · rw [hr p rest hf] at hrst
    cases hrst

/-- Settles O46: no operation writes the parameters, a reset edge keeps them, and lines are only replaced. -/
theorem parametersAreFixed : Obligations.ParametersAreFixed := by
  intro s t h
  by_cases hr : ∀ p rest, s.feed = .edge p :: rest → p.rst = false
  · obtain hg | ⟨p, rest, hf, hrst, -⟩ := step_grows h
    · refine ⟨hg.cfg, ?_⟩
      obtain hl | ⟨l, x, hl, -⟩ := step_lines h hr
      · simp only [State.numLines, hl]
      · exact State.numLines_of_lines hl
    · rw [hr p rest hf] at hrst
      cases hrst
  · push Not at hr
    obtain ⟨p, rest, hf, hrst⟩ := hr
    rw [step_edge hf, edge, if_pos (by simpa using hrst)] at h
    cases h
    simp [resetEdge, State.numLines]

/-- Settles O58: the pin writes of step 1 set DIR and PULL, the others write OUT alone. -/
theorem drivenLinesStayDriven : Obligations.DrivenLinesStayDriven := by
  intro s t l h hr
  obtain hl | ⟨m, x, hl, hdir, hpull⟩ := step_lines h hr
  · rw [State.line_congr hl]
    exact ⟨id, id⟩
  · rw [State.line_of_lines hl]
    split
    · next hc => rw [hc.1]; exact ⟨hdir, hpull⟩
    · exact ⟨id, id⟩

/-! ### Who may write what -/

/-- Settles O39. -/
theorem brightWrittenOnlyBySetbright : Obligations.BrightWrittenOnlyBySetbright := by
  have hexec : ∀ (i : Instr) (s t : State), exec i s = .next t → t.bright ≠ s.bright → i = .setbright t.bright := by
    intro i s t h hne
    obtain hk | ⟨v, rfl, rfl⟩ | ⟨n, bs, -, rfl⟩ | ⟨-, rfl⟩ := exec_keeps h
    · exact absurd hk.bright hne
    · simp
    · simp at hne
    · simp at hne
  refine ⟨hexec, fun s t h hne => ?_⟩
  obtain ⟨p, rest, hf, hrst, rfl⟩ | hrow | ⟨i, u, v, hrun, hk, -, hv, ht⟩ := step_next h
  · exact .inr (.inr ⟨p, rest, hf, hrst, rfl⟩)
  · exact absurd hrow.keeps.bright hne
  · have htv : t.bright = v.bright := by obtain rfl | rfl := ht <;> simp
    rw [htv] at hne ⊢
    cases hexec i u v hv (hk.bright ▸ hne)
    obtain ⟨w, payload, rest, hf, hst, hd⟩ | ⟨hst, hd⟩ := hrun
    · exact .inl ⟨w, payload, rest, hf, hst, hd⟩
    · exact .inr (.inl ⟨hst, hd⟩)

/-- Settles O59. -/
theorem tableWrittenOnlyByRemapCommands : Obligations.TableWrittenOnlyByRemapCommands := by
  intro s t h hne
  obtain ⟨p, rest, hf, hrst, rfl⟩ | hrow | ⟨i, u, v, hrun, hk, -, hv, ht⟩ := step_next h
  · exact .inr (.inr ⟨p, rest, hf, hrst, rfl, rfl, rfl⟩)
  · exact absurd hrow.keeps.table hne
  · have hi : (∃ n, i = .setremap n) ∨ i = .clearremap := by
      by_contra hno
      push Not at hno
      obtain ⟨hset, hclear⟩ := hno
      obtain ⟨hp, hl, hr⟩ := exec_keeps_table hv hset hclear
      obtain ⟨hp', hl', hr'⟩ := hk.table
      refine hne ?_
      rw [← hp', ← hl', ← hr', ← hp, ← hl, ← hr]
      obtain rfl | rfl := ht <;> simp
    have hcmd : ∀ w, decode w = .ok i → (∃ n, decode w = .ok (.setremap n)) ∨ decode w = .ok .clearremap := by
      intro w hd
      obtain ⟨n, rfl⟩ | rfl := hi
      · exact .inl ⟨n, hd⟩
      · exact .inr hd
    obtain ⟨w, payload, rest, hf, hst, hd⟩ | ⟨hst, hd⟩ := hrun
    · exact .inl ⟨w, payload, rest, hf, hst, hcmd w hd⟩
    · exact .inr (.inl ⟨hst, hcmd _ hd⟩)

/-- A word that runs an instruction that writes a line is a TRANSMIT: a word is no WRITE and no symbol (30 R72). -/
theorem State.Runs.transmit {s : State} {i : Instr} {pin : Pin} {n : Len} (h : s.Runs i)
    (hi : i = .transmit pin n ∨ i = .write pin n) : s.Runs (.transmit pin n) := by
  obtain rfl | rfl := hi
  · exact h
  · obtain ⟨w, payload, rest, -, -, hd⟩ | ⟨-, hd⟩ := h
    · cases decode_wellFormed hd
    · cases decode_wellFormed hd

theorem State.Runs.not_symbol {s : State} {i : Instr} (h : s.Runs i) : ¬(i = .emit0 ∨ i = .emit1) := by
  obtain ⟨w, payload, rest, -, -, hd⟩ | ⟨-, hd⟩ := h
  · exact fun hi => hi.elim (decode_command hd).1 (decode_command hd).2
  · exact fun hi => hi.elim (decode_command hd).1 (decode_command hd).2

/-- Settles O40: the line that has changed is the one that was replaced (`State.line_changed`), by `exec_lines` for an
instruction and by `step_next` for a step. -/
theorem pinsWrittenOnlyByTransmit : Obligations.PinsWrittenOnlyByTransmit := by
  refine ⟨fun i s t l h hne => ?_, fun s t l h hne => ?_⟩
  · obtain hl | ⟨pin, n, m, hi, hpin, hl⟩ | ⟨hi, hl⟩ := exec_lines h
    · exact absurd (State.line_congr hl l) hne
    · obtain ⟨rfl, hx⟩ := State.line_changed hl hne
      exact .inl ⟨pin, n, hi, hpin, hx⟩
    · obtain ⟨rfl, hx⟩ := State.line_changed hl hne
      exact .inr ⟨hi, rfl, hx⟩
  · obtain ⟨p, rest, hf, hrst, rfl⟩ | hrow | ⟨i, u, v, hrun, hk, hlines, hv, ht⟩ := step_next h
    · refine .inr (.inr (.inr (.inr ⟨p, rest, hf, hrst, ?_⟩)))
      by_cases hl : l < s.lines.length <;>
        simp [State.line, resetEdge, State.numLines, List.getD_eq_getElem?_getD, hl]
    · obtain hl | ⟨hst, hl⟩ | ⟨hst, hl⟩ := hrow.lines
      · exact absurd (State.line_congr hl l) hne
      · obtain ⟨rfl, hx⟩ := State.line_changed hl hne
        exact .inr (.inr (.inl ⟨hst, rfl, hx⟩))
      · obtain ⟨rfl, hx⟩ := State.line_changed hl hne
        exact .inr (.inr (.inr (.inl ⟨hst, rfl, hx⟩)))
    · have htv : t.lines = v.lines := by obtain rfl | rfl := ht <;> simp
      obtain hl | ⟨pin, n, m, hi, hpin, hl⟩ | ⟨hi, -⟩ := exec_lines hv
      · exact absurd (State.line_congr (htv.trans (hl.trans hlines)) l) hne
      · obtain ⟨rfl, hx⟩ := State.line_changed (htv.trans (hlines ▸ hl)) hne
        rw [State.pinLine_congr hk.cfg (by simp only [State.numLines, hlines])] at hpin
        obtain ⟨w, payload, rest, hf, hst, hd⟩ | ⟨hst, hd⟩ := hrun.transmit hi
        · exact .inl ⟨w, payload, rest, pin, n, hf, hst, hd, hpin, hx⟩
        · exact .inr (.inl ⟨pin, n, hst, hd, hpin, hx⟩)
      · exact absurd hi hrun.not_symbol

end Sys2Proof.Machine
end

section
/-! Proofs about safe states: no step from one stops, and each leads to another (spec 10 R27, 60 R151). A TRANSMIT in
progress is before its critical section (`State.Ready`), inside it (`State.Sending`) or answering. -/

namespace Sys2Proof.Machine

/-! ### Before the critical section, inside it, and in RESP -/

/-- The sequencer states before LOCK (41 R108). -/
abbrev SeqState.beforeLock (q : SeqState) : Prop :=
  q = .idle ∨ q = .recv ∨ q = .exec ∨ q = .cfg ∨ q = .settle ∨ q = .scale

/-- What a safe state before LOCK meets, whatever payload it holds: no copy, no response, no critical section. -/
abbrev State.Ready (s : State) : Prop :=
  s.BuffersExact ∧ s.TableOK ∧ s.PinsOK ∧ s.lockReq = false ∧ s.txcLen = 0#32 ∧
  (s.resbuf = [] ∧ s.rspSent = false ∧ s.doutIdx = 0) ∧ s.st.beforeLock

/-- What a safe state in the critical section meets, wherever it stands in the copy. -/
abbrev State.Sending (s : State) : Prop :=
  s.BuffersExact ∧ s.TableOK ∧ s.PinsOK ∧ (s.lockReq = true ∧ s.preempt = false) ∧
  (s.resbuf = [] ∧ s.rspSent = false ∧ s.doutIdx = 0)

/-- SHREG is the byte of the copy at BYTE_IDX (10 R17). -/
abbrev State.AtByte (s : State) : Prop :=
  s.byteIdx.toNat < s.txcLen.toNat ∧ s.txc.read s.byteIdx.toNat = some s.shreg

theorem State.Safe.ready {s : State} (h : s.Safe) (hst : s.st.beforeLock) : s.Ready := by
  obtain ⟨hbuf, htable, -, hlock, hpins, hcopy, hrsp⟩ := h
  have hl : s.lockReq = false := by
    rw [← Bool.not_eq_true, hlock.1]
    obtain h | h | h | h | h | h := hst <;> simp [h, SeqState.critical]
  have hc : s.txcLen = 0#32 := by
    by_contra hne
    have := hcopy.1 hne
    obtain h | h | h | h | h | h := hst <;> simp [h, SeqState.critical] at this
  have hr : s.resbuf = [] ∧ s.rspSent = false := by
    apply hrsp.1
    obtain h | h | h | h | h | h := hst <;> simp [h]
  exact ⟨hbuf, htable, hpins, hl, hc, ⟨hr.1, hr.2, hrsp.2.1 hr.2⟩, hst⟩

theorem State.Ready.safe {s : State} (h : s.Ready) (hp : s.PayloadOK) : s.Safe := by
  obtain ⟨hbuf, htable, hpins, hlock, hcopy, ⟨hres, hsent, hdout⟩, hst⟩ := h
  refine ⟨hbuf, htable, hp, ⟨?_, ?_⟩, hpins, ⟨?_, ?_⟩, ⟨fun _ => ⟨hres, hsent⟩, fun _ => hdout, ?_⟩⟩
  · obtain h | h | h | h | h | h := hst <;> simp [h, hlock, SeqState.critical]
  · simp [hlock]
  · simp [hcopy]
  · obtain h | h | h | h | h | h := hst <;> simp [h]
  · simp [hsent]

theorem State.Safe.sending {s : State} (h : s.Safe) (hst : s.st.critical) : s.Sending := by
  obtain ⟨hbuf, htable, -, hlock, hpins, -, hrsp⟩ := h
  have hl := hlock.1.2 hst
  have hr : s.resbuf = [] ∧ s.rspSent = false := by
    apply hrsp.1
    obtain h | h | h := hst <;> simp [h]
  exact ⟨hbuf, htable, hpins, ⟨hl, hlock.2 hl⟩, hr.1, hr.2, hrsp.2.1 hr.2⟩

theorem State.Sending.safe {s : State} (h : s.Sending) (hst : s.st.critical)
    (hpos : s.st = .high ∨ s.st = .low → s.AtByte) : s.Safe := by
  obtain ⟨hbuf, htable, hpins, ⟨hlock, hpre⟩, hres, hsent, hdout⟩ := h
  refine ⟨hbuf, htable, ?_, ⟨⟨fun _ => hst, fun _ => hlock⟩, fun _ => hpre⟩, hpins, ⟨fun _ => .inr (.inl hst), hpos⟩,
    ⟨fun _ => ⟨hres, hsent⟩, fun _ => hdout, ?_⟩⟩
  · obtain h | h | h := hst <;> simp [State.PayloadOK, h]
  · simp [hsent]

/-! ### Pins -/

/-- Where every line is low, moving the sequencer keeps the pin invariant, if no new line counts as configured. -/
theorem State.PinsOK.move {s t : State} (h : s.PinsOK) (hs : s.st ≠ .high) (h1 : t.lines = s.lines)
    (h2 : t.lineSel = s.lineSel) (hc : t.st.configured → s.st.configured) : t.PinsOK :=
  h.same h1 h2 (fun l hl ho => absurd ho (by simp [h.low hs l hl])) hc

/-- Where every line is low, step 1 on a line of the block keeps the pin invariant (41 R97). -/
theorem State.PinsOK.configured {s t : State} {l : Nat} (h : s.PinsOK) (hs : s.st ≠ .high) (hl : l < s.numLines)
    (h1 : t.lines = s.lines.set l ⟨true, true, false⟩) (h2 : t.lineSel = l) : t.PinsOK :=
  h.set h1 h2 hl (fun _ => rfl) (by simp) (fun _ => rfl) fun k hk _ => h.low hs k hk

theorem SeqState.beforeLock.ne_high {q : SeqState} (h : q.beforeLock) : q ≠ .high := by
  obtain h | h | h | h | h | h := h <;> simp [h]

/-- Before LOCK the sequencer may move on to another state before LOCK. -/
theorem State.Ready.goto {s : State} (h : s.Ready) {q : SeqState} (hq : q.beforeLock)
    (hc : q.configured → s.st.configured) : (s.goto q).Ready := by
  obtain ⟨hbuf, htable, hpins, hlock, hcopy, hrsp, hst⟩ := h
  exact ⟨hbuf, htable, hpins.move hst.ne_high rfl rfl hc, hlock, hcopy, hrsp, hq⟩

/-! ### The response -/

/-- A response outside the critical section, with no line high, makes the state safe. -/
theorem respond_safe (c : Status) (f : Bool) (v : BitVec 32) (bs : List Byte) {s : State} (hbuf : s.BuffersExact)
    (htable : s.TableOK) (hpins : s.PinsOK) (hs : s.st ≠ .high) (hlock : s.lockReq = false) :
    (respond c f v bs s).Safe := by
  obtain ⟨hrmp, htxc, harg, -⟩ := hbuf
  refine ⟨⟨hrmp, htxc, harg, ?_⟩, htable, ?_, ⟨?_, ?_⟩, hpins.move hs rfl rfl ?_, ⟨?_, ?_⟩, ⟨?_, ?_, ?_⟩⟩
  · rw [respond_resbuf, Memory.length_ofBytes]
    exact Memory.dense_ofBytes bs
  all_goals simp [State.PayloadOK, SeqState.critical, SeqState.configured, hlock]

theorem State.Ready.respond {s : State} (h : s.Ready) (c : Status) (f : Bool) (v : BitVec 32) (bs : List Byte) :
    (Machine.respond c f v bs s).Safe := by
  obtain ⟨hbuf, htable, hpins, hlock, -, -, hst⟩ := h
  exact respond_safe c f v bs hbuf htable hpins hst.ne_high hlock

/-- In RESP the copy may go. -/
theorem State.Safe.dropCopy {s : State} (h : s.Safe) (hst : s.st = .resp) : s.dropCopy.Safe := by
  obtain ⟨⟨hrmp, -, harg, hres⟩, htable, hpay, hlock, hpins, -, hrsp⟩ := h
  exact ⟨⟨hrmp, rfl, harg, hres⟩, htable, hpay, hlock, hpins, ⟨by simp, by simp [hst]⟩, hrsp⟩

/-- After the end of the response the block is idle and safe. -/
theorem State.Safe.finish {s : State} (h : s.Safe) (hst : s.st = .resp) : (Machine.finish s).Safe := by
  obtain ⟨⟨hrmp, -, harg, -⟩, htable, -, hlock, hpins, -, -⟩ := h
  have hl : s.lockReq = false := by
    rw [← Bool.not_eq_true, hlock.1]
    simp [hst, SeqState.critical]
  refine State.Ready.safe ⟨⟨hrmp, rfl, harg, rfl⟩, htable, hpins.move (by simp [hst]) rfl rfl ?_, hl, rfl,
    ⟨rfl, rfl, rfl⟩, .inl rfl⟩ ?_
  · simp [SeqState.configured]
  · simp [State.PayloadOK]

/-! ### Instructions -/

/-- SETREMAP with storage and a payload that can be read (43 R130). -/
theorem execSetremap_ok {n : Len} {s : State} {bs : List Byte} (ha : s.remapOK n.toNat = true)
    (hb : s.argbuf.readFrom 0 n.toNat = .ok bs) :
    execSetremap n s = .next (respond .ok false 0#32 [] (s.asked.storeTable n bs)) := by
  rw [execSetremap, if_pos ha, readPayload, readBytes_ok (bs := bs) _ (by simpa using hb)]

/-- SETREMAP whose storage is refused (43 R136). -/
theorem execSetremap_alloc {n : Len} {s : State} (ha : s.remapOK n.toNat = false) :
    execSetremap n s = .next (raise .eAlloc s.asked) := by
  rw [execSetremap, if_neg (by simp [ha])]

/-- With exact buffers and its payload in ARGBUF an instruction reads no byte that holds no value (20 R53). -/
theorem exec_progress {i : Instr} {s : State} (h : s.BuffersExact)
    (hp : i.takesPayload = true → s.argbuf.length = i.payloadIn) : ∃ t, exec i s = .next t := by
  obtain ⟨hrmp, -, harg, -⟩ := h
  have htransmit : ∀ (pin : Pin) (n : Len), s.argbuf.length = n.toNat → ∃ t, transmitBuffer pin n s = .next t := by
    intro pin n hn
    rw [hn] at harg
    obtain ⟨bs, hbs, -⟩ := Memory.readFrom_dense harg
    cases hpin : s.pinLine pin with
    | none => exact ⟨_, transmitBuffer_pin n hpin⟩
    | some l =>
      by_cases ha : s.copyGranted n
      · exact ⟨_, transmitBuffer_ok hpin ha hbs⟩
      · exact ⟨_, transmitBuffer_alloc hpin ha⟩
  cases i with
  | transmit pin n => exact htransmit pin n (hp rfl)
  | write pin n => exact htransmit pin n (hp rfl)
  | setremap n =>
    have hn : s.argbuf.length = n.toNat := hp rfl
    rw [hn] at harg
    obtain ⟨bs, hbs, -⟩ := Memory.readFrom_dense harg
    cases ha : s.remapOK n.toNat with
    | true => exact ⟨_, execSetremap_ok ha hbs⟩
    | false => exact ⟨_, execSetremap_alloc ha⟩
  | getremap =>
    obtain ⟨bs, hbs, -⟩ := Memory.readFrom_dense hrmp
    cases hpr : s.remapPresent with
    | true => exact ⟨_, exec_getremap_present hpr hbs⟩
    | false => exact ⟨_, exec_getremap_absent hpr⟩
  | _ => exact ⟨_, rfl⟩

/-- A table whose storage was granted is within the capacity (20 R52). -/
theorem withinCap_of_allocAnswer {a : Alloc} {n k : Nat} (h : allocAnswer a n k = true) : withinCap a n = true := by
  cases a with
  | atMost cap => exact h
  | _ => rfl

/-- Nothing is within every capacity. -/
theorem withinCap_zero (a : Alloc) : withinCap a 0 = true := by
  cases a <;> simp [withinCap]

/-- Step 1 on a line of the block (41 R97). -/
theorem State.Ready.configure {s : State} {l : Nat} (h : s.Ready) (hl : l < s.numLines) : (s.configure l).Ready := by
  obtain ⟨⟨hrmp, htxc, harg, hres⟩, ⟨habs, hcap⟩, hpins, hlock, hcopy, hrsp, hst⟩ := h
  have hpins' := hpins.configured hst.ne_high hl (s.configure_lines_set l) (s.configure_lineSel l)
  refine ⟨⟨?_, ?_, ?_, ?_⟩, ⟨?_, ?_⟩, hpins', ?_⟩
  all_goals simp only [State.configure_frame]
  exacts [hrmp, htxc, harg, hres, habs, hcap, ⟨hlock, hcopy, hrsp, hst⟩]

theorem State.Ready.asked {s : State} (h : s.Ready) : s.asked.Ready := h

/-- The state of a TRANSMIT whose critical section is over, before the echo (41 R101). -/
def State.sent (s : State) (l : Nat) (n : Len) (bs : List Byte) : State :=
  (sendBytes (s.copyOf bs) 0 (s.copied l n bs).lock).unlock

theorem State.transmitted_eq (s : State) (l : Nat) (n : Len) (bs : List Byte) :
    s.transmitted l n bs = (respond .ok false n (s.copyOf bs) (s.sent l n bs)).dropCopy := rfl

/-- Of what `State.Safe` speaks of, a TRANSMIT up to its echo has written the copy, LINE_SEL and the line. -/
theorem State.sent_fields (s : State) (l : Nat) (n : Len) (bs : List Byte) :
    (s.sent l n bs).cfg = s.cfg ∧ (s.sent l n bs).remapPresent = s.remapPresent ∧
    (s.sent l n bs).remapLen = s.remapLen ∧ (s.sent l n bs).rmp = s.rmp ∧ (s.sent l n bs).argbuf = s.argbuf ∧
    (s.sent l n bs).resbuf = s.resbuf ∧ (s.sent l n bs).txc = Memory.ofBytes (s.copyOf bs) ∧
    (s.sent l n bs).txcLen = n ∧ (s.sent l n bs).lineSel = l ∧ (s.sent l n bs).st = s.st ∧
    (s.sent l n bs).lockReq = false := by
  simp [State.sent, State.copied, State.copyOf]

theorem State.sent_lines (s : State) (l : Nat) (n : Len) (bs : List Byte) (hl : l < s.numLines) :
    (s.sent l n bs).lines = s.lines.set l ⟨true, true, false⟩ := by
  rw [← s.transmitted_lines l n bs hl, State.transmitted_eq]
  simp

/-- A finished TRANSMIT leaves a safe state (41 R103). -/
theorem State.Ready.transmitted {s : State} {pin : Pin} {n : Len} {l : Nat} {bs : List Byte} (h : s.Ready)
    (hl : s.pinLine pin = some l) (hb : s.argbuf.readFrom 0 n.toNat = .ok bs) : (s.transmitted l n bs).Safe := by
  obtain ⟨⟨hrmp, -, harg, hres⟩, ⟨habs, hcap⟩, hpins, -, -, -, hst⟩ := h
  obtain ⟨ecfg, epresent, elen, ermp, earg, eres, etxc, etxcLen, esel, est, elock⟩ := s.sent_fields l n bs
  have hlines := s.sent_lines l n bs (State.pinLine_lt hl)
  have hn : (s.copyOf bs).length = n.toNat := by
    rw [State.copyOf_length, ((Memory.readFrom_eq_ok _ _ _ _).1 hb).1]
  rw [State.transmitted_eq]
  generalize s.sent l n bs = u at *
  refine State.Safe.dropCopy (respond_safe _ _ _ _ ⟨?_, ?_, ?_, ?_⟩ ⟨?_, ?_⟩ ?_ ?_ elock) rfl
  · rw [ermp, elen]; exact hrmp
  · rw [etxc, etxcLen, ← hn]; exact Memory.dense_ofBytes _
  · rw [earg]; exact harg
  · rw [eres]; exact hres
  · rw [epresent, elen]; exact habs
  · rw [ecfg, elen]; exact hcap
  · exact hpins.configured hst.ne_high (State.pinLine_lt hl) hlines esel
  · rw [est]; exact hst.ne_high

/-- Before LOCK an instruction that is no symbol answers and leaves a safe state. -/
theorem State.Ready.exec {i : Instr} {s t : State} (h : s.Ready) (hi : i ≠ .emit0 ∧ i ≠ .emit1)
    (he : Machine.exec i s = .next t) : t.Safe ∧ t.st = .resp := by
  obtain ⟨⟨hrmp, htxc, harg, hres⟩, ⟨habs, hcap⟩, hpins, hrest⟩ := h
  have hs : s.Ready := ⟨⟨hrmp, htxc, harg, hres⟩, ⟨habs, hcap⟩, hpins, hrest⟩
  obtain ⟨v, -, rfl⟩ | ⟨-, rfl⟩ | ⟨pin, n, -, ht⟩ | ⟨n, -, ht⟩ | ⟨-, rfl⟩ | ⟨-, ht⟩ | ⟨b, hb, -⟩ := exec_next he
  · exact ⟨State.Ready.respond (s := s.storeBright v) hs _ _ _ _, rfl⟩
  · exact ⟨hs.respond _ _ _ _, rfl⟩
  · obtain ⟨-, rfl⟩ | ⟨l, hl, -, rfl⟩ | ⟨l, bs, hl, -, hbs, rfl⟩ := transmitBuffer_next ht
    · exact ⟨hs.respond _ _ _ _, rfl⟩
    · have hc : (s.configure l).asked.Ready :=
        (hs.configure (State.pinLine_lt hl)).asked
      exact ⟨hc.respond _ _ _ _, rfl⟩
    · exact ⟨hs.transmitted hl hbs, rfl⟩
  · obtain ⟨-, rfl⟩ | ⟨bs, ha, hbs, rfl⟩ := execSetremap_next ht
    · exact ⟨hs.asked.respond _ _ _ _, rfl⟩
    · have hn : bs.length = n.toNat := ((Memory.readFrom_eq_ok _ _ _ _).1 hbs).1
      have hd : (s.asked.storeTable n bs).rmp.dense n.toNat = true := hn ▸ Memory.dense_ofBytes bs
      exact ⟨State.Ready.respond (s := s.asked.storeTable n bs)
        ⟨⟨hd, htxc, harg, hres⟩, ⟨by simp, withinCap_of_allocAnswer ha⟩, hpins, hrest⟩ _ _ _ _, rfl⟩
  · exact ⟨State.Ready.respond (s := s.dropTable)
      ⟨⟨rfl, htxc, harg, hres⟩, ⟨fun _ => rfl, withinCap_zero _⟩, hpins, hrest⟩ _ _ _ _, rfl⟩
  · obtain ⟨-, rfl⟩ | ⟨bs, -, -, rfl⟩ := execGetremap_next ht
    · exact ⟨hs.respond _ _ _ _, rfl⟩
    · exact ⟨hs.respond _ _ _ _, rfl⟩
  · cases b
    · exact absurd hb hi.1
    · exact absurd hb hi.2

/-! ### The rows up to EXEC (41 R108) -/

/-- Selecting a line of the block for a TRANSMIT (41 R96). -/
theorem State.Ready.selectLine {s : State} (h : s.Ready) {l : Nat} (hl : l < s.numLines) :
    ((s.selectLine l).goto .cfg).Ready := by
  obtain ⟨hbuf, htable, hpins, hlock, hcopy, hrsp, hst⟩ := h
  refine ⟨hbuf, htable, ?_, hlock, hcopy, hrsp, .inr (.inr (.inr (.inl rfl)))⟩
  have hlow := hpins.low hst.ne_high
  refine hpins.set (x := s.line l) (s.set_line_self l).symm rfl hl (hpins.2.1 l hl) ?_ ?_ fun k hk _ => hlow k hk
  · simp [hlow l hl]
  · simp [SeqState.configured]

/-- Execution starts when the whole payload is in ARGBUF. -/
theorem State.Ready.startCommand {s : State} (h : s.Ready)
    (hp : wordTakesPayload s.cmd = true → s.argbuf.length = wordPayload s.cmd) : (Machine.startCommand s).Safe := by
  obtain ⟨pin, n, hd, he⟩ | ⟨-, he⟩ := startCommand_cases s
  · rw [he]
    obtain ⟨-, he'⟩ | ⟨l, -, hl, he'⟩ := resolvePin_cases pin s
    · rw [he']; exact h.respond _ _ _ _
    · rw [he']
      refine (h.selectLine hl).safe ⟨by simp, by simp, fun _ => ?_⟩
      obtain ⟨-, hn⟩ := decode_transmit hd
      rw [wordTakesPayload_ok hd, wordPayload_ok hd, hn] at hp
      exact hp rfl
  · rw [he]
    exact (h.goto (.inr (.inr (.inl rfl))) (by simp [SeqState.configured])).safe ⟨by simp, fun _ => hp, by simp⟩

theorem State.Ready.latch {s : State} (h : s.Ready) (w : CmdWord) : (s.latch w).Ready := by
  obtain ⟨⟨hrmp, htxc, harg, hres⟩, hrest⟩ := h
  refine ⟨⟨hrmp, htxc, ?_, hres⟩, hrest⟩
  unfold State.latch
  split
  · rfl
  · exact harg

theorem State.latch_argbuf {s : State} {w : CmdWord} (h : wordTakesPayload w = true) : (s.latch w).argbuf = [] :=
  if_pos h

theorem State.Ready.acceptWord {s : State} (h : s.Ready) (w : CmdWord) : (Machine.acceptWord w s).Safe := by
  unfold Machine.acceptWord
  split
  · next hpos =>
    refine ((h.latch w).goto (.inr (.inl rfl)) (by simp [SeqState.configured])).safe ⟨fun _ => ?_, by simp, by simp⟩
    show (s.latch w).argbuf.length < wordPayload w
    rw [State.latch_argbuf (wordTakesPayload_of_pos hpos)]
    exact hpos
  · next hzero =>
    refine (h.latch w).startCommand fun htakes => ?_
    show (s.latch w).argbuf.length = wordPayload w
    rw [State.latch_argbuf (w := w) htakes, List.length_nil]
    omega

/-- A byte taken makes ARGBUF one byte longer. -/
theorem State.takeByte_dense {s : State} (b : Byte) (h : s.argbuf.dense s.argbuf.length = true) :
    (s.takeByte b).argbuf.length = s.argbuf.length + 1 ∧
    (s.takeByte b).argbuf.dense (s.takeByte b).argbuf.length = true := by
  have hd : (s.takeByte b).argbuf.dense (s.argbuf.length + 1) = true := Memory.dense_write b h
  have hlen := Memory.dense_length hd
  exact ⟨hlen, by rw [hlen]; exact hd⟩

theorem recvEdge_safe {s : State} (p : PortIn) (h : s.Safe) (hst : s.st = .recv) : (recvEdge p s).Safe := by
  obtain ⟨⟨hrmp, htxc, harg, hres⟩, hrest⟩ := h.ready (.inr (.inl hst))
  have ⟨_, _, ⟨hpay, _⟩, _⟩ := h
  obtain ⟨hlen, hdense⟩ := State.takeByte_dense p.dinData harg
  have hready : (s.takeByte p.dinData).Ready := ⟨⟨hrmp, htxc, hdense, hres⟩, hrest⟩
  unfold recvEdge
  split
  · split
    · next hlt => exact hready.safe ⟨fun _ => hlt, by simp [hst], by simp [hst]⟩
    · next hge =>
      refine hready.startCommand fun _ => ?_
      have := hpay hst
      rw [hlen] at hge ⊢
      show s.argbuf.length + 1 = wordPayload s.cmd
      omega
  · exact h

theorem execEdge_safe {s : State} (h : s.Safe) (hst : s.st = .exec) : ∃ t, execEdge s = .next t ∧ t.Safe := by
  have hready := h.ready (.inr (.inr (.inl hst)))
  obtain ⟨hbuf, -, ⟨-, hpay, -⟩, -⟩ := h
  unfold execEdge
  cases hd : decode s.cmd with
  | error e => exact ⟨_, rfl, hready.respond _ _ _ _⟩
  | ok i =>
    have hp := hpay hst
    rw [wordTakesPayload_ok hd, wordPayload_ok hd] at hp
    obtain ⟨t, ht⟩ := exec_progress hbuf hp
    exact ⟨t, ht, (hready.exec (decode_command hd) ht).1⟩

/-! ### TRANSMIT up to LOCK -/

theorem cfgEdge_safe {s : State} (h : s.Safe) (hst : s.st = .cfg) : (cfgEdge s).Safe := by
  have hlines : (cfgEdge s).lines = s.lines.set s.lineSel ⟨true, true, false⟩ := by
    simp only [cfgEdge, State.goto_frame, State.setPresc_frame, State.startSettle_frame, State.pinWrite_pinMode_lines]
  obtain ⟨⟨hrmp, htxc, harg, hres⟩, ⟨habs, hcap⟩, hpins, hlock, hcopy, hrsp, hb⟩ :=
    h.ready (.inr (.inr (.inr (.inl hst))))
  obtain ⟨-, -, ⟨-, -, hpay⟩, -⟩ := h
  have hpins' : (cfgEdge s).PinsOK := hpins.configured hb.ne_high hpins.1 hlines (by simp [cfgEdge])
  refine State.Ready.safe ⟨⟨?_, ?_, ?_, ?_⟩, ⟨?_, ?_⟩, hpins', ?_⟩ ⟨?_, ?_, ?_⟩
  case refine_8 => simp [cfgEdge]
  case refine_9 => simp [cfgEdge]
  all_goals simp only [cfgEdge, State.goto_frame, State.goto_st, State.setPresc_frame, State.startSettle_frame,
    State.pinWrite_frame, State.pinMode_frame]
  exacts [hrmp, htxc, harg, hres, habs, hcap, ⟨hlock, hcopy, hrsp, .inr (.inr (.inr (.inr (.inl rfl))))⟩,
    fun _ => hpay (.inl hst)]

theorem settleEdge_safe {s : State} (h : s.Safe) (hst : s.st = .settle) : ∃ t, settleEdge s = .next t ∧ t.Safe := by
  unfold settleEdge
  split
  · have hready := h.ready (.inr (.inr (.inr (.inr (.inl hst)))))
    obtain ⟨-, -, ⟨-, -, hpay⟩, -⟩ := h
    have hready' : s.endSettle.Ready := hready
    exact ⟨_, rfl, (hready'.goto (.inr (.inr (.inr (.inr (.inr rfl))))) (fun _ => .inl hst)).safe
      ⟨by simp, by simp, fun _ => hpay (.inr (.inl hst))⟩⟩
  · obtain ⟨-, he⟩ | ⟨-, he⟩ := unitClock_cases s fun t => .next t.settleTick
    · exact ⟨_, he, h⟩
    · exact ⟨_, he, h⟩

/-- SCALE with storage and a payload that can be read (41 R98). -/
theorem withCopy_ok {n : Len} {s : State} {bs : List Byte} (k : State → Res) (ha : s.txOK n.toNat = true)
    (hb : s.argbuf.readFrom 0 n.toNat = .ok bs) : withCopy n s k = k (s.asked.storeCopy n bs) := by
  rw [withCopy, if_pos ha, readPayload, readBytes_ok (bs := bs) _ (by simpa using hb)]

/-- SCALE whose storage is refused (60 R147). -/
theorem withCopy_alloc {n : Len} {s : State} (k : State → Res) (ha : s.txOK n.toNat = false) :
    withCopy n s k = .next (raise .eAlloc s.asked) := by
  rw [withCopy, if_neg (by simp [ha])]

/-- The copy a TRANSMIT makes is exact. -/
theorem State.storeCopy_dense {n : Len} {bs : List Byte} (s : State) (hn : bs.length = n.toNat) :
    (s.storeCopy n bs).txc.dense n.toNat = true := by
  have := Memory.dense_ofBytes (scaleAll s.bright s.draws bs).1
  rwa [scaleAll_length, hn] at this

theorem scaleEdge_safe {s : State} (h : s.Safe) (hst : s.st = .scale) : ∃ t, scaleEdge s = .next t ∧ t.Safe := by
  have hready := h.ready (.inr (.inr (.inr (.inr (.inr hst)))))
  obtain ⟨-, -, ⟨-, -, hpay⟩, -⟩ := h
  have hlen := hpay (.inr (.inr hst))
  have hraise : (raise .eAlloc s.asked).Safe := hready.asked.respond _ _ _ _
  obtain ⟨⟨hrmp, htxc, harg, hres⟩, htable, hpins, hlock, hcopy, ⟨hr, hs, hd⟩, hb⟩ := hready
  unfold scaleEdge
  cases ha : s.txOK (argField s.cmd).toNat with
  | false => exact ⟨_, withCopy_alloc _ ha, hraise⟩
  | true =>
    rw [hlen] at harg
    obtain ⟨bs, hbs, hn⟩ := Memory.readFrom_dense harg
    refine ⟨_, withCopy_ok _ ha hbs, ⟨hrmp, State.storeCopy_dense _ hn, hlen.symm ▸ harg, hres⟩, htable,
      ⟨by simp, by simp, by simp⟩, ⟨?_, ?_⟩, hpins.move hb.ne_high rfl rfl fun _ => .inr (.inl hst),
      ⟨fun _ => .inl rfl, by simp⟩, ⟨fun _ => ⟨hr, hs⟩, fun _ => hd, ?_⟩⟩
    · simp [hlock, SeqState.critical]
    · simp [hlock]
    · simp [hs]

/-! ### The critical section (41 R108) -/

/-- `Lock()` in LOCK: the critical section, with the line still low. -/
theorem State.Safe.lock {s : State} (h : s.Safe) (hst : s.st = .lock) : s.lock.Sending := by
  obtain ⟨hbuf, htable, -, -, hpins, -, hrsp⟩ := h
  obtain ⟨hres, hsent⟩ := hrsp.1 (by simp [hst])
  exact ⟨hbuf, htable, hpins, ⟨rfl, rfl⟩, hres, hsent, hrsp.2.1 hsent⟩

/-- A rising edge on the line of a TRANSMIT in progress. -/
theorem State.Sending.startPulse {s : State} (h : s.Sending) (hst : s.st.configured) (hlow : s.st ≠ .high)
    (hpos : s.AtByte) : (Machine.startPulse s).Safe := by
  obtain ⟨hbuf, htable, hpins, hlock, hrsp⟩ := h
  have ⟨hsel, hfloat, _, hdir⟩ := hpins
  have hpins' : (Machine.startPulse s).PinsOK :=
    hpins.set (startPulse_lines s) (by simp) hsel (hfloat _ hsel) (by simp) (fun _ => hdir hst)
      fun k hk _ => hpins.low hlow k hk
  refine State.Sending.safe ⟨?_, ?_, hpins', ?_⟩ (.inl (startPulse_st s)) fun _ => ?_
  all_goals simp only [State.BuffersExact, State.TableOK, State.AtByte, startPulse_frame]
  exacts [hbuf, htable, ⟨hlock, hrsp⟩, hpos]

/-- In the critical section the sequencer may go on with every line low. -/
theorem State.Sending.goto {s : State} (h : s.Sending) (hst : s.st.configured) (hlow : s.st ≠ .high) (q : SeqState) :
    (s.goto q).Sending := by
  obtain ⟨hbuf, htable, hpins, hlock, hrsp⟩ := h
  exact ⟨hbuf, htable, hpins.move hlow rfl rfl fun _ => hst, hlock, hrsp⟩

/-- LOCK enters the critical section, at either grain: for an empty copy UNLOCK follows, else `k` goes on from the first
byte. -/
theorem enterCritical_safe {s : State} {k : State → Res} (h : s.Safe) (hst : s.st = .lock)
    (hk : ∀ v, (s.lock.loadByte 0#32 v).Sending → (s.lock.loadByte 0#32 v).AtByte →
      ∃ t, k (s.lock.loadByte 0#32 v) = .next t ∧ t.Safe) : ∃ t, enterCritical s k = .next t ∧ t.Safe := by
  have hs := h.lock hst
  have hlow : s.lock.st ≠ .high := by simp [hst]
  obtain ⟨⟨-, htxc, -⟩, -⟩ := h
  unfold enterCritical
  split
  · exact ⟨_, rfl, (hs.goto (by simp [hst, SeqState.configured]) hlow .unlock).safe (.inr (.inr rfl)) (by simp)⟩
  · next hne =>
    have hpos : 0 < s.txcLen.toNat := by
      rw [Nat.pos_iff_ne_zero]
      exact fun h0 => hne (BitVec.eq_of_toNat_eq h0)
    obtain ⟨v, hv⟩ := Option.isSome_iff_exists.1 ((Memory.read_dense htxc 0).2 hpos)
    rw [readByte_some _ hv]
    exact hk v hs ⟨hpos, hv⟩

/-- `NextBit()`'s index part stops nowhere: it names the next symbol, or ends the copy. -/
theorem nextIndex_safe {s : State} (h : s.Sending) (hst : s.st = .low) (hpos : s.AtByte) :
    ∃ t, nextIndex s = .next t ∧ t.Sending ∧ (t.st = .unlock ∨ t.st = .low ∧ t.AtByte) := by
  unfold nextIndex
  split
  · exact ⟨_, rfl, h, .inr ⟨hst, hpos⟩⟩
  · split
    · next hlt =>
      have ⟨⟨_, htxc, _⟩, _⟩ := h
      obtain ⟨v, hv⟩ := Option.isSome_iff_exists.1 ((Memory.read_dense htxc _).2 hlt)
      rw [readByte_some _ hv]
      have hidx : (s.byteIdx + 1#32).toNat = s.byteIdx.toNat + 1 := by bv_omega
      refine ⟨_, rfl, h, .inr ⟨hst, ?_⟩⟩
      simp only [State.AtByte, State.loadByte_byteIdx, State.loadByte_shreg, State.loadByte_frame, hidx]
      exact ⟨hlt, hv⟩
    · exact ⟨_, rfl, h.goto (by simp [hst, SeqState.configured]) (by simp [hst]) _, .inl rfl⟩

theorem nextBit_safe {s : State} (h : s.Sending) (hst : s.st = .low) (hpos : s.AtByte) :
    ∃ t, nextBit s = .next t ∧ t.Safe := by
  obtain ⟨t, ht, hs, hcase⟩ := nextIndex_safe h hst hpos
  rw [nextBit, ht, andThen_of_next]
  split
  · next hu => exact ⟨_, rfl, hs.safe (.inr (.inr hu)) (by simp [hu])⟩
  · next hu =>
    obtain ⟨hlow, hat⟩ := hcase.resolve_left hu
    exact ⟨_, rfl, hs.startPulse (by simp [hlow, SeqState.configured]) (by simp [hlow]) hat⟩

theorem highEdge_safe {s : State} (h : s.Safe) (hst : s.st = .high) : ∃ t, highEdge s = .next t ∧ t.Safe := by
  unfold highEdge
  obtain ⟨-, he⟩ | ⟨-, he⟩ := unitClock_cases s fun t => .next (highUnit t.sampled)
  · exact ⟨_, he, h⟩
  rw [he]
  refine ⟨_, rfl, ?_⟩
  have hu : (s.setPresc 0).sampled.Safe := h
  have hu' : (s.setPresc 0).sampled.st = .high := hst
  generalize (s.setPresc 0).sampled = u at hu hu'
  unfold highUnit
  split
  · exact hu
  · have ⟨_, _, _, _, _, ⟨_, hpos⟩, _⟩ := hu
    obtain ⟨hbuf, htable, hpins, hlock, hrsp⟩ := hu.sending (.inl hu')
    have ⟨hsel, hfloat, hhigh, hdir⟩ := hpins
    refine State.Sending.safe ⟨hbuf, htable, ?_, hlock, hrsp⟩ (.inr (.inl rfl)) fun _ => hpos (.inl hu')
    refine hpins.set (u.level_lines u.lineSel false) rfl hsel (hfloat _ hsel) (by simp)
      (fun _ => hdir (by simp [hu', SeqState.configured])) fun k hk hne => ?_
    by_contra ho
    exact hne (hhigh k hk (by simpa using ho)).2

theorem lowEdge_safe {s : State} (h : s.Safe) (hst : s.st = .low) : ∃ t, lowEdge s = .next t ∧ t.Safe := by
  have hs := h.sending (.inr (.inl hst))
  have ⟨_, _, _, _, _, ⟨_, hpos⟩, _⟩ := h
  have hpos := hpos (.inr hst)
  unfold lowEdge
  split
  · exact ⟨_, rfl, hs.startPulse (by simp [hst, SeqState.configured]) (by simp [hst]) hpos⟩
  · obtain ⟨-, he⟩ | ⟨-, he⟩ := unitClock_cases s fun t => lowUnit t.sampled
    · exact ⟨_, he, h⟩
    · rw [he, lowUnit]
      split
      · exact ⟨_, rfl, h⟩
      · exact nextBit_safe (s := (s.setPresc 0).sampled) hs hst hpos

theorem unlockEdge_safe {s : State} (h : s.Safe) (hst : s.st = .unlock) : ∃ t, unlockEdge s = .next t ∧ t.Safe := by
  obtain ⟨⟨hrmp, htxc, hrest⟩, htable, -, -, hpins, -, -⟩ := h
  obtain ⟨bs, hbs, -⟩ := Memory.readFrom_dense htxc
  exact ⟨_, readBytes_ok (m := s.unlock.txc) _ hbs,
    respond_safe (s := s.unlock) _ _ _ _ ⟨hrmp, htxc, hrest⟩ htable hpins (by simp [hst]) rfl⟩

theorem respEdge_safe {s : State} (p : PortIn) (h : s.Safe) (hst : s.st = .resp) : (respEdge p s).Safe := by
  have ⟨hbuf, htable, hpay, hlock, hpins, hcopy, hrsp⟩ := h
  obtain ⟨-, hdout, -⟩ := hrsp
  obtain he | ⟨hsent, hne, he⟩ | ⟨hsent, hlt, he⟩ | he := respEdge_cases p s
  · rw [he]; exact h
  · rw [he]
    refine ⟨hbuf, htable, hpay, hlock, hpins, hcopy, by simp [hst], by simp, fun _ => ?_⟩
    simp only [hdout hsent]
    exact Nat.pos_of_ne_zero hne
  · rw [he]
    exact ⟨hbuf, htable, hpay, hlock, hpins, hcopy, by simp [hst], by simp [hsent], fun _ => hlt⟩
  · rw [he]; exact h.finish hst

/-! ### Every step -/

/-- From a safe state every row of the transition table answers a safe state. -/
theorem seqEdge_safe {s : State} (p : PortIn) (h : s.Safe) : ∃ t, seqEdge p s = .next t ∧ t.Safe := by
  unfold seqEdge
  split
  next hst =>
    refine ⟨_, rfl, ?_⟩
    split
    · exact (h.ready (.inl hst)).acceptWord _
    · exact h
  next hst => exact ⟨_, rfl, recvEdge_safe p h hst⟩
  next hst => exact execEdge_safe h hst
  next hst => exact ⟨_, rfl, cfgEdge_safe h hst⟩
  next hst => exact settleEdge_safe h hst
  next hst => exact scaleEdge_safe h hst
  next hst =>
    exact enterCritical_safe h hst fun v hs hpos =>
      ⟨_, rfl, hs.startPulse (by simp [hst, SeqState.configured]) (by simp [hst]) hpos⟩
  next hst => exact highEdge_safe h hst
  next hst => exact lowEdge_safe h hst
  next hst => exact unlockEdge_safe h hst
  next hst => exact ⟨_, rfl, respEdge_safe p h hst⟩

/-- The HOST's own bit is not looked at by the invariant outside the critical section. -/
theorem State.Safe.hostPreempt {s : State} (h : s.Safe) (b : Bool) : (s.hostPreempt b).Safe := by
  unfold State.hostPreempt
  split
  · exact h
  · next hl =>
    obtain ⟨hbuf, htable, hpay, ⟨hlock, -⟩, hrest⟩ := h
    exact ⟨hbuf, htable, hpay, ⟨hlock, fun hl' => absurd hl' hl⟩, hrest⟩

/-- A block without a line other than undriven ones, in IDLE and with empty buffers, is safe if LINE_SEL is a line. -/
theorem resetEdge_safe {s : State} (h : s.lineSel < s.numLines) : (resetEdge s).Safe := by
  have hnum : (resetEdge s).numLines = s.numLines := by simp [State.numLines, resetEdge]
  have hline : ∀ l, (resetEdge s).line l = Line.undriven := fun l => by
    by_cases hl : l < s.lines.length <;>
      simp [State.line, resetEdge, State.numLines, List.getD_eq_getElem?_getD, hl]
  refine State.Ready.safe ⟨⟨rfl, rfl, rfl, rfl⟩, ⟨fun _ => rfl, withinCap_zero _⟩, ⟨?_, ?_, ?_, ?_⟩, rfl, rfl,
    ⟨rfl, rfl, rfl⟩, .inl rfl⟩ ⟨?_, ?_, ?_⟩
  · rw [hnum]; exact Nat.zero_lt_of_lt h
  · simp [hline, Line.undriven]
  · simp [hline, Line.undriven]
  all_goals simp [resetEdge, State.reset, SeqState.configured]

theorem edge_safe {s : State} (p : PortIn) (h : s.Safe) : ∃ t, edge p s = .next t ∧ t.Safe := by
  have hh := h.hostPreempt p.preemptIn
  unfold edge
  split
  · obtain ⟨-, -, -, -, ⟨hsel, -⟩, -⟩ := hh
    exact ⟨_, rfl, resetEdge_safe hsel⟩
  · exact seqEdge_safe p hh

/-- A whole symbol between two symbols answers a safe state. -/
theorem symbol_safe {s : State} (h : s.Safe) (ha : s.atSymbol = true) :
    ∃ t, andThen (exec (symbolOf s.bitNow) s) nextIndex = .next t ∧ t.Safe := by
  have hst : s.st = .low := by
    simp only [State.atSymbol, Bool.and_eq_true, beq_iff_eq] at ha
    exact ha.1
  have hexec : exec (symbolOf s.bitNow) s = .next (emitSymbol s.bitNow s) := by cases s.bitNow <;> rfl
  have ⟨_, _, _, _, _, ⟨_, hpos⟩, _⟩ := h
  obtain ⟨hbuf, htable, hpins, hlock, hrsp⟩ := h.sending (.inr (.inl hst))
  have hlines : (emitSymbol s.bitNow s).lines = s.lines := by
    have hlow := hpins.low (by simp [hst]) _ hpins.1
    rw [emitSymbol_lines, ← hlow]
    exact s.set_line_self s.lineSel
  have hsend : (emitSymbol s.bitNow s).Sending := by
    refine ⟨?_, ?_, hpins.move (by simp [hst]) hlines (by simp) (by simp), ?_⟩
    · simpa [State.BuffersExact] using hbuf
    · simpa [State.TableOK] using htable
    · simpa using ⟨hlock, hrsp⟩
  obtain ⟨t, ht, hs, hcase⟩ := nextIndex_safe hsend (by simpa using hst) (by simpa [State.AtByte] using hpos (.inr hst))
  rw [hexec, andThen_of_next]
  refine ⟨t, ht, ?_⟩
  obtain hu | ⟨hl, hat⟩ := hcase
  · exact hs.safe (.inr (.inr hu)) (by simp [hu])
  · exact hs.safe (.inr (.inl hl)) fun _ => hat

theorem State.Ready.issue {s : State} (h : s.Ready) (w : CmdWord) (bs : List Byte) : (s.issue w bs).Ready := by
  obtain ⟨⟨hrmp, htxc, harg, hres⟩, hrest⟩ := h
  refine ⟨⟨hrmp, htxc, ?_, hres⟩, hrest⟩
  unfold State.issue
  split
  · rw [Memory.length_ofBytes]; exact Memory.dense_ofBytes _
  · exact harg

theorem State.issue_argbuf (s : State) {w : CmdWord} {i : Instr} (bs : List Byte) (hd : decode w = .ok i)
    (ht : i.takesPayload = true) : (s.issue w bs).argbuf = Memory.ofBytes (bs.take i.payloadIn) := by
  simp [State.issue, wordTakesPayload_ok hd, wordPayload_ok hd, ht]

/-- An instruction with payload bytes to come brings a payload buffer. -/
theorem Instr.takesPayload_of_pos {i : Instr} (h : 0 < i.payloadIn) : i.takesPayload = true := by
  by_contra hne
  rw [Instr.payloadIn_of_not_takes (by simpa using hne)] at h
  exact absurd h (Nat.lt_irrefl 0)

theorem callStep_safe {s : State} (w : CmdWord) (bs : List Byte) (h : s.Safe) (hst : s.st = .idle) :
    ∃ t, callStep w bs s = .next t ∧ t.Safe := by
  have hready := h.ready (.inl hst)
  unfold callStep
  cases hd : decode w with
  | error e => exact ⟨_, rfl, State.Safe.finish ((hready.latch w).respond _ _ _ _) rfl⟩
  | ok i =>
    have hissue := hready.issue w bs
    dsimp only
    split
    · next hlt =>
      refine ⟨_, rfl, (hissue.goto (.inr (.inl rfl)) (by simp [SeqState.configured])).safe
        ⟨fun _ => ?_, by simp, by simp⟩⟩
      show (s.issue w bs).argbuf.length < wordPayload w
      rw [s.issue_argbuf bs hd (Instr.takesPayload_of_pos (Nat.zero_lt_of_lt hlt)), wordPayload_ok hd,
        Memory.length_ofBytes, List.length_take]
      omega
    · next hge =>
      have ⟨hbuf, _⟩ := hissue
      obtain ⟨t, ht⟩ := exec_progress (i := i) hbuf fun htakes => by
        rw [s.issue_argbuf bs hd htakes, Memory.length_ofBytes, List.length_take]
        omega
      obtain ⟨hsafe, hresp⟩ := hissue.exec (decode_command hd) ht
      exact ⟨_, by rw [ht, andThen_of_next], hsafe.finish hresp⟩

/-! ### The statements -/

/-- Settles O43, by the kind of step (`step_cases`); an edge by its row (`seqEdge_safe`). -/
theorem safeStepNeverStops : Obligations.SafeStepNeverStops := by
  intro s h
  obtain ⟨p, f, he, -⟩ | ⟨f, -, ha, he⟩ | ⟨f, -, hst, he⟩ | ⟨w, bs, f, -, hst, he⟩ := step_cases s
  all_goals rw [he]
  · exact edge_safe p (s := s.setFeed f) h
  · exact symbol_safe (s := s.setFeed f) h ha
  · refine enterCritical_safe (s := s.setFeed f) h hst fun v hs hpos => ⟨_, rfl, ?_⟩
    exact (hs.goto (by simp [hst, SeqState.configured]) (by simp [hst]) .low).safe (.inr (.inl rfl)) fun _ => hpos
  · exact callStep_safe (s := s.setFeed f) w bs h hst

/-- Settles O42: a reset edge leaves safe states, and State.reset is its own reset. -/
theorem resetIsSafe : Obligations.ResetIsSafe := by
  have : resetEdge State.reset = State.reset := by decide
  unfold Obligations.ResetIsSafe
  rw [← this]
  exact resetEdge_safe (by decide)

/-- Settles O45. -/
theorem invariantsBetweenCommands : Obligations.InvariantsBetweenCommands := by
  intro s h hst
  obtain ⟨-, hlen, -, -, -, hlock⟩ := h.idle hst
  obtain ⟨-, ⟨habs, hcap⟩, -, -, hpins, -, -⟩ := h
  have ⟨_, hfloat, _, _⟩ := hpins
  refine ⟨hlen, hlock, habs, fun cap hc => ?_, fun l hl hdir => ⟨hfloat l hl hdir, hpins.low (by simp [hst]) l hl⟩⟩
  simpa [hc, withinCap] using hcap

end Sys2Proof.Machine
end

section
/-! Proofs about the scaling law (spec 42 R122 to R126). -/

namespace Sys2Proof.Machine

/-- A scaled value that is a byte is stored as it is, and nothing is drawn (42 R122). -/
theorem scale_inRange {v : Byte} {r : Scalar} (k : Nat) (h : 0 ≤ scaleInt v r ∧ scaleInt v r ≤ 255) :
    scale v r k = (BitVec.ofInt 8 (scaleInt v r), k) := if_pos h

/-- The number of an integer that is a byte, stored as one. -/
theorem toNat_ofInt_byte {q : Int} (h : 0 ≤ q ∧ q ≤ 255) : ((BitVec.ofInt 8 q).toNat : Int) = q := by
  rw [BitVec.toNat_ofInt]
  omega

/-- The product of a byte and a scalar between two bounds lies between their products with the byte. -/
theorem byte_mul_bounds (v : Byte) {r a b : Int} (ha : a ≤ r) (hb : r ≤ b) :
    (v.toNat : Int) * a ≤ v.toNat * r ∧ (v.toNat : Int) * r ≤ v.toNat * b :=
  ⟨Int.mul_le_mul_of_nonneg_left ha (Int.natCast_nonneg _), Int.mul_le_mul_of_nonneg_left hb (Int.natCast_nonneg _)⟩

/-- The scaled integer is the one nearest to the product, an exact half going up (42 R122, R124). -/
theorem scaleInt_nearest (v : Byte) (r : Scalar) :
    -32768 < 65536 * scaleInt v r - v.toNat * r.toInt ∧ 65536 * scaleInt v r - v.toNat * r.toInt ≤ 32768 := by
  unfold scaleInt
  omega

/-- For a brightness in [0, 1] the scaled integer lies between 0 and the byte (42 R126). -/
theorem scaleInt_le (v : Byte) {r : Scalar} (h0 : 0 ≤ r.toInt) (h1 : r.toInt ≤ 0x00010000) :
    0 ≤ scaleInt v r ∧ scaleInt v r ≤ v.toNat := by
  obtain ⟨hlo, hhi⟩ := byte_mul_bounds v h0 h1
  unfold scaleInt
  omega

/-- A larger byte and a larger brightness scale to no less (42 R126). -/
theorem scaleInt_mono {v u : Byte} {r q : Scalar} (h0 : 0 ≤ r.toInt) (hrq : r.toInt ≤ q.toInt)
    (hvu : v.toNat ≤ u.toNat) :
    scaleInt v r ≤ scaleInt u q := by
  have hp : (v.toNat : Int) * r.toInt ≤ u.toNat * q.toInt :=
    Int.mul_le_mul (by omega) hrq h0 (Int.natCast_nonneg _)
  unfold scaleInt
  omega

/-- For a brightness in [0, 1] the byte stored is the scaled integer. -/
theorem scale_unit (v : Byte) {r : Scalar} (k : Nat) (h0 : 0 ≤ r.toInt) (h1 : r.toInt ≤ 0x00010000) :
    ((scale v r k).1.toNat : Int) = scaleInt v r := by
  have hb := scaleInt_le v h0 h1
  have hv := v.isLt
  have hq : 0 ≤ scaleInt v r ∧ scaleInt v r ≤ 255 := by omega
  rw [scale_inRange k hq]
  exact toNat_ofInt_byte hq

/-- Settles O14: rounding by adding a half and shifting is rounding to the nearest. -/
theorem scaleIsNearest : Obligations.ScaleIsNearest := by
  refine ⟨fun v r k p hp => ?_, fun k => rfl⟩
  subst hp
  have hv := v.isLt
  obtain ⟨hlo, hhi⟩ := byte_mul_bounds v (BitVec.le_toInt r) (BitVec.toInt_le (x := r))
  obtain ⟨hnear, hnear'⟩ := scaleInt_nearest v r
  refine ⟨by omega, by omega, ?_, hnear, hnear', fun hq => ?_, fun hq => if_neg hq⟩
  · unfold scaleInt
    generalize (v.toNat : Int) * r.toInt + 32768 = m
    cases m with
    | ofNat m => exact (Int.shiftRight_eq_div_pow (Int.ofNat m) 16).symm
    | negSucc m => exact (Int.shiftRight_eq_div_pow (Int.negSucc m) 16).symm
  · rw [scale_inRange k hq]
    exact ⟨toNat_ofInt_byte hq, rfl⟩

/-- Settles O15: adding a half to an exact half gives the next integer. -/
theorem scaleTiesGoUp : Obligations.ScaleTiesGoUp := by
  intro v r m h
  rw [scaleInt, h]
  omega

/-- Settles O16: the bounds are those of the largest byte. -/
theorem scaleRange : Obligations.ScaleRange := by
  refine ⟨fun v r => scaleInt_le v, fun r => ⟨fun h => ?_, fun h v => ?_⟩, fun r => ?_⟩
  · have h255 := h 255#8
    simp only [scaleInt, show ((255#8).toNat : Int) = 255 from rfl] at h255
    omega
  · obtain ⟨hlo, hhi⟩ := byte_mul_bounds v h.1 h.2
    have hv := v.isLt
    unfold scaleInt
    omega
  · simp [scaleInt]

/-- Settles O17. -/
theorem scaleIdentities : Obligations.ScaleIdentities := by
  have hone : (0x00010000#32).toInt = 65536 := by decide
  refine ⟨fun v k => ?_, fun v k => ?_, fun r k => ?_, fun v u r q k h0 hrq h1 hvu => ?_⟩
  · have hv := v.isLt
    have hq : scaleInt v 0x00010000#32 = v.toNat := by rw [scaleInt, hone]; omega
    rw [scale_inRange k (by omega), hq]
    simp
  · have hq : scaleInt v 0#32 = 0 := by simp [scaleInt]
    rw [scale_inRange k (by omega), hq]
    rfl
  · have hq : scaleInt 0#8 r = 0 := by simp [scaleInt]
    rw [scale_inRange k (by omega), hq]
    rfl
  · have hv := scale_unit v k h0 (by omega)
    have hu := scale_unit u k (r := q) (by omega) h1
    obtain ⟨-, hle⟩ := scaleInt_le v h0 (by omega)
    have hmono := scaleInt_mono h0 hrq hvu
    omega

end Sys2Proof.Machine
end

section
/-! Proofs about the waveform function (spec 40 R88, 30 R70). -/

namespace Sys2Proof.Machine

/-- The pulses of a list of bits: 13 time-units for a 0, 14 for a 1. -/
theorem flatMap_pulse_length (bits : List Bool) :
    (bits.flatMap pulse).length = 13 * bits.count false + 14 * bits.count true := by
  induction bits with
  | nil => rfl
  | cons b bits ih =>
    rw [List.flatMap_cons, List.length_append, ih, pulse_length]
    cases b <;> simp <;> omega

/-- Every bit is a 0 or a 1. -/
theorem count_false_add_count_true (bits : List Bool) : bits.count false + bits.count true = bits.length := by
  induction bits with
  | nil => rfl
  | cons b bits ih => cases b <;> simp <;> omega

/-- Settles O28: the waveform is the pulses of the bits in turn (`waveOf_eq`). -/
theorem waveLength : Obligations.WaveLength := by
  refine ⟨rfl, fun L => ?_⟩
  have hlen : (waveOf L).length = 13 * (bitsOf L).count false + 14 * (bitsOf L).count true := by
    rw [waveOf_eq, flatMap_pulse_length]
  have hbits : (bitsOf L).count false + (bitsOf L).count true = 8 * L.length := by
    rw [count_false_add_count_true, bitsOf_length]
  exact ⟨hlen, hbits, by omega, by omega⟩

/-- Pulses can be told apart: after four time-units a 0 is low and a 1 still high (30 R70). -/
theorem pulse_append_inj {b c : Bool} {xs ys : List Bool} (h : pulse b ++ xs = pulse c ++ ys) : b = c ∧ xs = ys := by
  have hbc : b = c := by
    have := congrArg (fun l => l[4]?) h
    cases b <;> cases c <;> simp [pulse, tH, tL, t0H, t0L, t1H, t1L] at this ⊢
  subst hbc
  exact ⟨rfl, List.append_cancel_left h⟩

/-- A list of bits can be read off its pulses. -/
theorem flatMap_pulse_inj {xs ys : List Bool} (h : xs.flatMap pulse = ys.flatMap pulse) : xs = ys := by
  have hne : ∀ (b : Bool) (l : List Bool), [] ≠ pulse b ++ l := fun b l => by cases b <;> simp [pulse, tH, t0H, t1H]
  induction xs generalizing ys with
  | nil =>
    cases ys with
    | nil => rfl
    | cons b ys => exact absurd h (hne b _)
  | cons b xs ih =>
    cases ys with
    | nil => exact absurd h.symm (hne b _)
    | cons c ys =>
      obtain ⟨rfl, hrest⟩ := pulse_append_inj h
      rw [ih hrest]

/-- A byte can be read off its bits. -/
theorem byteBits_inj {v u : Byte} (h : byteBits v = byteBits u) : v = u := by
  simp only [byteBits, List.cons.injEq, and_true] at h
  obtain ⟨h7, h6, h5, h4, h3, h2, h1, h0⟩ := h
  apply BitVec.eq_of_getLsbD_eq
  intro i hi
  match i, hi with
  | 0, _ => exact h0
  | 1, _ => exact h1
  | 2, _ => exact h2
  | 3, _ => exact h3
  | 4, _ => exact h4
  | 5, _ => exact h5
  | 6, _ => exact h6
  | 7, _ => exact h7

/-- A buffer can be read off its bits, eight at a time. -/
theorem bitsOf_inj {L M : List Byte} (h : bitsOf L = bitsOf M) : L = M := by
  induction L generalizing M with
  | nil =>
    cases M with
    | nil => rfl
    | cons u M => cases h
  | cons v L ih =>
    cases M with
    | nil => cases h
    | cons u M =>
      have h' : byteBits v ++ bitsOf L = byteBits u ++ bitsOf M := h
      obtain ⟨hbyte, hrest⟩ := List.append_inj h' rfl
      rw [byteBits_inj hbyte, ih hrest]

/-- Settles O29: the pulses give back the bits, and the bits the bytes. -/
theorem waveIsUniquelyReadable : Obligations.WaveIsUniquelyReadable := by
  intro L M h
  rw [waveOf_eq, waveOf_eq] at h
  exact bitsOf_inj (flatMap_pulse_inj h)

end Sys2Proof.Machine
end

section
/-! Proofs about whole commands as steps: what a step runs, a payload that has not all come, and the brightness and
remap commands in turn (spec 10 R22, 42, 43, 95 S2, S5 to S7). -/

namespace Sys2Proof.Machine

/-! ### What a step runs -/

/-- CMD and ARGBUF after a legal word has been taken with its payload. -/
theorem State.issue_eq {s : State} {w : CmdWord} {i : Instr} (bs : List Byte) (hd : decode w = .ok i) :
    s.issue w bs = { s with
      cmd := w, argbuf := if i.takesPayload then Memory.ofBytes (bs.take i.payloadIn) else s.argbuf } := by
  simp [State.issue, State.latch, wordTakesPayload_ok hd, wordPayload_ok hd]

/-- A whole command with its payload is its instruction and then the end of the response. -/
theorem callStep_ok {s : State} {w : CmdWord} {bs : List Byte} {i : Instr} (hd : decode w = .ok i)
    (hlen : i.payloadIn ≤ bs.length) :
    callStep w bs s = andThen (exec i (s.issue w bs)) fun t => .next (finish t) := by
  simp only [callStep, hd]
  rw [if_neg (by omega)]

/-- A whole command whose payload has not all come waits in RECV. -/
theorem callStep_short {s : State} {w : CmdWord} {bs : List Byte} {i : Instr} (hd : decode w = .ok i)
    (hlen : bs.length < i.payloadIn) : callStep w bs s = .next ((s.issue w bs).goto .recv) := by
  simp only [callStep, hd]
  rw [if_pos hlen]

/-- The HOST's wire reaches PREEMPT while lock_req is 0 (log entry 14). -/
theorem State.hostPreempt_eq (s : State) (b : Bool) :
    s.hostPreempt b = { s with preempt := if s.lockReq then s.preempt else b } := by
  unfold State.hostPreempt
  split <;> rfl

/-- An edge without reset in EXEC. -/
theorem edge_exec {s : State} {p : PortIn} (hst : s.st = .exec) (hp : p.rst = false) :
    edge p s = execEdge (s.hostPreempt p.preemptIn) := by
  rw [edge_of_not_rst s hp]
  simp [seqEdge, hst]

theorem execEdge_ok {s : State} {i : Instr} (hd : decode s.cmd = .ok i) : execEdge s = exec i s := by
  simp [execEdge, hd]

theorem execEdge_error {s : State} {e : DecodeError} (hd : decode s.cmd = .error e) :
    execEdge s = .next (raise .eIllegal s) := by
  simp [execEdge, hd]

/-- Settles O8. -/
theorem stepRunsDecodedInstruction : Obligations.StepRunsDecodedInstruction := by
  refine ⟨fun s w payload rest i hst hf hd hlen => ?_, fun s rest hst hunit hf => ?_, fun s p rest i hst hf hp hd => ?_,
    fun s p rest e hst hf hp hd => ?_⟩
  · rw [step_call_idle hf hst, callStep_ok hd hlen, State.issue_eq payload hd]
    rfl
  · have ha : (s.setFeed rest).atSymbol = true := by simp [State.atSymbol, hst, hunit]
    rw [step_pulse hf, pulseStep_symbol ha]
    rfl
  · rw [step_edge hf, edge_exec (s := s.setFeed rest) hst hp, execEdge_ok (by simpa using hd), State.hostPreempt_eq]
    rfl
  · rw [step_edge hf, edge_exec (s := s.setFeed rest) hst hp, execEdge_error (e := e) (by simpa using hd),
      State.hostPreempt_eq]
    rfl

/-- Settles O10. -/
theorem shortPayloadWaits : Obligations.ShortPayloadWaits := by
  intro s w payload rest i hst hf hd hlen
  have htakes := Instr.takesPayload_of_pos (Nat.zero_lt_of_lt hlen)
  refine ⟨_, (step_call_idle hf hst).trans (callStep_short hd hlen), rfl, rfl, rfl, rfl, fun j => ?_⟩
  show ((s.setFeed rest).issue w payload).argbuf.read j = payload[j]?
  rw [State.issue_argbuf _ payload hd htakes, Memory.read_ofBytes, List.take_of_length_le (Nat.le_of_lt hlen)]

/-- A whole command in IDLE whose instruction answers is one step to the end of its response. -/
theorem step_call {s t : State} {w : CmdWord} {bs : List Byte} {rest : List Input} {i : Instr} (hst : s.st = .idle)
    (hf : s.feed = .call w bs :: rest) (hd : decode w = .ok i) (hlen : i.payloadIn ≤ bs.length)
    (he : exec i ((s.setFeed rest).issue w bs) = .next t) : step s = .next (finish t) := by
  rw [step_call_idle hf hst, callStep_ok hd hlen, he, andThen_of_next]

/-- What a whole command that answers `word` with `out` leaves: IDLE, the parameters, and one more answer in TRACE. -/
abbrev State.Answered (s t : State) (rest : List Input) (word : RspWord) (out : List Byte) : Prop :=
  t.st = .idle ∧ t.feed = rest ∧ t.cfg = s.cfg ∧ t.rsp = word ∧ t.trace = s.trace ++ [.resp word out]

/-! ### SETBRIGHT, then GETBRIGHT (95 S2) -/

theorem step_setbright {s : State} {v : Scalar} {bs : List Byte} {rest : List Input} (hst : s.st = .idle)
    (hf : s.feed = .call (0x1000#16 ++ v : BitVec (16 + 32)) bs :: rest) :
    ∃ t, step s = .next t ∧ s.Answered t rest (0#8 ++ v : BitVec (8 + 32)) [] ∧ t.bright = v := by
  have hd : decode (0x1000#16 ++ v : BitVec (16 + 32)) = .ok (.setbright v) :=
    (decode_eq_ok_iff rfl).2 (encode_setbright v)
  refine ⟨_, step_call hst hf hd (Nat.zero_le _) (exec_setbright v _), ?_⟩
  simp [State.Answered, rspWord_ok]

theorem step_getbright {s : State} {bs : List Byte} {rest : List Input} (hst : s.st = .idle)
    (hf : s.feed = .call 0x200000000000#48 bs :: rest) :
    ∃ t, step s = .next t ∧ s.Answered t rest (0#8 ++ s.bright : BitVec (8 + 32)) [] ∧ t.bright = s.bright := by
  have hd : decode 0x200000000000#48 = .ok .getbright := by decide
  refine ⟨_, step_call hst hf hd (Nat.zero_le _) (exec_getbright _), ?_⟩
  simp [State.Answered, rspWord_ok]

/-- Settles O13. -/
theorem setThenGetBrightness : Obligations.SetThenGetBrightness := by
  intro s v p q rest hst hf
  obtain ⟨t, ht, ⟨hst1, hf1, -, -, htr1⟩, hb1⟩ := step_setbright hst hf
  obtain ⟨u, hu, ⟨hst2, hf2, -, hrsp2, htr2⟩, hb2⟩ := step_getbright hst1 hf1
  refine ⟨u, ?_, hb2.trans hb1, hb1 ▸ hrsp2, hst2, hf2, ?_⟩
  · rw [run_succ_of_next ht, run_succ_of_next hu, run_zero]
  · rw [htr2, htr1, hb1, List.append_assoc]
    rfl

/-! ### The remap commands as instructions (43 R130, R132, R136) -/

/-- The word SETREMAP is encoded as: OP = 4, then ZERO and PIN of 0, then the length (30 R67). -/
theorem encode_setremap (n : Len) : encode (.setremap n) = .command (0x4000#16 ++ n : BitVec (16 + 32)) := by
  have hhead : (0x4#4 ++ 0#4 ++ 0#8 : BitVec (4 + 4 + 8)) = 0x4000#16 := by decide
  exact congrArg (fun head : BitVec 16 => Code.command (head ++ n)) hhead

/-- The bytes of an exact buffer, read whole, are all it holds. -/
theorem Memory.read_of_dense {m : Memory} {n : Nat} {bs : List Byte} (h : m.dense n = true)
    (hb : m.readFrom 0 n = .ok bs) (j : Nat) : m.read j = bs[j]? := by
  obtain ⟨hlen, hread⟩ := (Memory.readFrom_eq_ok m 0 n bs).1 hb
  by_cases hj : j < n
  · rw [← hread j hj, Nat.zero_add]
  · have hnone : (m.read j).isSome = false := by
      rw [← Bool.not_eq_true, Memory.read_dense h]
      exact hj
    rw [List.getElem?_eq_none (by omega)]
    simpa using hnone

/-- Settles O20. -/
theorem getremapCompletes : Obligations.GetremapCompletes := by
  intro s h
  obtain ⟨⟨hrmp, -⟩, -⟩ := h
  obtain ⟨bs, hbs, hlen⟩ := Memory.readFrom_dense hrmp
  cases hp : s.remapPresent with
  | true =>
    refine ⟨_, exec_getremap_present hp hbs, rfl, rfl, fun _ => ⟨bs, hlen, Memory.read_of_dense hrmp hbs, ?_⟩⟩
    rw [respond_trace, rspWord_ok_flag]
  | false => exact ⟨_, exec_getremap_absent hp, rfl, rfl, fun h => by cases h⟩

/-- Settles O21. -/
theorem setremapStores : Obligations.SetremapStores := by
  intro s n bs hlen hread ha
  have hb : s.argbuf.readFrom 0 n.toNat = .ok bs :=
    (Memory.readFrom_eq_ok _ _ _ _).2 ⟨hlen, fun j hj => by rw [Nat.zero_add, hread j (by omega)]⟩
  refine ⟨encode_setremap n, ?_, Memory.read_ofBytes bs⟩
  show execSetremap n s = _
  rw [execSetremap_ok ha hb, respond_ok_nil]
  rfl

/-- E_ALLOC as a response word: STATUS = 2 and zeros (30 R65, R66). -/
theorem rspWord_eAlloc : rspWord .eAlloc false 0#32 = 0x2000000000#40 := by decide

/-- Settles O22. -/
theorem setremapRefusedKeepsTable : Obligations.SetremapRefusedKeepsTable := by
  intro s n ha
  show execSetremap n s = _
  rw [execSetremap_alloc ha, raise_writes, rspWord_eAlloc]
  rfl

/-- Settles O25. -/
theorem remapLookupReads : Obligations.RemapLookupReads := by
  have hid : ∀ (s : State) (i : Nat), s.remapPresent = false ∨ s.remapLen.toNat ≤ i → s.remapLookup i = i := by
    intro s i h
    refine if_neg fun ⟨hp, hlt⟩ => ?_
    obtain h | h := h
    · simp [h] at hp
    · omega
  refine ⟨fun s i b hp hlt hb => ?_, hid, fun s n k hp => ?_⟩
  · rw [State.remapLookup, if_pos ⟨hp, hlt⟩, hb]
    rfl
  · rw [State.wireOrder, hid s _ (.inl hp)]
    split
    · exact Nat.div_add_mod k 3
    · rfl

/-! ### The remap commands in turn (95 S5 to S7) -/

/-- With unbounded storage a whole SETREMAP makes its payload the table. -/
theorem step_setremap {s : State} {x : List Byte} {rest : List Input} (hst : s.st = .idle)
    (ha : s.cfg.remapAlloc = .unbounded) (hx : x.length < 2 ^ 32)
    (hf : s.feed = .call (0x4000#16 ++ BitVec.ofNat 32 x.length : BitVec (16 + 32)) x :: rest) :
    ∃ t, step s = .next t ∧ s.Answered t rest 0#40 [] ∧ t.remapPresent = true ∧
      t.remapLen = BitVec.ofNat 32 x.length ∧ t.rmp = Memory.ofBytes x := by
  have hn : (BitVec.ofNat 32 x.length).toNat = x.length := by
    rw [BitVec.toNat_ofNat, Nat.mod_eq_of_lt hx]
  have hd := (decode_eq_ok_iff rfl).2 (encode_setremap (BitVec.ofNat 32 x.length))
  have hlen : (Instr.setremap (BitVec.ofNat 32 x.length)).payloadIn = x.length := hn
  have harg : ((s.setFeed rest).issue (0x4000#16 ++ BitVec.ofNat 32 x.length : BitVec (16 + 32)) x).argbuf =
      Memory.ofBytes x := by
    rw [State.issue_argbuf _ x hd rfl, hlen, List.take_length]
  have he := execSetremap_ok (s := (s.setFeed rest).issue (0x4000#16 ++ BitVec.ofNat 32 x.length : BitVec (16 + 32)) x)
    (n := BitVec.ofNat 32 x.length) (bs := x) (by simp [State.remapOK, ha, allocAnswer])
    (by rw [harg, hn]; exact Memory.readFrom_ofBytes x)
  refine ⟨_, step_call hst hf hd (Nat.le_of_eq hlen) he, ?_⟩
  simp [State.Answered, rspWord_ok_zero]

/-- A whole GETREMAP answers the table it finds. -/
theorem step_getremap_present {s : State} {x : List Byte} {rest : List Input} (hst : s.st = .idle)
    (hp : s.remapPresent = true) (hx : x.length < 2 ^ 32) (hlen : s.remapLen = BitVec.ofNat 32 x.length)
    (hrmp : s.rmp = Memory.ofBytes x) (hf : s.feed = .call 0x600000000000#48 [] :: rest) :
    ∃ t, step s = .next t ∧ s.Answered t rest (0x01#8 ++ BitVec.ofNat 32 x.length : BitVec (8 + 32)) x ∧
      t.remapPresent = true := by
  have hd : decode 0x600000000000#48 = .ok .getremap := by decide
  have hn : (BitVec.ofNat 32 x.length).toNat = x.length := by
    rw [BitVec.toNat_ofNat, Nat.mod_eq_of_lt hx]
  have he := exec_getremap_present (s := (s.setFeed rest).issue 0x600000000000#48 []) (bs := x) (by simpa using hp)
    (by simp [hlen, hrmp, hn])
  refine ⟨_, step_call hst hf hd (Nat.zero_le _) he, ?_⟩
  simp [State.Answered, rspWord_ok_flag, hp, hlen]

/-- A whole GETREMAP answers the absent signal if there is no table. -/
theorem step_getremap_absent {s : State} {rest : List Input} (hst : s.st = .idle) (hp : s.remapPresent = false)
    (hf : s.feed = .call 0x600000000000#48 [] :: rest) :
    ∃ t, step s = .next t ∧ s.Answered t rest 0#40 [] ∧ t.remapPresent = false := by
  have hd : decode 0x600000000000#48 = .ok .getremap := by decide
  refine ⟨_, step_call hst hf hd (Nat.zero_le _) (exec_getremap_absent (by simpa using hp)), ?_⟩
  simp [State.Answered, rspWord_ok_zero, hp]

/-- A whole CLEARREMAP drops the table and answers whether there was one. -/
theorem step_clearremap {s : State} {rest : List Input} (hst : s.st = .idle)
    (hf : s.feed = .call 0x500000000000#48 [] :: rest) :
    ∃ t, step s = .next t ∧ s.Answered t rest (rspWord .ok s.remapPresent 0#32) [] ∧ t.remapPresent = false := by
  have hd : decode 0x500000000000#48 = .ok .clearremap := by decide
  refine ⟨_, step_call hst hf hd (Nat.zero_le _) (exec_clearremap _), ?_⟩
  simp [State.Answered]

/-- Settles O24: each command finds the table the one before has left. -/
theorem remapCommandsInTurn : Obligations.RemapCommandsInTurn := by
  intro s x y rest hst ha hx hy hf
  obtain ⟨s1, h1, ⟨hst1, hf1, hc1, -, htr1⟩, hp1, hl1, hr1⟩ := step_setremap hst ha hx hf
  obtain ⟨s2, h2, ⟨hst2, hf2, hc2, -, htr2⟩, hp2⟩ := step_getremap_present hst1 hp1 hx hl1 hr1 hf1
  obtain ⟨s3, h3, ⟨hst3, hf3, hc3, -, htr3⟩, hp3, hl3, hr3⟩ :=
    step_setremap hst2 (by rw [hc2, hc1]; exact ha) hy hf2
  obtain ⟨s4, h4, ⟨hst4, hf4, -, -, htr4⟩, hp4⟩ := step_getremap_present hst3 hp3 hy hl3 hr3 hf3
  obtain ⟨s5, h5, ⟨hst5, hf5, -, -, htr5⟩, hp5⟩ := step_clearremap hst4 hf4
  obtain ⟨s6, h6, ⟨hst6, hf6, -, -, htr6⟩, hp6⟩ := step_getremap_absent hst5 hp5 hf5
  obtain ⟨s7, h7, ⟨hst7, hf7, -, -, htr7⟩, hp7⟩ := step_clearremap hst6 hf6
  refine ⟨s7, ?_, hst7, hf7, hp7, ?_⟩
  · rw [run_succ_of_next h1, run_succ_of_next h2, run_succ_of_next h3, run_succ_of_next h4, run_succ_of_next h5,
      run_succ_of_next h6, run_succ_of_next h7, run_zero]
  · simp [htr7, htr6, htr5, htr4, htr3, htr2, htr1, hp4, hp6, rspWord_ok_zero]

end Sys2Proof.Machine
end

section
/-! Proofs about TRANSMIT and about what every command answers (spec 41 R95 to R112, 60 R147, R150 to R156). -/

namespace Sys2Proof.Machine

/-! ### TRANSMIT that completes, or whose storage is refused -/

/-- Settles O30: all of it stands in `State.transmitted`. -/
theorem transmitCompletes : Obligations.TransmitCompletes := by
  intro s pin n l bs hpin ha hlen hread
  have hb : s.argbuf.readFrom 0 n.toNat = .ok bs :=
    (Memory.readFrom_eq_ok _ _ _ _).2 ⟨hlen, fun j hj => by rw [Nat.zero_add, hread j (by omega)]⟩
  have hl := State.pinLine_lt hpin
  have he := transmitBuffer_ok hpin ha hb
  obtain ⟨hrsp, hres, hst, -, -, htxc, htxcLen, hsel, hpre, hlock⟩ := s.transmitted_regs l n bs
  refine ⟨s.transmitted l n bs, s.copyOf bs, he, he, s.copyOf_length bs, fun j v q hv hq h0 h255 => ?_, ?_,
    s.transmitted_wave l n bs hl, hrsp.trans (rspWord_ok n), fun j => ?_, hst, hsel, s.transmitted_lines l n bs hl,
    htxc, htxcLen, hpre, hlock⟩
  · subst hq
    exact scaleAll_inRange s.bright (s.draws + 2) bs j v hv ⟨h0, h255⟩
  · rw [s.transmitted_trace l n bs, rspWord_ok]
    simp only [List.append_assoc]
  · rw [hres, Memory.read_ofBytes]

/-- What a TRANSMIT whose storage is refused has written: step 1, and the answer. -/
theorem State.refused_fields (s : State) (l : Nat) :
    (raise .eAlloc (s.configure l).asked).trace = s.trace ++
      [.pinMode l, .pinWrite l false, .settle s.cfg.tSettle, .resp 0x2000000000#40 []] ∧
    (raise .eAlloc (s.configure l).asked).rsp = 0x2000000000#40 := by
  simp [raise_eq, rspWord_eAlloc]

/-- Settles O33: after step 1 the answer follows (`transmitBuffer_alloc`). -/
theorem transmitRefusedStorage : Obligations.TransmitRefusedStorage := by
  intro s pin n l hpin ha
  have he := transmitBuffer_alloc (n := n) hpin (by simp [State.copyGranted, ha])
  obtain ⟨htrace, hrsp⟩ := s.refused_fields l
  refine ⟨_, he, he, htrace, hrsp, ?_⟩
  simp [raise_eq, Memory.ofBytes, Memory.fill, State.configure_lines_set]

/-! ### What TRANSMIT leaves alone (41 R95) -/

/-- However TRANSMIT ends, CMD, ARGBUF, the feed and the HOST's bit are as before. -/
theorem transmitBuffer_frame {s t : State} {pin : Pin} {n : Len} (h : transmitBuffer pin n s = .next t) :
    t.cmd = s.cmd ∧ t.argbuf = s.argbuf ∧ t.feed = s.feed ∧ t.preempt = s.preempt := by
  obtain ⟨-, rfl⟩ | ⟨l, -, -, rfl⟩ | ⟨l, bs, -, -, -, rfl⟩ := transmitBuffer_next h
  · simp [raise_eq]
  · simp [raise_eq]
  · simp [State.transmitted, State.copied]

/-- Settles O31. -/
theorem transmitFrame : Obligations.TransmitFrame := by
  intro i s t pin n hi h
  have ht : transmitBuffer pin n s = .next t := by obtain rfl | rfl := hi <;> exact h
  obtain ⟨hcmd, harg, hfeed, hpre⟩ := transmitBuffer_frame ht
  have hk := keeps_transmitBuffer ht
  obtain ⟨hpresent, hlen, hrmp⟩ := hk.table
  refine ⟨hk.cfg, hk.bright, hpresent, hlen, hcmd, hpre, hfeed, fun l hl => ?_, ?_, fun a => by rw [harg],
    fun a => by rw [hrmp], hk.trace⟩
  · by_contra hne
    obtain hsame | ⟨m, hm, hset⟩ := transmitBuffer_lines ht
    · exact hne (State.line_congr hsame l)
    · obtain ⟨rfl, -⟩ := State.line_changed hset hne
      exact hl hm
  · obtain hsame | ⟨m, -, hset⟩ := transmitBuffer_lines ht
    · simp only [State.numLines, hsame]
    · exact State.numLines_of_lines hset

/-! ### TRANSMIT and the table (41 R112) -/

/-- The state with another remap table. -/
def State.withTable (s : State) (present : Bool) (len : Len) (table : Memory) : State :=
  { s with remapPresent := present, remapLen := len, rmp := table }

section
variable (present : Bool) (len : Len) (table : Memory)

theorem delayUnits_withTable (n : Nat) (s : State) :
    (s.withTable present len table).delayUnits n = (s.delayUnits n).withTable present len table := by
  unfold State.delayUnits
  split <;> rfl

theorem emitSymbol_withTable (b : Bool) (s : State) :
    emitSymbol b (s.withTable present len table) = (emitSymbol b s).withTable present len table := by
  have hlevel : ∀ (u : State) (l : Nat) (c : Bool),
      (u.withTable present len table).level l c = (u.level l c).withTable present len table := fun _ _ _ => rfl
  have hevent : ∀ (u : State) (e : Event),
      (u.withTable present len table).event e = (u.event e).withTable present len table := fun _ _ => rfl
  have hsel : (s.withTable present len table).lineSel = s.lineSel := rfl
  simp only [emitSymbol, hevent, hlevel, hsel, delayUnits_withTable]

theorem sendByte_withTable (k : Nat) (v : Byte) (s : State) :
    sendByte k v (s.withTable present len table) = (sendByte k v s).withTable present len table := by
  have hbit : ∀ (u : State) (j : BitVec 3),
      sendBit j (u.withTable present len table) = (sendBit j u).withTable present len table :=
    fun u j => emitSymbol_withTable present len table _ (u.setBit j)
  have hload : (s.withTable present len table).loadByte (BitVec.ofNat 32 k) v =
      (s.loadByte (BitVec.ofNat 32 k) v).withTable present len table := rfl
  simp only [sendByte_eq, hload, hbit]

theorem sendBytes_withTable (vs : List Byte) (k : Nat) (s : State) :
    sendBytes vs k (s.withTable present len table) = (sendBytes vs k s).withTable present len table := by
  induction vs generalizing k s with
  | nil => rfl
  | cons v vs ih => simp only [sendBytes, sendByte_withTable, ih]

/-- A finished TRANSMIT from a state with another table. -/
theorem transmitted_withTable (s : State) (l : Nat) (n : Len) (bs : List Byte) :
    (s.withTable present len table).transmitted l n bs = (s.transmitted l n bs).withTable present len table := by
  have hlock : ((s.withTable present len table).copied l n bs).lock =
      ((s.copied l n bs).lock).withTable present len table := rfl
  have hcopy : (s.withTable present len table).copyOf bs = s.copyOf bs := rfl
  rw [State.transmitted, hlock, hcopy, sendBytes_withTable]
  rfl

end

/-- Settles O35: none of the ways a TRANSMIT can end reads the table. -/
theorem transmitIgnoresRemapTable : Obligations.TransmitIgnoresRemapTable := by
  intro s t pin n present len table h
  show transmitBuffer pin n (s.withTable present len table) = .next (t.withTable present len table)
  have hpin : (s.withTable present len table).pinLine pin = s.pinLine pin := rfl
  obtain ⟨hl, rfl⟩ | ⟨l, hl, ha, rfl⟩ | ⟨l, bs, hl, ha, hb, rfl⟩ := transmitBuffer_next h
  · rw [transmitBuffer_pin n (hpin.trans hl)]
    rfl
  · rw [transmitBuffer_alloc (hpin.trans hl) ha]
    rfl
  · rw [transmitBuffer_ok (hpin.trans hl) ha hb, transmitted_withTable]

/-! ### The answer of every command -/

/-- From `s` to `t` a command has answered once, last of its events `es`, with this payload. An error has not entered
the critical section. The payload has VALUE bytes, unless VALUE is a scalar (10 R22, 60 R150, R151). -/
def State.Answers (s t : State) (scalar : Prop) : Prop :=
  ∃ (es : List Event) (payload : List Byte),
    t.trace = s.trace ++ es ++ [.resp t.rsp payload] ∧ t.st = .resp ∧ (∀ j, t.resbuf.read j = payload[j]?) ∧
    (∀ w p, Event.resp w p ∉ es) ∧
    (rspStatus t.rsp ≠ 0#4 → Event.lock ∉ es ∧ Event.unlock ∉ es ∧ (∀ l b, Event.emit l b ∉ es) ∧ payload = []) ∧
    (¬scalar → payload.length = (rspValue t.rsp).toNat) ∧ (scalar → payload = [])

/-- The VALUE of a response. -/
theorem rspValue_rspWord (c : Status) (f : Bool) (v : BitVec 32) : rspValue (rspWord c f v) = v := by
  obtain ⟨-, -, -, h⟩ := rspWord_fields c f v
  exact h

/-- The STATUS of a response. -/
theorem rspStatus_rspWord (c : Status) (f : Bool) (v : BitVec 32) : rspStatus (rspWord c f v) = c.code := by
  obtain ⟨h, -⟩ := rspWord_fields c f v
  exact h

/-- A response whose payload has VALUE bytes, or none for a scalar, is an answer, if nothing was sent before. -/
theorem respond_answers {c : Status} {f : Bool} {v : BitVec 32} {bs : List Byte} {s u : State} {scalar : Prop}
    (es : List Event) (htrace : u.trace = s.trace ++ es)
    (hes : (∀ w p, Event.resp w p ∉ es) ∧ Event.lock ∉ es ∧ Event.unlock ∉ es ∧ (∀ l b, Event.emit l b ∉ es))
    (hc : c ≠ .ok → bs = []) (hlen : ¬scalar → bs.length = v.toNat) (hscalar : scalar → bs = []) :
    s.Answers (respond c f v bs u) scalar := by
  obtain ⟨hresp, hlock, hunlock, hemit⟩ := hes
  refine ⟨es, bs, by rw [respond_trace, respond_rsp, htrace], respond_st _ _ _ _ _, Memory.read_ofBytes bs, hresp,
    fun hne => ⟨hlock, hunlock, hemit, hc ?_⟩, ?_, hscalar⟩
  · rintro rfl
    rw [respond_rsp, rspStatus_rspWord] at hne
    exact hne rfl
  · rw [respond_rsp, rspValue_rspWord]
    exact hlen

/-- An answer that follows nothing. -/
theorem respond_answers_only {c : Status} {f : Bool} {v : BitVec 32} {bs : List Byte} {s u : State} {scalar : Prop}
    (htrace : u.trace = s.trace) (hc : c ≠ .ok → bs = []) (hlen : ¬scalar → bs.length = v.toNat)
    (hscalar : scalar → bs = []) : s.Answers (respond c f v bs u) scalar :=
  respond_answers [] (by rw [htrace, List.append_nil]) (by simp) hc hlen hscalar

/-- However TRANSMIT ends, it has answered: an error before `Lock()`, or OK with the copy (41 R102). -/
theorem transmitBuffer_answers {s t : State} {pin : Pin} {n : Len} {scalar : Prop}
    (h : transmitBuffer pin n s = .next t) (hs : ¬scalar) : s.Answers t scalar := by
  obtain ⟨-, rfl⟩ | ⟨l, -, -, rfl⟩ | ⟨l, bs, -, -, hb, rfl⟩ := transmitBuffer_next h
  · exact respond_answers_only rfl (fun _ => rfl) (fun _ => rfl) (fun _ => rfl)
  · exact respond_answers [.pinMode l, .pinWrite l false, .settle s.cfg.tSettle] (by simp) (by simp) (fun _ => rfl)
      (fun _ => rfl) (fun _ => rfl)
  · obtain ⟨hrsp, hres, hst, -⟩ := s.transmitted_regs l n bs
    have hlen : bs.length = n.toNat := ((Memory.readFrom_eq_ok _ _ _ _).1 hb).1
    refine ⟨[.pinMode l, .pinWrite l false, .settle s.cfg.tSettle, .lock] ++
      (bitsOf (s.copyOf bs)).map (Event.emit l) ++ [.unlock], s.copyOf bs, ?_, hst, fun j => ?_, by simp, ?_,
      fun _ => ?_, fun hs' => absurd hs' hs⟩
    · rw [s.transmitted_trace l n bs, hrsp]
      simp
    · rw [hres, Memory.read_ofBytes]
    · rw [hrsp, rspStatus_rspWord]
      exact fun hne => absurd rfl hne
    · rw [hrsp, rspValue_rspWord, State.copyOf_length, hlen]

/-- Every command answers; the VALUE of SETBRIGHT and GETBRIGHT is a scalar. -/
theorem exec_answers {i : Instr} {s t : State} (h : exec i s = .next t) (h0 : i ≠ .emit0) (h1 : i ≠ .emit1) :
    s.Answers t ((∃ v, i = .setbright v) ∨ i = .getbright) := by
  obtain ⟨v, hi, rfl⟩ | ⟨hi, rfl⟩ | ⟨pin, n, hi, ht⟩ | ⟨n, rfl, ht⟩ | ⟨rfl, rfl⟩ | ⟨rfl, ht⟩ | ⟨b, hb, -⟩ := exec_next h
  · exact respond_answers_only rfl (fun _ => rfl) (fun hs => absurd (.inl ⟨v, hi⟩) hs) (fun _ => rfl)
  · exact respond_answers_only rfl (fun _ => rfl) (fun hs => absurd (.inr hi) hs) (fun _ => rfl)
  · exact transmitBuffer_answers ht (by obtain rfl | rfl := hi <;> simp)
  · obtain ⟨-, rfl⟩ | ⟨bs, -, -, rfl⟩ := execSetremap_next ht
    · exact respond_answers_only rfl (fun _ => rfl) (fun _ => rfl) (fun _ => rfl)
    · exact respond_answers_only rfl (fun _ => rfl) (fun _ => rfl) (fun _ => rfl)
  · exact respond_answers_only rfl (fun _ => rfl) (fun _ => rfl) (fun _ => rfl)
  · obtain ⟨-, rfl⟩ | ⟨bs, -, hb, rfl⟩ := execGetremap_next ht
    · exact respond_answers_only rfl (fun _ => rfl) (fun _ => rfl) (fun _ => rfl)
    · obtain ⟨hlen, -⟩ := (Memory.readFrom_eq_ok _ _ _ _).1 hb
      exact respond_answers_only rfl (fun hne => absurd rfl hne) (fun _ => hlen) (by simp)
  · cases b
    · exact absurd hb h0
    · exact absurd hb h1

/-- Settles O36. -/
theorem oneAnswerAndErrorsBeforeLock : Obligations.OneAnswerAndErrorsBeforeLock := by
  intro i s t h h0 h1
  obtain ⟨es, payload, htr, hst, hres, hresp, herr, hlen, hscalar⟩ := exec_answers h h0 h1
  exact ⟨es, payload, htr, hst, hres, hresp, herr, fun hs hg => hlen (not_or.2 ⟨fun ⟨v, hv⟩ => hs v hv, hg⟩), hscalar⟩

/-! ### PREEMPT and errors -/

/-- However TRANSMIT ends, lock_req is down if it was (41 R101). -/
theorem transmitBuffer_lockReq {s t : State} {pin : Pin} {n : Len} (h : transmitBuffer pin n s = .next t)
    (hl : s.lockReq = false) : t.lockReq = false := by
  obtain ⟨-, rfl⟩ | ⟨l, -, -, rfl⟩ | ⟨l, bs, -, -, -, rfl⟩ := transmitBuffer_next h
  · simpa [raise_eq] using hl
  · simpa [raise_eq] using hl
  · simp [State.transmitted]

/-- Settles O37: `Unlock()` restores what `Lock()` saved, and no other operation of an instruction writes PREEMPT. -/
theorem preemptionIsRestored : Obligations.PreemptionIsRestored := by
  intro i s t h
  obtain ⟨v, -, rfl⟩ | ⟨-, rfl⟩ | ⟨pin, n, -, ht⟩ | ⟨n, -, ht⟩ | ⟨-, rfl⟩ | ⟨-, ht⟩ | ⟨b, -, rfl⟩ := exec_next h
  · simp
  · simp
  · obtain ⟨-, -, -, hpre⟩ := transmitBuffer_frame ht
    exact ⟨hpre, transmitBuffer_lockReq ht⟩
  · obtain ⟨-, rfl⟩ | ⟨bs, -, -, rfl⟩ := execSetremap_next ht <;> simp [raise_eq]
  · simp
  · obtain ⟨-, rfl⟩ | ⟨bs, -, -, rfl⟩ := execGetremap_next ht <;> simp
  · simp

/-- Settles O38: the word of an error is its number and zeros. -/
theorem raiseOnlyAnswers : Obligations.RaiseOnlyAnswers := by
  intro e s
  have hword : rspWord e false 0#32 = (e.code ++ 0#36 : BitVec (4 + 36)) := by cases e <;> decide
  rw [raise_writes, hword]

end Sys2Proof.Machine
end

section
/-! Proofs about the ports and single edges: reset, which wires are looked at, command issue and the response on the
wires (spec 10 R18, R21, R22, 70 R170, R171). -/

namespace Sys2Proof.Machine

/-! ### One edge -/

/-- Settles O48: a reset edge is `resetEdge`, after the HOST's bit has been looked at if lock_req is 0. -/
theorem resetEdge_writes : Obligations.ResetEdge := by
  intro s p rest hf hp
  have hline : ∀ u : State, ∀ l, (resetEdge u).line l = Line.undriven := fun u l => by
    by_cases hl : l < u.lines.length <;>
      simp [State.line, resetEdge, State.numLines, List.getD_eq_getElem?_getD, hl]
  refine ⟨_, (step_edge hf).trans (if_pos hp), rfl, rfl, rfl, rfl, rfl, rfl, rfl, rfl, rfl, ?_, hline _,
    fun hlock => ?_, fun hlock => ?_, ?_, ?_⟩
  · simp [State.numLines, resetEdge]
  · simp [resetEdge, hlock]
  · simp [resetEdge, hlock]
  · simp [resetEdge]
  · simp [resetEdge]

/-- Outside IDLE a row does not look at the command channel (10 R22). -/
theorem seqEdge_ignores_command {s : State} (p : PortIn) (v : Bool) (w : CmdWord) (hst : s.st ≠ .idle) :
    seqEdge { p with cmdValid := v, cmdWord := w } s = seqEdge p s := by
  unfold seqEdge
  split
  next h => exact absurd h hst
  all_goals rfl

/-- Settles O49. -/
theorem commandPortWhileBusy : Obligations.CommandPortWhileBusy := by
  refine ⟨fun s => ?_, fun s p v w hst => ?_⟩
  · simp [State.ports, State.busy]
  · unfold edge
    rw [seqEdge_ignores_command p v w (by simpa using hst)]

/-- From LOCK to UNLOCK a row does not look at the wires (41 R108). -/
theorem seqEdge_ignores_wires {s : State} (p q : PortIn) (hst : s.st = .lock ∨ s.st.critical) :
    seqEdge p s = seqEdge q s := by
  obtain h | h | h | h := hst <;> simp [seqEdge, h]

/-- Settles O50. -/
theorem noWireSampledInCriticalSection : Obligations.NoWireSampledInCriticalSection := by
  refine ⟨fun s p q hlock hst hrst => ?_, fun s p q hst hrst hpre => ?_⟩
  · obtain ⟨hlock, -⟩ := hlock
    have hl := hlock.2 hst
    unfold edge
    rw [State.hostPreempt_of_lockReq _ hl, State.hostPreempt_of_lockReq _ hl, hrst,
      seqEdge_ignores_wires p q (.inr hst)]
  · unfold edge
    rw [hrst, hpre, seqEdge_ignores_wires p q (.inl (by simpa using hst))]

/-! ### Runs of edges -/

/-- The state with this for the HOST to do and this on its preemption bit. -/
def State.hosted (s : State) (f : List Input) (b : Bool) : State := { s with feed := f, preempt := b }

@[simp] theorem State.hosted_hosted (s : State) (f g : List Input) (b c : Bool) :
    (s.hosted f b).hosted g c = s.hosted g c := rfl

theorem State.setFeed_hostPreempt (s : State) (f : List Input) (b : Bool) :
    (s.setFeed f).hostPreempt b = s.hosted f (if s.lockReq then s.preempt else b) := by
  rw [State.hostPreempt_eq]
  rfl

/-- One edge without reset, given by the HOST, is a row taken by the state the HOST has set its bit in. -/
theorem step_edge_row {s : State} {p : PortIn} {f : List Input} (hf : s.feed = .edge p :: f) (hp : p.rst = false) :
    step s = seqEdge p (s.hosted f (if s.lockReq then s.preempt else p.preemptIn)) := by
  rw [step_edge hf, edge_of_not_rst _ hp, State.setFeed_hostPreempt]

/-- One edge of those ahead, whatever its wires. -/
theorem step_ahead_row {k : Nat} {s : State} (h : edgesAhead (k + 1) s.feed = true) (hs : s.st ≠ .idle) :
    ∃ (p : PortIn) (f : List Input), edgesAhead k f = true ∧
      step s = seqEdge p (s.hosted f (if s.lockReq then s.preempt else s.preemptNext)) := by
  obtain ⟨p, f, he, hp, hpre, hf⟩ := step_edgesAhead h hs
  exact ⟨p, f, hf, by rw [he, edge_of_not_rst _ hp, State.setFeed_hostPreempt, hpre]⟩

/-! ### Command issue on the wires (10 R22) -/

/-- Starting a command leaves CMD, ARGBUF and what the HOST does alone. -/
theorem startCommand_keeps_input (s : State) :
    (startCommand s).cmd = s.cmd ∧ (startCommand s).argbuf = s.argbuf ∧ (startCommand s).feed = s.feed := by
  obtain ⟨pin, n, -, he⟩ | ⟨-, he⟩ := startCommand_cases s
  · obtain ⟨-, he'⟩ | ⟨l, -, -, he'⟩ := resolvePin_cases pin s
    · rw [he, he']; exact ⟨rfl, rfl, rfl⟩
    · rw [he, he']; exact ⟨rfl, rfl, rfl⟩
  · rw [he]; exact ⟨rfl, rfl, rfl⟩

/-- Starting the command in CMD is where execution of it starts, from any state with the same parameters, lines and
TRACE. -/
theorem startCommand_startsFrom {s u : State} {w : CmdWord} (hcmd : u.cmd = w) (htrace : u.trace = s.trace)
    (hpin : ∀ pin, u.pinLine pin = s.pinLine pin) : (startCommand u).StartsFrom s w := by
  subst hcmd
  obtain ⟨pin, n, hd, he⟩ | ⟨hd, he⟩ := startCommand_cases u
  · rw [he]
    refine ⟨fun pin' n' l hd' hl => ?_, fun pin' n' hd' hl => ?_, fun hne => absurd hd (hne pin n)⟩
    all_goals
      cases hd.symm.trans hd'
      rw [← hpin] at hl
      simp [resolvePin, hl, htrace, raise_eq, rspWord_ePin, Memory.ofBytes, Memory.fill]
  · rw [he]
    exact ⟨fun pin n l hd' => absurd hd' (hd pin n), fun pin n hd' => absurd hd' (hd pin n), fun _ => ⟨rfl, htrace⟩⟩

/-- A command transfer (41 R108, rows IDLE). -/
theorem acceptWord_spec (w : CmdWord) (s : State) :
    (acceptWord w s).cmd = w ∧ (acceptWord w s).feed = s.feed ∧
    (wordTakesPayload w = true → (acceptWord w s).argbuf = []) ∧
    (0 < wordPayload w → (acceptWord w s).st = .recv ∧ (acceptWord w s).trace = s.trace) ∧
    (wordPayload w = 0 → (acceptWord w s).StartsFrom s w) := by
  unfold acceptWord
  split
  · next hpos =>
    exact ⟨rfl, rfl, State.latch_argbuf, fun _ => ⟨rfl, rfl⟩, fun h0 => absurd h0 (Nat.ne_of_gt hpos)⟩
  · next hzero =>
    obtain ⟨hcmd, harg, hfeed⟩ := startCommand_keeps_input (s.latch w)
    exact ⟨hcmd, hfeed, fun ht => harg.trans (State.latch_argbuf ht), fun hpos => absurd hpos hzero,
      fun _ => startCommand_startsFrom rfl rfl fun _ => rfl⟩

/-- A payload-in transfer (41 R108, rows RECV). -/
theorem recvEdge_takes {p : PortIn} {s : State} (hp : p.dinValid = true) (hst : s.st = .recv)
    (hd : s.argbuf.dense s.argbuf.length = true) :
    (recvEdge p s).cmd = s.cmd ∧ (recvEdge p s).feed = s.feed ∧
    (∀ j, (recvEdge p s).argbuf.read j = if j = s.argbuf.length then some p.dinData else s.argbuf.read j) ∧
    (recvEdge p s).argbuf.length = s.argbuf.length + 1 ∧
    (s.argbuf.length + 1 < wordPayload s.cmd → (recvEdge p s).st = .recv ∧ (recvEdge p s).trace = s.trace) ∧
    (s.argbuf.length + 1 = wordPayload s.cmd → (recvEdge p s).StartsFrom s s.cmd) := by
  obtain ⟨hlen, -⟩ := State.takeByte_dense p.dinData hd
  have hread : ∀ j, (s.takeByte p.dinData).argbuf.read j =
      if j = s.argbuf.length then some p.dinData else s.argbuf.read j := by
    intro j
    rw [State.takeByte_argbuf, Memory.read_write]
    simp only [eq_comm]
  unfold recvEdge
  rw [if_pos hp, hlen]
  split
  · next hlt => exact ⟨rfl, rfl, hread, hlen, fun _ => ⟨hst, rfl⟩, fun heq => absurd heq (Nat.ne_of_lt hlt)⟩
  · next hge =>
    obtain ⟨hcmd, harg, hfeed⟩ := startCommand_keeps_input (s.takeByte p.dinData)
    rw [harg]
    exact ⟨hcmd, hfeed, hread, hlen, fun hlt => absurd hlt hge, fun _ => startCommand_startsFrom rfl rfl fun _ => rfl⟩

/-- Settles O55, row by row. -/
theorem commandAndPayloadTransfers : Obligations.CommandAndPayloadTransfers := by
  refine ⟨fun s p rest hs hst hf hp hv => ?_, fun s p rest hst hf hp hv => ?_, fun s p rest hs hst hf hp => ⟨?_, ?_⟩⟩
  · obtain ⟨-, -, -, -, -, hlock⟩ := hs.idle hst
    rw [step_edge_row hf hp]
    simp [seqEdge, State.hosted, hst, hv, hlock]
  · refine ⟨acceptWord p.cmdWord _, (step_edge_row hf hp).trans ?_,
      acceptWord_spec p.cmdWord (s.hosted rest (if s.lockReq then s.preempt else p.preemptIn))⟩
    simp [seqEdge, State.hosted, hst, hv]
  · intro hv
    obtain ⟨-, -, -, hlock, -⟩ := hs.ready (.inr (.inl hst))
    rw [step_edge_row hf hp]
    simp [seqEdge, State.hosted, hst, hv, recvEdge, hlock]
  · intro hv
    obtain ⟨⟨-, -, hd, -⟩, -⟩ := hs
    refine ⟨recvEdge p _, (step_edge_row hf hp).trans ?_,
      recvEdge_takes (s := s.hosted rest (if s.lockReq then s.preempt else p.preemptIn)) hv hst hd⟩
    simp [seqEdge, State.hosted, hst]

/-! ### The response on the wires (10 R22) -/

/-- The wires of a HOST that takes what it is given (10 R22). -/
abbrev PortIn.takes (r : PortIn) : Prop := r.rst = false ∧ r.rspReady = true ∧ r.doutReady = true

/-- An edge in RESP is `respEdge` of the state the HOST has set its bit in. -/
theorem step_resp {s : State} {r : PortIn} {f : List Input} (hst : s.st = .resp) (hf : s.feed = .edge r :: f)
    (hr : r.rst = false) :
    step s = .next (respEdge r (s.hosted f (if s.lockReq then s.preempt else r.preemptIn))) := by
  rw [step_edge_row hf hr]
  simp [seqEdge, State.hosted, hst]

/-- The HOST's bit after an edge is as before if it left it alone. -/
theorem State.preempt_kept {s : State} {b : Bool} (h : b = s.preempt) :
    (if s.lockReq then s.preempt else b) = s.preempt := by
  rw [h, ite_self]

/-- The response word and `d` payload bytes have gone. -/
def State.sentOut (s : State) (d : Nat) : State := { s with rspSent := true, doutIdx := d }

/-- The response transfer of a response with a payload. -/
theorem step_responseTransfer {t : State} {r : PortIn} {f : List Input} (hst : t.st = .resp) (hsent : t.rspSent = false)
    (hdout : t.doutIdx = 0) (hr : r.takes) (hf : t.feed = .edge r :: f) (hne : t.resbuf.length ≠ 0) :
    ∃ b, step t = .next ((t.sentOut 0).hosted f b) ∧ (r.preemptIn = t.preempt → b = t.preempt) := by
  obtain ⟨hrst, hrsp, -⟩ := hr
  refine ⟨_, (step_resp hst hf hrst).trans ?_, State.preempt_kept⟩
  simp [respEdge, State.hosted, State.sentOut, hsent, hrsp, hne, hdout]

/-- A payload-out transfer that is not the last. -/
theorem step_payloadOut {t : State} {r : PortIn} {f : List Input} {d : Nat} (hst : t.st = .resp) (hr : r.takes)
    (hf : t.feed = .edge r :: f) (hlt : d + 1 < t.resbuf.length) :
    ∃ b, step (t.sentOut d) = .next ((t.sentOut (d + 1)).hosted f b) ∧ (r.preemptIn = t.preempt → b = t.preempt) := by
  obtain ⟨hrst, -, hdout⟩ := hr
  refine ⟨if t.lockReq then t.preempt else r.preemptIn, (step_resp (s := t.sentOut d) hst hf hrst).trans ?_,
    State.preempt_kept⟩
  simp only [respEdge, State.hosted, State.sentOut, hdout, hlt, if_true, Bool.true_eq_false, if_false]
  rfl

/-- The last payload-out transfer. -/
theorem step_lastPayloadOut {t : State} {r : PortIn} {f : List Input} {d : Nat} (hst : t.st = .resp) (hr : r.takes)
    (hf : t.feed = .edge r :: f) (hlast : d + 1 = t.resbuf.length) :
    ∃ b, step (t.sentOut d) = .next (finish (t.hosted f b)) ∧ (r.preemptIn = t.preempt → b = t.preempt) := by
  obtain ⟨hrst, -, hdout⟩ := hr
  refine ⟨if t.lockReq then t.preempt else r.preemptIn, (step_resp (s := t.sentOut d) hst hf hrst).trans ?_,
    State.preempt_kept⟩
  simp only [respEdge, State.hosted, State.sentOut, hdout, hlast, finish, Nat.lt_irrefl, if_true, Bool.true_eq_false,
    if_false]
  rfl

/-- Payload-out transfers before the last: one byte each, and nothing else moves. -/
theorem run_payloadOut (rs : List PortIn) {t : State} {d : Nat} {f : List Input} (hst : t.st = .resp)
    (hrs : ∀ r ∈ rs, r.takes) (hf : t.feed = rs.map .edge ++ f) (hlt : d + rs.length < t.resbuf.length) :
    ∃ b, Host.Core.run Sys2Proof.core rs.length (t.sentOut d) = .next ((t.sentOut (d + rs.length)).hosted f b) ∧
      ((∀ r ∈ rs, r.preemptIn = t.preempt) → b = t.preempt) := by
  induction rs generalizing t d with
  | nil =>
    have hf' : t.feed = f := hf
    exact ⟨t.preempt, by rw [← hf']; rfl, fun _ => rfl⟩
  | cons r rs ih =>
    have hlen : (r :: rs).length = rs.length + 1 := rfl
    obtain ⟨b, hstep, hb⟩ := step_payloadOut (d := d) hst (hrs r (by simp)) hf (by omega)
    obtain ⟨c, hrun, hc⟩ := ih (t := t.hosted (rs.map .edge ++ f) b) (d := d + 1) hst (fun q hq => hrs q (by simp [hq]))
      rfl (by show d + 1 + rs.length < t.resbuf.length; omega)
    refine ⟨c, ?_, fun hpre => ?_⟩
    · rw [hlen, run_succ_of_next hstep, show d + (rs.length + 1) = d + 1 + rs.length by omega]
      exact hrun
    · have hbt := hb (hpre r (by simp))
      exact (hc fun q hq => (hpre q (by simp [hq])).trans hbt.symm).trans hbt

/-- After the response transfer and `rs.length` payload-out transfers that are not the last. -/
theorem run_responseAndPayload {r : PortIn} (rs : List PortIn) {t : State} {f : List Input} (hst : t.st = .resp)
    (hsent : t.rspSent = false) (hdout : t.doutIdx = 0) (hrs : ∀ q ∈ r :: rs, q.takes)
    (hf : t.feed = (r :: rs).map .edge ++ f) (hlt : rs.length < t.resbuf.length) :
    ∃ b, Host.Core.run Sys2Proof.core (1 + rs.length) t = .next ((t.sentOut rs.length).hosted f b) ∧
      ((∀ q ∈ r :: rs, q.preemptIn = t.preempt) → b = t.preempt) := by
  obtain ⟨b, hstep, hb⟩ := step_responseTransfer hst hsent hdout (hrs r (by simp)) hf (by omega)
  obtain ⟨c, hrun, hc⟩ := run_payloadOut rs (t := t.hosted (rs.map .edge ++ f) b) (d := 0) hst
    (fun q hq => hrs q (by simp [hq])) rfl (by show 0 + rs.length < t.resbuf.length; omega)
  refine ⟨c, ?_, fun hpre => ?_⟩
  · rw [Nat.zero_add] at hrun
    rw [Nat.add_comm, run_succ_of_next hstep]
    exact hrun
  · have hbt := hb (hpre r (by simp))
    exact (hc fun q hq => (hpre q (by simp [hq])).trans hbt.symm).trans hbt

/-- A HOST that takes what it is given ends the response after the word and each byte of the payload, and not before
(10 R22). -/
theorem run_response (rs : List PortIn) {t : State} {f : List Input} (hst : t.st = .resp) (hsent : t.rspSent = false)
    (hdout : t.doutIdx = 0) (hrs : ∀ r ∈ rs, r.takes) (hf : t.feed = rs.map .edge ++ f)
    (hlen : rs.length = 1 + t.resbuf.length) :
    ∃ b, Host.Core.run Sys2Proof.core rs.length t = .next (finish (t.hosted f b)) ∧
      ((∀ r ∈ rs, r.preemptIn = t.preempt) → b = t.preempt) := by
  obtain ⟨qs, z, rfl⟩ : ∃ qs z, rs = qs ++ [z] :=
    ⟨_, _, (List.dropLast_append_getLast (List.ne_nil_of_length_pos (by omega))).symm⟩
  have hz := hrs z (by simp)
  cases qs with
  | nil =>
    have h0 : t.resbuf.length = 0 := by simpa using hlen
    obtain ⟨hrst, hrsp, -⟩ := hz
    refine ⟨_, (run_succ_of_next ((step_resp hst hf hrst).trans ?_)).trans (run_zero _),
      fun hpre => State.preempt_kept (hpre z (by simp))⟩
    simp [respEdge, State.hosted, hsent, hrsp, h0]
  | cons r qs =>
    have hlen' : qs.length + 1 = t.resbuf.length := by simp at hlen; omega
    obtain ⟨b, hrun, hb⟩ := run_responseAndPayload (r := r) qs (f := .edge z :: f) hst hsent hdout
      (fun q hq => hrs q (List.mem_append_left _ hq)) (by rw [hf]; simp) (by omega)
    obtain ⟨c, hstep, hc⟩ := step_lastPayloadOut (t := t.hosted (.edge z :: f) b) (d := qs.length) hst hz rfl hlen'
    refine ⟨c, ?_, fun hpre => ?_⟩
    · rw [show ((r :: qs) ++ [z]).length = 1 + qs.length + 1 by simp; omega, run_add hrun]
      exact (run_succ_of_next hstep).trans (run_zero _)
    · have hbt := hb fun q hq => hpre q (List.mem_append_left _ hq)
      exact (hc ((hpre z (by simp)).trans hbt.symm)).trans hbt

/-- Settles O56: until the HOST takes something `respEdge` moves nothing; then the transfers follow each other
(`run_responseAndPayload`, `run_response`). -/
theorem responseTransfers : Obligations.ResponseTransfers := by
  refine ⟨fun s p rest hs hst hf hp hcase => ?_, fun s out rs rest hs hst hsent hres hlen hrs hf => ?_⟩
  · have hlock : s.lockReq = false := by
      obtain ⟨-, -, -, ⟨hlock, -⟩, -⟩ := hs
      rw [← Bool.not_eq_true, hlock]
      simp [hst, SeqState.critical]
    rw [step_resp hst hf hp]
    obtain ⟨h1, h2⟩ | ⟨h1, h2⟩ := hcase <;> simp [respEdge, State.hosted, hlock, h1, h2]
  · have hdout : s.doutIdx = 0 := by
      obtain ⟨-, -, -, -, -, -, -, hdout, -⟩ := hs
      exact hdout hsent
    have hlen' : s.resbuf.length = out.length := by rw [hres, Memory.length_ofBytes]
    refine ⟨by simp [State.ports, hst, hsent], rfl, fun j hj => ?_, ?_⟩
    · obtain ⟨r, qs, rfl⟩ : ∃ r qs, rs = r :: qs := List.exists_cons_of_length_pos (by omega)
      have hj' : (qs.take j).length = j := by simp at hlen; simp; omega
      obtain ⟨b, hrun, -⟩ := run_responseAndPayload (r := r) (qs.take j) (f := (qs.drop j).map .edge ++ rest) hst hsent
        hdout (fun q hq => hrs q (by
          obtain rfl | hq := List.mem_cons.1 hq
          · simp
          · exact List.mem_cons_of_mem _ (List.mem_of_mem_take hq)))
        (by rw [hf, List.map_cons, List.map_cons, List.cons_append, List.cons_append, ← List.append_assoc,
          ← List.map_append, List.take_append_drop]) (by omega)
      rw [hj'] at hrun
      refine ⟨_, hrun, hst, ?_, ?_, ?_⟩
      · simp [State.ports, State.hosted, State.sentOut]
      · simp [State.ports, State.hosted, State.sentOut, hst]
      · simp [State.ports, State.hosted, State.sentOut, hres, Memory.read_ofBytes]
    · obtain ⟨b, hrun, -⟩ := run_response rs hst hsent hdout hrs hf (by omega)
      rw [hlen] at hrun
      refine ⟨_, hrun, ?_⟩
      simp [State.ports, State.busy, State.hosted]

end Sys2Proof.Machine
end

section
/-! Proofs about commands other than TRANSMIT on the wires: edge by edge they do what they do as one step (spec 10 R22,
41 R108, 60 R148). -/

namespace Sys2Proof

/-- An instruction that only answers: no TRANSMIT and no symbol. -/
def Instr.onlyAnswers (i : Instr) : Prop := ∀ pin n, i ≠ .transmit pin n ∧ i ≠ .write pin n ∧ i ≠ .emit0 ∧ i ≠ .emit1

end Sys2Proof

namespace Sys2Proof.Machine

/-! ### A command that only answers -/

/-- A word that decodes, but to no TRANSMIT, only answers. -/
theorem onlyAnswers_of_decode {w : CmdWord} {i : Instr} (hd : decode w = .ok i)
    (hw : ∀ pin n, decode w ≠ .ok (.transmit pin n)) : i.onlyAnswers := by
  intro pin n
  obtain ⟨h0, h1⟩ := decode_command hd
  refine ⟨?_, ?_, h0, h1⟩
  · rintro rfl; exact hw pin n hd
  · rintro rfl; cases decode_wellFormed hd

/-- A response to `s`, answered from a state `u` that has the TRACE, the feed and the HOST's bit of `s`. `r` answers
it, and answers the same whatever ST and the feed are. -/
def State.Responds (s : State) (r : State → Res) (u : State) (c : Status) (f : Bool) (v : BitVec 32)
    (out : List Byte) : Prop :=
  u.trace = s.trace ∧ u.feed = s.feed ∧ u.preempt = s.preempt ∧
  ∀ q g, r ((s.goto q).setFeed g) = .next (respond c f v out (u.setFeed g))

/-- A command that only answers answers the same whatever ST and the feed are. -/
theorem exec_responds {i : Instr} {s t : State} (hi : i.onlyAnswers) (h : exec i s = .next t) :
    ∃ u c f v out, s.Responds (exec i) u c f v out ∧ t = respond c f v out u := by
  obtain ⟨v, rfl, rfl⟩ | ⟨rfl, rfl⟩ | ⟨pin, n, hi', -⟩ | ⟨n, rfl, ht⟩ | ⟨rfl, rfl⟩ | ⟨rfl, ht⟩ | ⟨b, hb, -⟩ :=
    exec_next h
  · exact ⟨s.storeBright v, _, _, _, _, ⟨rfl, rfl, rfl, fun _ _ => rfl⟩, rfl⟩
  · exact ⟨s, _, _, _, _, ⟨rfl, rfl, rfl, fun _ _ => rfl⟩, rfl⟩
  · obtain ⟨h1, h2, -, -⟩ := hi pin n
    exact absurd hi' (not_or.2 ⟨h1, h2⟩)
  · obtain ⟨ha, rfl⟩ | ⟨bs, ha, hb, rfl⟩ := execSetremap_next ht
    · exact ⟨s.asked, _, _, _, _, ⟨rfl, rfl, rfl, fun q g => execSetremap_alloc (s := (s.goto q).setFeed g) ha⟩, rfl⟩
    · exact ⟨s.asked.storeTable n bs, _, _, _, _,
        ⟨rfl, rfl, rfl, fun q g => execSetremap_ok (s := (s.goto q).setFeed g) ha hb⟩, rfl⟩
  · exact ⟨s.dropTable, _, _, _, _, ⟨rfl, rfl, rfl, fun _ _ => rfl⟩, rfl⟩
  · obtain ⟨hp, rfl⟩ | ⟨bs, hp, hb, rfl⟩ := execGetremap_next ht
    · exact ⟨s, _, _, _, _, ⟨rfl, rfl, rfl, fun q g => exec_getremap_absent (s := (s.goto q).setFeed g) hp⟩, rfl⟩
    · exact ⟨s, _, _, _, _, ⟨rfl, rfl, rfl, fun q g => exec_getremap_present (s := (s.goto q).setFeed g) hp hb⟩, rfl⟩
  · obtain ⟨-, -, h0, h1⟩ := hi 0#8 0#32
    cases b
    · exact absurd hb h0
    · exact absurd hb h1

/-- A whole command other than TRANSMIT, legal or not, answers, and EXEC of its word and payload answers the same. -/
theorem callStep_responds {s : State} {w : CmdWord} {bs : List Byte} (h : s.Ready)
    (hw : ∀ pin n, decode w ≠ .ok (.transmit pin n)) (hbs : bs.length = wordPayload w) :
    ∃ u c f v out, (s.issue w bs).Responds execEdge u c f v out ∧
      callStep w bs s = .next (finish (respond c f v out u)) := by
  cases hd : decode w with
  | error e =>
    have hissue : s.issue w bs = { s with cmd := w } := by
      simp [State.issue, State.latch, wordTakesPayload_error hd]
    rw [hissue, callStep_error bs s hd]
    refine ⟨{ s with cmd := w }, .eIllegal, false, 0#32, [], ⟨rfl, rfl, rfl, fun q g => ?_⟩, rfl⟩
    have hcmd : decode ((({ s with cmd := w } : State).goto q).setFeed g).cmd = .error e := hd
    exact execEdge_error hcmd
  | ok i =>
    rw [wordPayload_ok hd] at hbs
    have hready := h.issue w bs
    have ⟨hbuf, _⟩ := hready
    obtain ⟨t, ht⟩ := exec_progress (i := i) hbuf fun htakes => by
      rw [s.issue_argbuf bs hd htakes, Memory.length_ofBytes, List.length_take]
      omega
    obtain ⟨u, c, f, v, out, ⟨htrace, hfeed, hpre, hexec⟩, rfl⟩ := exec_responds (onlyAnswers_of_decode hd hw) ht
    refine ⟨u, c, f, v, out, ⟨htrace, hfeed, hpre, fun q g => ?_⟩, ?_⟩
    · have hcmd : decode (((s.issue w bs).goto q).setFeed g).cmd = .ok i := hd
      rw [execEdge_ok hcmd, hexec]
    · rw [callStep_ok hd (by omega), ht, andThen_of_next]

/-! ### Runs -/

/-- From `s`, `k` steps lead to `t`. -/
def State.Reaches (s : State) (k : Nat) (t : State) : Prop := Host.Core.run Sys2Proof.core k s = .next t

theorem State.Reaches.zero (s : State) : s.Reaches 0 s := run_zero s

theorem State.Reaches.step {s u t : State} {k : Nat} (h : Machine.step s = .next u) (h' : u.Reaches k t) :
    s.Reaches (k + 1) t := (run_succ_of_next h).trans h'

theorem State.Reaches.trans {s u t : State} {j k : Nat} (h : s.Reaches j u) (h' : u.Reaches k t) :
    s.Reaches (j + k) t := (run_add h).trans h'

/-! ### Issue on the wires -/

/-- An edge at which the HOST leaves its bit alone. -/
theorem step_edge_kept {s : State} {p : PortIn} {f : List Input} (hf : s.feed = .edge p :: f) (hp : p.rst = false)
    (hpre : p.preemptIn = s.preempt) : step s = seqEdge p (s.setFeed f) := by
  rw [step_edge_row hf hp, State.preempt_kept hpre]
  rfl

/-- An edge in EXEC at which the HOST leaves its bit alone. -/
theorem step_exec_kept {s : State} {p : PortIn} {f : List Input} (hst : s.st = .exec) (hf : s.feed = .edge p :: f)
    (hp : p.rst = false) (hpre : p.preemptIn = s.preempt) : step s = execEdge (s.setFeed f) := by
  rw [step_edge_kept hf hp hpre]
  simp [seqEdge, hst]

/-- One more byte in a fresh buffer. -/
theorem Memory.ofBytes_concat (bs : List Byte) (b : Byte) :
    Memory.ofBytes (bs ++ [b]) = (Memory.ofBytes bs).write bs.length b := by
  have hfill : ∀ (i : Nat) (m : Memory),
      Memory.fill (bs ++ [b]) i m = (Memory.fill bs i m).write (i + bs.length) b := by
    induction bs with
    | nil => intro i m; rfl
    | cons c bs ih =>
      intro i m
      rw [List.cons_append, Memory.fill, ih, Memory.fill, List.length_cons]
      congr 1
      omega
  rw [Memory.ofBytes, hfill, Nat.zero_add]
  rfl

/-- In RECV of the word `w`, with the bytes `bs` of its payload taken. -/
def State.receiving (s : State) (w : CmdWord) (bs : List Byte) : State :=
  { s.latch w with argbuf := Memory.ofBytes bs, st := .recv }

theorem State.receiving_takeByte (s : State) (w : CmdWord) (bs : List Byte) (b : Byte) :
    (s.receiving w bs).takeByte b = s.receiving w (bs ++ [b]) := by
  have hlen : (s.receiving w bs).argbuf.length = bs.length := Memory.length_ofBytes bs
  rw [State.takeByte, hlen, State.receiving, State.receiving, Memory.ofBytes_concat]

/-- A command other than TRANSMIT goes to EXEC. -/
theorem startCommand_exec {s : State} {w : CmdWord} (hcmd : s.cmd = w)
    (hw : ∀ pin n, decode w ≠ .ok (.transmit pin n)) : startCommand s = s.goto .exec := by
  subst hcmd
  obtain ⟨pin, n, hd, -⟩ | ⟨-, he⟩ := startCommand_cases s
  · exact absurd hd (hw pin n)
  · exact he

/-- A payload-in transfer of a command other than TRANSMIT: more bytes are waited for, or EXEC follows. -/
theorem step_receive {d : PortIn} {s : State} {w : CmdWord} {bs : List Byte} {f : List Input}
    (hw : ∀ pin n, decode w ≠ .ok (.transmit pin n))
    (hd : d.dinValid = true ∧ d.rst = false ∧ d.preemptIn = s.preempt) :
    step ((s.receiving w bs).setFeed (.edge d :: f)) = .next
      (if bs.length + 1 < wordPayload w then (s.receiving w (bs ++ [d.dinData])).setFeed f
       else ((s.receiving w (bs ++ [d.dinData])).goto .exec).setFeed f) := by
  obtain ⟨hv, hrst, hpre⟩ := hd
  have hstep : step ((s.receiving w bs).setFeed (.edge d :: f)) = .next (recvEdge d ((s.receiving w bs).setFeed f)) :=
    step_edge_kept (s := (s.receiving w bs).setFeed (.edge d :: f)) rfl hrst hpre
  have htake : ((s.receiving w bs).setFeed f).takeByte d.dinData = (s.receiving w (bs ++ [d.dinData])).setFeed f := by
    rw [← State.receiving_takeByte]
    rfl
  have hlen : ((s.receiving w (bs ++ [d.dinData])).setFeed f).argbuf.length = bs.length + 1 := by
    show (Memory.ofBytes (bs ++ [d.dinData])).length = bs.length + 1
    simp
  have hcmd : ((s.receiving w bs).setFeed f).cmd = w := rfl
  rw [hstep, recvEdge, if_pos hv, htake, hlen, hcmd, startCommand_exec (w := w) rfl hw]
  rfl

/-- The payload bytes of a command other than TRANSMIT are taken one an edge, and the last one leads to EXEC. -/
theorem reaches_receive (ds : List PortIn) {s : State} {w : CmdWord} {bs : List Byte} {f : List Input}
    (hw : ∀ pin n, decode w ≠ .ok (.transmit pin n)) (hne : ds ≠ []) (hlen : bs.length + ds.length = wordPayload w)
    (hds : ∀ d ∈ ds, d.dinValid = true ∧ d.rst = false ∧ d.preemptIn = s.preempt) :
    ((s.receiving w bs).setFeed (ds.map .edge ++ f)).Reaches ds.length
      (((s.receiving w (bs ++ ds.map PortIn.dinData)).goto .exec).setFeed f) := by
  induction ds generalizing bs with
  | nil => exact absurd rfl hne
  | cons d ds ih =>
    have hstep := step_receive (bs := bs) (f := ds.map .edge ++ f) hw (hds d (by simp))
    rw [List.length_cons] at hlen
    by_cases hmore : ds = []
    · subst hmore
      rw [if_neg (by simp at hlen; omega)] at hstep
      exact .step hstep (.zero _)
    · have hpos := List.length_pos_of_ne_nil hmore
      have hcat : bs ++ (d :: ds).map PortIn.dinData = (bs ++ [d.dinData]) ++ ds.map PortIn.dinData := by simp
      rw [if_pos (by omega)] at hstep
      rw [hcat]
      exact .step hstep (ih hmore (by rw [List.length_append]; simp; omega) fun q hq =>
        hds q (List.mem_cons_of_mem _ hq))

/-- Latching a word that brings no payload byte is issuing it. -/
theorem State.issue_nil (s : State) (w : CmdWord) : s.issue w [] = s.latch w := by
  simp [State.issue, State.latch, Memory.ofBytes, Memory.fill]

/-- Latching a word with payload bytes to come is RECV with none taken. -/
theorem State.latch_recv {s : State} {w : CmdWord} (h : wordTakesPayload w = true) :
    (s.latch w).goto .recv = s.receiving w [] := by
  simp [State.latch, State.receiving, State.goto, h, Memory.ofBytes, Memory.fill]

/-- With the whole payload taken RECV has issued the command. -/
theorem State.receiving_exec {s : State} {w : CmdWord} {bs : List Byte} (h : wordTakesPayload w = true)
    (hlen : bs.length = wordPayload w) : (s.receiving w bs).goto .exec = (s.issue w bs).goto .exec := by
  have htake : bs.take (wordPayload w) = bs := List.take_of_length_le (by omega)
  simp [State.receiving, State.issue, State.latch, State.goto, h, htake]

/-- A command other than TRANSMIT issued on the wires from IDLE is in EXEC after the word and its payload. -/
theorem reaches_issue {s : State} {w : CmdWord} {p : PortIn} {ds : List PortIn} {f : List Input} (hst : s.st = .idle)
    (hw : ∀ pin n, decode w ≠ .ok (.transmit pin n)) (hv : p.cmdValid = true) (hcmd : p.cmdWord = w)
    (hlen : ds.length = wordPayload w) (hds : ∀ d ∈ ds, d.dinValid = true)
    (hkept : ∀ e ∈ p :: ds, e.rst = false ∧ e.preemptIn = s.preempt) :
    (s.setFeed (.edge p :: (ds.map .edge ++ f))).Reaches (1 + ds.length)
      (((s.issue w (ds.map PortIn.dinData)).goto .exec).setFeed f) := by
  obtain ⟨hrst, hpre⟩ := hkept p (by simp)
  have hstep : step (s.setFeed (.edge p :: (ds.map .edge ++ f))) =
      .next (acceptWord w (s.setFeed (ds.map .edge ++ f))) := by
    rw [step_edge_kept (f := ds.map Input.edge ++ f) (State.setFeed_feed _ _) hrst (by simpa using hpre)]
    simp only [seqEdge, State.setFeed_frame, hst, hv, hcmd, if_true]
    rfl
  rw [acceptWord] at hstep
  rw [Nat.add_comm]
  by_cases hpos : 0 < wordPayload w
  · have htakes := wordTakesPayload_of_pos hpos
    have hrecv : ((s.setFeed (ds.map .edge ++ f)).latch w).goto .recv =
        (s.receiving w []).setFeed (ds.map .edge ++ f) :=
      State.latch_recv htakes
    rw [if_pos hpos, hrecv] at hstep
    rw [← State.receiving_exec htakes (by rw [List.length_map, hlen])]
    exact .step hstep (reaches_receive ds hw (List.ne_nil_of_length_pos (by omega)) (by simpa using hlen) fun d hd =>
      ⟨hds d hd, hkept d (List.mem_cons_of_mem _ hd)⟩)
  · obtain rfl : ds = [] := List.eq_nil_of_length_eq_zero (by omega)
    rw [if_neg hpos, startCommand_exec (w := w) rfl hw] at hstep
    simp only [List.map_nil, State.issue_nil]
    exact .step hstep (.zero _)

/-- Settles O54: issue leads to EXEC of the same word and payload (`reaches_issue`), EXEC answers the same
(`callStep_responds`), and the response ends the same (`run_response`). -/
theorem edgesAgreeWithOneStep : Obligations.EdgesAgreeWithOneStep := by
  intro s w p q ds rest hs hst hw hv hcmd hlen hds hkept
  have hready : (s.setFeed rest).Ready := hs.ready (.inl hst)
  obtain ⟨u, c, f, v, out, ⟨htrace, hfeed, hpre, hexec⟩, hcall⟩ :=
    callStep_responds (bs := ds.map PortIn.dinData) hready hw (by simpa using hlen)
  refine ⟨_, out, (step_call_idle (s := s.setFeed (.call w (ds.map PortIn.dinData) :: rest)) rfl hst).trans hcall, ?_,
    fun rs hrlen hrs => ?_⟩
  · have htrace' : u.trace = s.trace := htrace
    rw [← htrace']
    rfl
  · have hkept' : ∀ e ∈ p :: ds, e.rst = false ∧ e.preemptIn = s.preempt := fun e he =>
      hkept e (by obtain rfl | he := List.mem_cons.1 he <;> simp [*])
    obtain ⟨hrstq, hpreq⟩ := hkept q (by simp)
    have hpre' : u.preempt = s.preempt := hpre
    have hissue := reaches_issue (f := .edge q :: (rs.map .edge ++ rest)) hst hw hv hcmd hlen hds hkept'
    have hq : step (((s.issue w (ds.map PortIn.dinData)).goto .exec).setFeed (.edge q :: (rs.map .edge ++ rest))) =
        .next (respond c f v out (u.setFeed (rs.map .edge ++ rest))) := by
      have hsame :
          (((s.issue w (ds.map PortIn.dinData)).goto .exec).setFeed (.edge q :: (rs.map .edge ++ rest))).setFeed
            (rs.map .edge ++ rest) =
          (((s.setFeed rest).issue w (ds.map PortIn.dinData)).goto .exec).setFeed (rs.map .edge ++ rest) := rfl
      rw [step_exec_kept (f := rs.map .edge ++ rest) (by simp) (by simp) hrstq (by simpa using hpreq), hsame, hexec]
    obtain ⟨b, hrun, hb⟩ := run_response rs (t := respond c f v out (u.setFeed (rs.map .edge ++ rest))) (f := rest)
      (by simp) (by simp) (by simp) (fun r hr => by obtain ⟨h1, -, h3, h4⟩ := hrs r hr; exact ⟨h1, h3, h4⟩) (by simp)
      (by rw [hrlen, respond_resbuf, Memory.length_ofBytes])
    have hbs : b = u.preempt := hb fun r hr => by
      obtain ⟨-, h2, -, -⟩ := hrs r hr
      exact h2.trans hpre'.symm
    have hend : finish ((respond c f v out (u.setFeed (rs.map .edge ++ rest))).hosted rest b) =
        finish (respond c f v out u) := by
      rw [hbs, show rest = u.feed from hfeed.symm]
      rfl
    rw [hend] at hrun
    have hinput : { s with feed := (p :: ds ++ q :: rs).map Input.edge ++ rest } =
        s.setFeed (.edge p :: (ds.map .edge ++ (.edge q :: (rs.map .edge ++ rest)))) := by
      simp [State.setFeed]
    rw [hinput, show 1 + ds.length + 1 + rs.length = 1 + ds.length + (rs.length + 1) by omega]
    exact hissue.trans (.step hq hrun)

end Sys2Proof.Machine
end

section
/-! Proofs about the edges and symbols of a TRANSMIT: the settle delay, and the symbols of the copy one step each (spec
41 R97, R100, R108). -/

namespace Sys2Proof.Machine

/-! ### The settle delay (41 R97, 60 R158) -/

/-- What a HOST's step and its bit leave alone. -/
@[simp] theorem State.hosted_frame (s : State) (f : List Input) (b : Bool) :
    (s.hosted f b).cfg = s.cfg ∧ (s.hosted f b).bright = s.bright ∧ (s.hosted f b).remapPresent = s.remapPresent ∧
    (s.hosted f b).remapLen = s.remapLen ∧ (s.hosted f b).rmp = s.rmp ∧ (s.hosted f b).txc = s.txc ∧
    (s.hosted f b).txcLen = s.txcLen ∧ (s.hosted f b).cmd = s.cmd ∧ (s.hosted f b).argbuf = s.argbuf ∧
    (s.hosted f b).rsp = s.rsp ∧ (s.hosted f b).resbuf = s.resbuf ∧ (s.hosted f b).lineSel = s.lineSel ∧
    (s.hosted f b).byteIdx = s.byteIdx ∧ (s.hosted f b).bitIdx = s.bitIdx ∧ (s.hosted f b).shreg = s.shreg ∧
    (s.hosted f b).unitCnt = s.unitCnt ∧ (s.hosted f b).presc = s.presc ∧ (s.hosted f b).settleCnt = s.settleCnt ∧
    (s.hosted f b).st = s.st ∧ (s.hosted f b).savedPreempt = s.savedPreempt ∧ (s.hosted f b).lockReq = s.lockReq ∧
    (s.hosted f b).rspSent = s.rspSent ∧ (s.hosted f b).doutIdx = s.doutIdx ∧ (s.hosted f b).lines = s.lines ∧
    (s.hosted f b).trace = s.trace ∧ (s.hosted f b).wave = s.wave ∧ (s.hosted f b).draws = s.draws := by
  repeat' constructor

@[simp] theorem State.hosted_feed (s : State) (f : List Input) (b : Bool) : (s.hosted f b).feed = f := rfl

@[simp] theorem State.hosted_preempt (s : State) (f : List Input) (b : Bool) : (s.hosted f b).preempt = b := rfl

@[simp] theorem State.hosted_line (s : State) (f : List Input) (b : Bool) (l : Nat) :
    (s.hosted f b).line l = s.line l := rfl

/-- One edge of those ahead; a HOST with nothing to do has nothing to do after it. -/
theorem step_ahead {k : Nat} {s : State} (h : edgesAhead (k + 1) s.feed = true) (hs : s.st ≠ .idle) :
    ∃ (p : PortIn) (f : List Input), edgesAhead k f = true ∧ (s.feed = [] → f = []) ∧
      step s = seqEdge p (s.hosted f (if s.lockReq then s.preempt else s.preemptNext)) := by
  by_cases hnil : s.feed = []
  · have hnext : (if s.lockReq then s.preempt else s.preemptNext) = s.preempt :=
      State.preempt_kept (by simp [State.preemptNext, hnil])
    refine ⟨s.quiet, [], by cases k <;> rfl, fun _ => rfl, ?_⟩
    rw [step_nil hnil, edge_quiet, hnext]
    conv_lhs => rw [show s = s.hosted s.feed s.preempt from rfl, hnil]
    rfl
  · obtain ⟨p, f, hf, he⟩ := step_ahead_row h hs
    exact ⟨p, f, hf, fun h0 => absurd h0 hnil, he⟩

/-- The state with this on the settle timer and its prescaler. -/
def State.timer (s : State) (c p : Nat) : State := { s with settleCnt := c, presc := p }

/-- What the settle timer leaves alone. -/
@[simp] theorem State.timer_frame (s : State) (c p : Nat) :
    (s.timer c p).cfg = s.cfg ∧ (s.timer c p).bright = s.bright ∧ (s.timer c p).remapPresent = s.remapPresent ∧
    (s.timer c p).remapLen = s.remapLen ∧ (s.timer c p).rmp = s.rmp ∧ (s.timer c p).txc = s.txc ∧
    (s.timer c p).txcLen = s.txcLen ∧ (s.timer c p).cmd = s.cmd ∧ (s.timer c p).argbuf = s.argbuf ∧
    (s.timer c p).rsp = s.rsp ∧ (s.timer c p).resbuf = s.resbuf ∧ (s.timer c p).lineSel = s.lineSel ∧
    (s.timer c p).byteIdx = s.byteIdx ∧ (s.timer c p).bitIdx = s.bitIdx ∧ (s.timer c p).shreg = s.shreg ∧
    (s.timer c p).unitCnt = s.unitCnt ∧ (s.timer c p).st = s.st ∧ (s.timer c p).savedPreempt = s.savedPreempt ∧
    (s.timer c p).lockReq = s.lockReq ∧ (s.timer c p).rspSent = s.rspSent ∧ (s.timer c p).doutIdx = s.doutIdx ∧
    (s.timer c p).lines = s.lines ∧ (s.timer c p).preempt = s.preempt ∧ (s.timer c p).feed = s.feed ∧
    (s.timer c p).trace = s.trace ∧ (s.timer c p).wave = s.wave ∧ (s.timer c p).draws = s.draws := by
  repeat' constructor

/-- What the HOST does from now on and its bit, after edges from `s` outside the critical section: `m` edges are still
ahead, and a HOST with nothing to do has done nothing. -/
abbrev State.Ahead (s : State) (m : Nat) (f : List Input) (b : Bool) : Prop :=
  edgesAhead m f = true ∧ (s.feed = [] → f = [] ∧ b = s.preempt)

/-- One of the edges ahead, outside the critical section. -/
theorem step_ahead_unlocked {m : Nat} {s : State} (hf : edgesAhead (m + 1) s.feed = true) (hs : s.st ≠ .idle)
    (hlock : s.lockReq = false) :
    ∃ (q : PortIn) (f : List Input) (b : Bool), step s = seqEdge q (s.hosted f b) ∧ s.Ahead m f b := by
  obtain ⟨q, f, hf', hnil, he⟩ := step_ahead hf hs
  rw [hlock] at he
  exact ⟨q, f, s.preemptNext, he, hf', fun h => ⟨hnil h, by simp [State.preemptNext, h]⟩⟩

/-- One edge of SETTLE before the timer has run down. -/
theorem step_settle {s : State} {m : Nat} (hst : s.st = .settle) (hlock : s.lockReq = false) (hp : s.presc < s.cfg.cal)
    (hc : s.settleCnt ≠ 0) (hf : edgesAhead (m + 1) s.feed = true) :
    ∃ c p f b, step s = .next ((s.timer c p).hosted f b) ∧ p < s.cfg.cal ∧
      c * s.cfg.cal + s.presc + 1 = s.settleCnt * s.cfg.cal + p ∧ s.Ahead m f b := by
  obtain ⟨q, f, b, he, hahead⟩ := step_ahead_unlocked hf (by simp [hst]) hlock
  have hrow : step s = settleEdge (s.hosted f b) := by
    rw [he]
    simp [seqEdge, State.hosted, hst]
  rw [settleEdge, if_neg (by exact hc)] at hrow
  obtain ⟨hlt, hu⟩ | ⟨hge, hu⟩ := unitClock_cases (s.hosted f b) fun t => .next t.settleTick
  · rw [hu] at hrow
    exact ⟨s.settleCnt, s.presc + 1, f, b, hrow, hlt, by omega, hahead⟩
  · rw [hu] at hrow
    refine ⟨s.settleCnt - 1, 0, f, b, hrow, by omega, ?_, hahead⟩
    obtain ⟨c, hc'⟩ := Nat.exists_eq_succ_of_ne_zero hc
    have hge' : s.cfg.cal ≤ s.presc + 1 := hge
    rw [hc', Nat.succ_mul, Nat.succ_sub_one]
    omega

/-- Before the settle timer has run down, an edge takes one clock cycle of it and changes nothing else. -/
theorem reaches_settle (k m : Nat) {s : State} (hst : s.st = .settle) (hlock : s.lockReq = false)
    (hp : s.presc < s.cfg.cal) (hk : k + s.presc ≤ s.settleCnt * s.cfg.cal) (hf : edgesAhead (k + m) s.feed = true) :
    ∃ c p f b, s.Reaches k ((s.timer c p).hosted f b) ∧ p < s.cfg.cal ∧
      c * s.cfg.cal + s.presc + k = s.settleCnt * s.cfg.cal + p ∧ s.Ahead m f b := by
  induction k generalizing s with
  | zero =>
    rw [Nat.zero_add] at hf
    exact ⟨s.settleCnt, s.presc, s.feed, s.preempt, .zero s, hp, rfl, hf, fun h => ⟨h, rfl⟩⟩
  | succ k ih =>
    have hc : s.settleCnt ≠ 0 := by
      intro h0
      rw [h0, Nat.zero_mul] at hk
      omega
    obtain ⟨c, p, f, b, hstep, hp', hsum, hf', hquiet⟩ :=
      step_settle hst hlock hp hc (m := k + m) (by rw [show k + m + 1 = k + 1 + m by omega]; exact hf)
    have hk' : k + p ≤ c * s.cfg.cal := by omega
    obtain ⟨c', p', f', b', hreach, hp'', hsum', hf'', hquiet'⟩ :=
      ih (s := (s.timer c p).hosted f b) hst hlock hp' hk' hf'
    have hsum'' : c' * s.cfg.cal + p + k = c * s.cfg.cal + p' := hsum'
    refine ⟨c', p', f', b', .step hstep hreach, hp'', by omega, hf'', fun h => ?_⟩
    obtain ⟨rfl, rfl⟩ := hquiet h
    exact hquiet' rfl

/-- Neither what the HOST does nor its bit matters to the edge of CFG. -/
theorem cfgEdge_hosted (s : State) (f : List Input) (b : Bool) :
    cfgEdge (s.hosted f b) = (cfgEdge s).hosted f b := rfl

/-- The edge of CFG. -/
theorem step_cfg {s : State} {m : Nat} (hst : s.st = .cfg) (hlock : s.lockReq = false)
    (hf : edgesAhead (m + 1) s.feed = true) :
    ∃ f b, step s = .next ((cfgEdge s).hosted f b) ∧ s.Ahead m f b := by
  obtain ⟨q, f, b, he, hahead⟩ := step_ahead_unlocked hf (by simp [hst]) hlock
  have hrow : step s = .next (cfgEdge (s.hosted f b)) := by
    rw [he]
    simp [seqEdge, State.hosted, hst]
  exact ⟨f, b, by rw [hrow, cfgEdge_hosted], hahead⟩

/-- Settles O57: the timer starts at least at T_SETTLE time-units of CAL cycles each, and each edge takes one cycle. -/
theorem settleLastsAtLeast : Obligations.SettleLastsAtLeast := by
  intro s k hs hst hk hf
  obtain ⟨-, -, hpins, hlock, -⟩ := hs.ready (.inr (.inr (.inr (.inl hst))))
  have ⟨hsel, _⟩ := hpins
  obtain ⟨f, b, hstep, hf', -⟩ := step_cfg (m := k) hst hlock (by rw [Nat.add_comm]; exact hf)
  have htrace : (cfgEdge s).trace = s.trace ++ [.pinMode s.lineSel, .pinWrite s.lineSel false] := by simp [cfgEdge]
  have hline : (cfgEdge s).line s.lineSel = ⟨true, true, false⟩ := by
    have hlines : (cfgEdge s).lines = s.lines.set s.lineSel ⟨true, true, false⟩ := by
      simp only [cfgEdge, State.goto_frame, State.setPresc_frame, State.startSettle_frame,
        State.pinWrite_pinMode_lines]
    rw [State.line_of_lines hlines, if_pos ⟨rfl, hsel⟩]
  have hlock' : (cfgEdge s).lockReq = false := by simpa [cfgEdge] using hlock
  have hkept : ∀ t : State, t.st = .settle → t.lockReq = (cfgEdge s).lockReq → t.trace = (cfgEdge s).trace →
      t.lines = (cfgEdge s).lines → t.st = .settle ∧ t.lockReq = false ∧
        t.trace = s.trace ++ [.pinMode s.lineSel, .pinWrite s.lineSel false] ∧ t.line s.lineSel = ⟨true, true, false⟩ :=
    fun t h1 h2 h3 h4 => ⟨h1, h2.trans hlock', h3.trans htrace, (State.line_congr h4 _).trans hline⟩
  by_cases hk0 : k = 0
  · subst hk0
    have hreach : s.Reaches 1 ((cfgEdge s).hosted f b) := .step hstep (.zero _)
    exact ⟨_, hreach, hkept _ (by simp [cfgEdge]) (by simp) (by simp) (by simp)⟩
  · have hcal : 0 < s.cfg.cal := by
      rw [Nat.pos_iff_ne_zero]
      intro h0
      rw [h0, Nat.zero_mul] at hk
      omega
    have hcnt : k ≤ (s.cfg.tSettle + Config.settleExtra s.draws) * s.cfg.cal := by
      rw [Nat.add_mul, Nat.mul_comm]
      omega
    obtain ⟨c, p, g, b', hreach, -, -, -, -⟩ :=
      reaches_settle k 0 (s := (cfgEdge s).hosted f b) (by simp [cfgEdge]) (by simpa using hlock') (by simpa [cfgEdge])
        (by simpa [cfgEdge]) (by rw [Nat.add_zero]; exact hf')
    rw [Nat.add_comm]
    exact ⟨_, State.Reaches.step hstep hreach, hkept _ (by simp [cfgEdge]) (by simp) (by simp) (by simp)⟩

/-! ### What is left of the copy (41 R100, R108) -/

/-- The copy in TXC is `bs`. -/
abbrev State.CopyIs (s : State) (bs : List Byte) : Prop :=
  bs.length = s.txcLen.toNat ∧ ∀ j, j < bs.length → s.txc.read j = bs[j]?

/-- The bits of the copy `bs` from the sequencer's position on, the present one first. -/
def State.bitsLeft (s : State) (bs : List Byte) : List Bool :=
  (byteBits s.shreg).drop (7 - s.bitIdx.toNat) ++ bitsOf (bs.drop (s.byteIdx.toNat + 1))

/-- The sequencer at another position of the copy. -/
def State.standing (s : State) (k : BitVec 32) (j : BitVec 3) (v : Byte) : State :=
  { s with byteIdx := k, bitIdx := j, shreg := v }

/-- The bits of a byte from bit `j` down. -/
theorem byteBits_drop (v : Byte) {j : Nat} (hj : j < 8) :
    (byteBits v).drop (7 - j) = v.getLsbD j :: (byteBits v).drop (8 - j) := by
  interval_cases j <;> rfl

/-- The present bit is the first of those left. -/
theorem State.bitsLeft_eq (s : State) (bs : List Byte) :
    s.bitsLeft bs = s.bitNow :: (s.bitsLeft bs).tail := by
  have hj : s.bitIdx.toNat < 8 := s.bitIdx.isLt
  rw [State.bitsLeft, byteBits_drop s.shreg hj]
  rfl

/-- The bits after the present one: the lower bits of SHREG and the bytes after it. -/
theorem State.bitsLeft_tail (s : State) (bs : List Byte) :
    (s.bitsLeft bs).tail = (byteBits s.shreg).drop (8 - s.bitIdx.toNat) ++ bitsOf (bs.drop (s.byteIdx.toNat + 1)) := by
  have hj : s.bitIdx.toNat < 8 := s.bitIdx.isLt
  rw [State.bitsLeft, byteBits_drop s.shreg hj]
  rfl

/-- A byte's bits and those of the bytes after it. -/
theorem bitsOf_drop {bs : List Byte} {k : Nat} {v : Byte} (h : bs[k]? = some v) :
    bitsOf (bs.drop k) = byteBits v ++ bitsOf (bs.drop (k + 1)) := by
  obtain ⟨hk, hv⟩ := List.getElem?_eq_some_iff.1 h
  rw [List.drop_eq_getElem_cons hk, hv]
  rfl

/-- At the first byte of the copy all its bits are left. -/
theorem State.bitsLeft_loadByte {s : State} {bs : List Byte} {v : Byte} (h : bs[0]? = some v) :
    (s.loadByte 0#32 v).bitsLeft bs = bitsOf bs := (bitsOf_drop h).symm

/-- `NextBit()`'s index part moves to the next bit of the copy, or to UNLOCK after the last (41 R108). -/
theorem nextIndex_bits {s : State} {bs : List Byte} (hcopy : s.CopyIs bs) (hpos : s.AtByte) :
    ((s.bitsLeft bs).tail = [] ∧ nextIndex s = .next (s.goto .unlock)) ∨
    ∃ k j v, (s.standing k j v).bitsLeft bs = (s.bitsLeft bs).tail ∧ (s.standing k j v).AtByte ∧
      nextIndex s = .next (s.standing k j v) := by
  obtain ⟨hlen, hread⟩ := hcopy
  rw [State.bitsLeft_tail]
  unfold nextIndex
  by_cases hbit : s.bitIdx = 0#3
  · rw [if_neg (not_not.2 hbit), hbit]
    have hdrop : (byteBits s.shreg).drop (8 - (0#3).toNat) = [] := rfl
    rw [hdrop, List.nil_append]
    by_cases hlt : s.byteIdx.toNat + 1 < s.txcLen.toNat
    · right
      have hk : (s.byteIdx + 1#32).toNat = s.byteIdx.toNat + 1 := by bv_omega
      have hv := hread _ (hlen ▸ hlt)
      obtain ⟨v, hv'⟩ : ∃ v, bs[s.byteIdx.toNat + 1]? = some v := ⟨_, List.getElem?_eq_getElem (hlen ▸ hlt)⟩
      rw [hv'] at hv
      refine ⟨s.byteIdx + 1#32, 7#3, v, ?_, ?_, ?_⟩
      · rw [bitsOf_drop hv', State.bitsLeft, ← hk]
        rfl
      · simp only [State.AtByte, State.standing, hk]
        exact ⟨hlt, hv⟩
      · rw [if_pos hlt, readByte_some _ hv]
        rfl
    · left
      rw [if_neg hlt, List.drop_eq_nil_of_le (by omega)]
      exact ⟨rfl, rfl⟩
  · right
    rw [if_pos hbit]
    have hj : (s.bitIdx - 1#3).toNat = s.bitIdx.toNat - 1 := by bv_omega
    have hne : s.bitIdx.toNat ≠ 0 := fun h0 => hbit (BitVec.eq_of_toNat_eq h0)
    refine ⟨s.byteIdx, s.bitIdx - 1#3, s.shreg, ?_, hpos, rfl⟩
    simp only [State.bitsLeft, State.standing, hj]
    rw [show 7 - (s.bitIdx.toNat - 1) = 8 - s.bitIdx.toNat by omega]

/-! ### One step a symbol (30 R60) -/

/-- Between two symbols of the copy `bs` at the symbol grain: the line is low (log entry 13). -/
structure State.BetweenSymbols (s : State) (bs : List Byte) : Prop where
  st : s.st = .low
  unitCnt : s.unitCnt = 0#4
  copy : s.CopyIs bs
  pos : s.AtByte
  sel : s.lineSel < s.numLines
  low : (s.line s.lineSel).out = false

/-- On a low line a symbol leaves the lines as they were. -/
theorem emitSymbol_lines_low {s : State} (b : Bool) (h : (s.line s.lineSel).out = false) :
    (emitSymbol b s).lines = s.lines := by
  rw [emitSymbol_lines, ← h]
  exact s.set_line_self s.lineSel

/-- A symbol at the sequencer's position and then the move to the next. -/
theorem step_symbol {s : State} {bs : List Byte} {f : List Input} (h : s.BetweenSymbols bs)
    (hf : s.feed = .pulse :: f) :
    ∃ t, step s = .next t ∧ t.feed = f ∧ t.trace = s.trace ++ [.emit s.lineSel s.bitNow] ∧
      t.wave = s.wave ++ (pulse s.bitNow).map (fun x => (s.lineSel, x)) ∧ t.lines = s.lines ∧ t.lockReq = s.lockReq ∧
      t.lineSel = s.lineSel ∧
      (((s.bitsLeft bs).tail = [] ∧ t.st = .unlock) ∨
        (t.BetweenSymbols bs ∧ t.bitsLeft bs = (s.bitsLeft bs).tail)) := by
  obtain ⟨hst, hunit, hcopy, hpos, hsel, hlow⟩ := h
  have ha : (s.setFeed f).atSymbol = true := by simp [State.atSymbol, hst, hunit]
  have hexec : exec (symbolOf s.bitNow) (s.setFeed f) = .next (emitSymbol s.bitNow (s.setFeed f)) := by
    cases s.bitNow <;> rfl
  have hstep : step s = nextIndex (emitSymbol s.bitNow (s.setFeed f)) := by
    rw [step_pulse hf, pulseStep_symbol ha]
    show andThen (exec (symbolOf s.bitNow) (s.setFeed f)) nextIndex = _
    rw [hexec, andThen_of_next]
  have hlines : (emitSymbol s.bitNow (s.setFeed f)).lines = s.lines := emitSymbol_lines_low (s := s.setFeed f) _ hlow
  have htrace := emitSymbol_trace s.bitNow (s.setFeed f)
  have hwave := emitSymbol_wave s.bitNow (s.setFeed f) hsel
  have hframe := emitSymbol_frame s.bitNow (s.setFeed f)
  have hcount := emitSymbol_counters s.bitNow (s.setFeed f)
  have hbits : (emitSymbol s.bitNow (s.setFeed f)).bitsLeft bs = s.bitsLeft bs := by simp [State.bitsLeft]
  have hcopy' : (emitSymbol s.bitNow (s.setFeed f)).CopyIs bs := by simpa [State.CopyIs] using hcopy
  have hpos' : (emitSymbol s.bitNow (s.setFeed f)).AtByte := by simpa [State.AtByte] using hpos
  generalize emitSymbol s.bitNow (s.setFeed f) = e at *
  have hline : ∀ l, e.line l = s.line l := State.line_congr hlines
  have hnum : e.numLines = s.numLines := by simp only [State.numLines, hlines]
  have hsel' : e.lineSel = s.lineSel := by simp [hframe]
  rw [hstep, ← hbits]
  obtain ⟨htail, hn⟩ | ⟨k, j, v, hbits', hat, hn⟩ := nextIndex_bits hcopy' hpos'
  · exact ⟨_, hn, by simp [hframe], htrace, hwave, hlines, by simp [hframe], hsel', .inl ⟨htail, rfl⟩⟩
  · refine ⟨_, hn, by simp [State.standing, hframe], htrace, hwave, hlines, by simp [State.standing, hframe], hsel',
      .inr ⟨⟨by simp [State.standing, hframe, hst], by simp [State.standing, hcount], hcopy', hat, ?_, ?_⟩, hbits'⟩⟩
    · show e.lineSel < e.numLines
      rw [hsel', hnum]; exact hsel
    · show (e.line e.lineSel).out = false
      rw [hsel', hline]; exact hlow

/-- One step for each bit left leads to UNLOCK. -/
theorem reaches_symbols (bits : List Bool) {s : State} {bs : List Byte} {f : List Input} (h : s.BetweenSymbols bs)
    (hbits : s.bitsLeft bs = bits) (hf : s.feed = List.replicate bits.length .pulse ++ f) :
    ∃ t, s.Reaches bits.length t ∧ t.st = .unlock ∧ t.feed = f ∧
      t.trace = s.trace ++ bits.map (Event.emit s.lineSel) ∧
      t.wave = s.wave ++ (bits.flatMap pulse).map (fun x => (s.lineSel, x)) ∧ t.lines = s.lines ∧
      t.lockReq = s.lockReq := by
  induction bits generalizing s with
  | nil => rw [State.bitsLeft_eq] at hbits; cases hbits
  | cons b bits ih =>
    rw [State.bitsLeft_eq, List.cons.injEq] at hbits
    obtain ⟨rfl, htail⟩ := hbits
    obtain ⟨u, hstep, hfeed, htrace, hwave, hlines, hlock, hsel, hnext⟩ := step_symbol h hf
    rw [htail] at hnext
    obtain ⟨rfl, hst⟩ | ⟨hu, hbits'⟩ := hnext
    · exact ⟨u, .step hstep (.zero u), hst, hfeed, htrace, by simpa using hwave, hlines, hlock⟩
    · obtain ⟨t, hreach, hst, hfeed', htrace', hwave', hlines', hlock'⟩ := ih hu hbits' hfeed
      refine ⟨t, .step hstep hreach, hst, hfeed', ?_, ?_, hlines'.trans hlines, hlock'.trans hlock⟩
      · rw [htrace', htrace, hsel, List.append_assoc]
        rfl
      · rw [hwave', hwave, hsel]
        simp

/-- The state at the symbol grain after the critical section has been entered, with this first byte of the copy. -/
def State.entered (s : State) (v : Byte) : State := (((s.lock.loadByte 0#32 v).goto .low).setUnits 0).setPresc 0

/-- Entering the critical section stands before the first symbol. -/
theorem State.entered_betweenSymbols {s : State} {bs : List Byte} {v : Byte} (hcopy : s.CopyIs bs)
    (hv : s.txc.read 0 = some v) (hpos : 0 < s.txcLen.toNat) (hsel : s.lineSel < s.numLines)
    (hlow : (s.line s.lineSel).out = false) : (s.entered v).BetweenSymbols bs := by
  have hlines : (s.entered v).lines = s.lines := by simp [State.entered]
  have hlineSel : (s.entered v).lineSel = s.lineSel := by simp [State.entered]
  exact
    { st := by simp [State.entered]
      unitCnt := by simp [State.entered]
      copy := by simpa [State.entered, State.CopyIs] using hcopy
      pos := by simpa [State.entered, State.AtByte] using ⟨hpos, hv⟩
      sel := by simpa [State.entered, State.numLines] using hsel
      low := by rw [State.line_congr hlines, hlineSel]; exact hlow }

/-- Settles O53: the first step enters the critical section, and then each step sends one bit (`reaches_symbols`). -/
theorem symbolStepsSendTheCopy : Obligations.SymbolStepsSendTheCopy := by
  intro s bs rest hs hst hlen hread hf
  obtain ⟨-, -, -, -, hpins, -, -⟩ := hs
  have ⟨hsel, _⟩ := hpins
  have hlow := hpins.low (by simp [hst]) _ hsel
  rw [Nat.add_comm, List.replicate_succ, List.cons_append] at hf
  generalize hg : List.replicate (8 * bs.length) Input.pulse ++ rest = g at hf
  have hstep := (step_pulse hf).trans (pulseStep_lock (s := s.setFeed g) hst)
  rw [Nat.add_comm]
  cases bs with
  | nil =>
    have h0 : s.txcLen = 0#32 := BitVec.eq_of_toNat_eq hlen.symm
    rw [enterCritical, if_pos (by exact h0)] at hstep
    have hreach : s.Reaches 1 ((s.setFeed g).lock.goto .unlock) := .step hstep (.zero _)
    exact ⟨_, hreach, rfl, hg.symm, by simp [bitsOf], by simp [waveOf], rfl, rfl⟩
  | cons v vs =>
    have hv : s.txc.read 0 = some v := hread 0 (by simp)
    have hpos : 0 < s.txcLen.toNat := by rw [← hlen]; simp
    have hne : ¬s.txcLen = 0#32 := by
      rintro h0
      rw [h0] at hlen
      cases hlen
    rw [enterCritical, if_neg (by exact hne), readByte_some _ (by exact hv)] at hstep
    have hnext : step s = .next ((s.setFeed g).entered v) := hstep
    have hbits : ((s.setFeed g).entered v).bitsLeft (v :: vs) = bitsOf (v :: vs) := by
      rw [← State.bitsLeft_loadByte (s := s) (show (v :: vs)[0]? = some v from rfl)]
      simp [State.bitsLeft, State.entered]
    have hbetween : ((s.setFeed g).entered v).BetweenSymbols (v :: vs) :=
      State.entered_betweenSymbols ⟨hlen, hread⟩ hv hpos hsel hlow
    have hfeed : ((s.setFeed g).entered v).feed = List.replicate (bitsOf (v :: vs)).length .pulse ++ rest := by
      rw [bitsOf_length, hg]
      simp [State.entered]
    obtain ⟨t, hreach, hst', hfeed', htrace, hwave, hlines, hlock⟩ := reaches_symbols _ hbetween hbits hfeed
    rw [bitsOf_length] at hreach
    rw [waveOf_eq]
    refine ⟨t, State.Reaches.step hnext hreach, hst', hfeed', ?_, ?_, ?_, ?_⟩
    · rw [htrace]; simp [State.entered]
    · rw [hwave]; simp [State.entered]
    · rw [hlines]; simp [State.entered]
    · rw [hlock]; simp [State.entered]

end Sys2Proof.Machine
end

section
/-! The pulse timer carries the waveform of the copy, and the edges of a TRANSMIT compute what its algorithm computes
(spec 40 R84, R88, 41 R103, R108). -/

namespace Sys2Proof.Machine

/-! ### Where the pulses lead -/

/-- All but what the pulses move: the sequencer's position, its timer, ST, the lines, the feed and the observation. -/
def State.rest (s : State) : State :=
  { s with byteIdx := 0#32, bitIdx := 0#3, shreg := 0#8, unitCnt := 0#4, presc := 0, st := .unlock, lines := [],
           feed := [], trace := [], wave := [] }

@[simp] theorem State.rest_goto (s : State) (q : SeqState) : (s.goto q).rest = s.rest := rfl
@[simp] theorem State.rest_setUnits (s : State) (n : Nat) : (s.setUnits n).rest = s.rest := rfl
@[simp] theorem State.rest_setPresc (s : State) (n : Nat) : (s.setPresc n).rest = s.rest := rfl
@[simp] theorem State.rest_event (s : State) (e : Event) : (s.event e).rest = s.rest := rfl
@[simp] theorem State.rest_level (s : State) (l : Nat) (b : Bool) : (s.level l b).rest = s.rest := rfl
@[simp] theorem startPulse_rest (s : State) : (startPulse s).rest = s.rest := by simp [startPulse]

/-- The lines with LINE_SEL at 0. -/
def State.lowLines (s : State) : List Line := s.lines.set s.lineSel { s.line s.lineSel with out := false }

/-- The level LINE_SEL is driven to does not matter to the lines with it at 0. -/
theorem State.lowLines_of_lines {s t : State} {b : Bool} (hsel : t.lineSel = s.lineSel)
    (h : t.lines = s.lines.set s.lineSel { s.line s.lineSel with out := b }) : t.lowLines = s.lowLines := by
  rw [State.lowLines, State.lowLines, hsel, h, State.line_of_lines h, List.set_set]
  by_cases hl : s.lineSel < s.numLines
  · rw [if_pos ⟨rfl, hl⟩]
  · rw [if_neg (fun hc => hl hc.2)]

/-- With LINE_SEL at 0 the lines are as they are. -/
theorem State.lowLines_of_low {s : State} (h : (s.line s.lineSel).out = false) : s.lowLines = s.lines := by
  rw [State.lowLines, ← h]
  exact s.set_line_self s.lineSel

/-- Where the pulses lead that still carry the levels `xs` and record the symbols of `bits`: LINE_SEL low, and the
rest as it is. -/
def State.ended (s : State) (xs bits : List Bool) : State :=
  { s.rest with lines := s.lowLines, trace := s.trace ++ bits.map (Event.emit s.lineSel),
                wave := s.wave ++ xs.map fun x => (s.lineSel, x) }

/-- What `ended` looks at. -/
theorem State.ended_congr {s t : State} {xs ys bits cs : List Bool} (hrest : t.rest = s.rest)
    (hlines : t.lowLines = s.lowLines)
    (htrace : t.trace ++ bits.map (Event.emit t.lineSel) = s.trace ++ cs.map (Event.emit s.lineSel))
    (hwave : (t.wave ++ xs.map fun x => (t.lineSel, x)) = s.wave ++ ys.map fun x => (s.lineSel, x)) :
    t.ended xs bits = s.ended ys cs := by
  rw [State.ended, State.ended, hrest, hlines, htrace, hwave]

/-! ### In a pulse -/

/-- In a pulse of the copy `bs` (41 R108, rows HIGH and LOW). -/
structure State.Pulsing (s : State) (bs : List Byte) : Prop where
  st : s.st = .high ∨ s.st = .low
  units : 0 < s.unitCnt.toNat
  copy : s.CopyIs bs
  pos : s.AtByte
  sel : s.lineSel < s.numLines
  out : (s.line s.lineSel).out = decide (s.st = .high)

/-- The levels of the line in the time-units that follow the present level. -/
def State.levelsAfter (s : State) (bs : List Byte) : List Bool :=
  (if s.st = .high then List.replicate (tL s.bitNow) false else []) ++ (s.bitsLeft bs).tail.flatMap pulse

/-- The levels of the line in the time-units still to come, the present one first. -/
def State.levelsLeft (s : State) (bs : List Byte) : List Bool :=
  List.replicate s.unitCnt.toNat (decide (s.st = .high)) ++ s.levelsAfter bs

/-- A pulse starts with all its levels to come (40 R88). -/
theorem startPulse_levelsLeft (s : State) (bs : List Byte) :
    (startPulse s).levelsLeft bs = (s.bitsLeft bs).flatMap pulse := by
  have hunits : (BitVec.ofNat 4 (tH s.bitNow)).toNat = tH s.bitNow := by cases s.bitNow <;> rfl
  have hbits : (startPulse s).bitsLeft bs = s.bitsLeft bs := by simp [State.bitsLeft]
  have hnow : (startPulse s).bitNow = s.bitNow := by simp [State.bitNow]
  rw [State.levelsLeft, State.levelsAfter, startPulse_st, if_pos rfl, startPulse_unitCnt, hunits, hbits, hnow]
  conv_rhs => rw [State.bitsLeft_eq, List.flatMap_cons, pulse, List.append_assoc]
  rfl

/-- A pulse starts in the middle of nothing: it has TH(b) time-units to come, on a high line (40 R84). -/
theorem startPulse_pulsing {s : State} {bs : List Byte} (hcopy : s.CopyIs bs) (hpos : s.AtByte)
    (hsel : s.lineSel < s.numLines) : (startPulse s).Pulsing bs where
  st := .inl (startPulse_st s)
  units := by
    rw [startPulse_unitCnt]
    cases s.bitNow <;> decide
  copy := by simpa [State.CopyIs] using hcopy
  pos := by simpa [State.AtByte] using hpos
  sel := by simpa [State.numLines] using hsel
  out := by
    have hlineSel : (startPulse s).lineSel = s.lineSel := by simp
    rw [hlineSel, State.line_of_lines (startPulse_lines s), if_pos ⟨rfl, hsel⟩, startPulse_st]
    rfl

/-- A pulse that starts records its symbol. -/
theorem startPulse_ended (s : State) (xs : List Bool) (bits : List Bool) :
    (startPulse s).ended xs bits = s.ended xs (s.bitNow :: bits) :=
  State.ended_congr (startPulse_rest s) (State.lowLines_of_lines (by simp) (startPulse_lines s)) (by simp) (by simp)

/-- The levels `xs` of the copy `bs` are still to come, and then the pulses end with `e`. -/
def State.Left (s : State) (bs : List Byte) (xs : List Bool) (e : State) : Prop :=
  (xs = [] ∧ s.st = .unlock ∧ (s.line s.lineSel).out = false ∧ s.ended [] [] = e) ∨
  (s.Pulsing bs ∧ s.levelsLeft bs = xs ∧ s.ended xs (s.bitsLeft bs).tail = e)

/-- A pulse that starts has the levels of its bit and of those after it to come. -/
theorem startPulse_left {s : State} {bs : List Byte} (hcopy : s.CopyIs bs) (hpos : s.AtByte)
    (hsel : s.lineSel < s.numLines) :
    (startPulse s).Left bs ((s.bitsLeft bs).flatMap pulse)
      (s.ended ((s.bitsLeft bs).flatMap pulse) (s.bitsLeft bs)) := by
  refine .inr ⟨startPulse_pulsing hcopy hpos hsel, startPulse_levelsLeft s bs, ?_⟩
  have hbits : (startPulse s).bitsLeft bs = s.bitsLeft bs := by simp [State.bitsLeft]
  rw [startPulse_ended, hbits, ← State.bitsLeft_eq]

/-- In a pulse the present level is the first of those to come. -/
theorem State.Pulsing.levelsLeft {s : State} {bs : List Byte} (h : s.Pulsing bs) :
    s.levelsLeft bs = (s.line s.lineSel).out ::
      (List.replicate (s.unitCnt.toNat - 1) (decide (s.st = .high)) ++ s.levelsAfter bs) := by
  obtain ⟨u, hu⟩ := Nat.exists_eq_add_of_lt h.units
  rw [Nat.zero_add] at hu
  rw [h.out, State.levelsLeft, hu, List.replicate_succ]
  rfl

/-- While levels are to come, the first of them is on the line. -/
theorem State.Left.level {s e : State} {bs : List Byte} {x : Bool} {xs : List Bool} (h : s.Left bs (x :: xs) e) :
    s.Pulsing bs ∧ (s.line s.lineSel).out = x := by
  obtain ⟨hnil, -⟩ | ⟨hp, hlevels, -⟩ := h
  · cases hnil
  · rw [hp.levelsLeft, List.cons.injEq] at hlevels
    exact ⟨hp, hlevels.1⟩

/-- The end is the end of every time-unit, whatever the prescaler and the feed. -/
theorem State.Left.clocked {s e : State} {bs : List Byte} {xs : List Bool}
    (h : s.Left bs xs e) (f : List Input) (p : Nat) :
    ((s.setFeed f).setPresc p).Left bs xs e := by
  obtain ⟨hxs, hst, hlow, hend⟩ | ⟨⟨hst, hunits, hcopy, hpos, hsel, hout⟩, hlevels, hend⟩ := h
  · exact .inl ⟨hxs, hst, hlow, hend⟩
  · exact .inr ⟨⟨hst, hunits, hcopy, hpos, hsel, hout⟩, hlevels, hend⟩

/-! ### One time-unit (40 R84) -/

/-- A time-unit in HIGH or LOW is over. -/
def State.unitOver (s : State) : Res := if s.st = .high then .next (highUnit s) else lowUnit s

theorem State.setUnits_toNat (s : State) {n : Nat} (h : n < 16) : (s.setUnits n).unitCnt.toNat = n := by
  show (BitVec.ofNat 4 n).toNat = n
  rw [BitVec.toNat_ofNat, Nat.mod_eq_of_lt h]

/-- One time-unit fewer is left of the present level. -/
theorem unitOver_within {s : State} {bs : List Byte} (h : s.Pulsing bs) (hmore : 1 < s.unitCnt.toNat) :
    s.unitOver = .next (s.setUnits (s.unitCnt.toNat - 1)) ∧ (s.setUnits (s.unitCnt.toNat - 1)).Pulsing bs ∧
      (s.setUnits (s.unitCnt.toNat - 1)).levelsLeft bs =
        List.replicate (s.unitCnt.toNat - 1) (decide (s.st = .high)) ++ s.levelsAfter bs := by
  obtain ⟨hst, -, hcopy, hpos, hsel, hout⟩ := h
  have hunits := s.setUnits_toNat (n := s.unitCnt.toNat - 1) (by omega)
  refine ⟨?_, ⟨hst, by omega, hcopy, hpos, hsel, hout⟩, ?_⟩
  · obtain h | h := hst <;> simp [State.unitOver, highUnit, lowUnit, h, hmore]
  · rw [State.levelsLeft, hunits]
    rfl

/-- After the falling edge: TL(b) time-units are to come (40 R84). -/
def State.fallen (s : State) : State := ((s.level s.lineSel false).goto .low).setUnits (tL s.bitNow)

/-- After the falling edge the rest of the present pulse is to come. -/
theorem State.fallen_pulsing {s : State} {bs : List Byte} (h : s.Pulsing bs) (hst : s.st = .high) :
    s.fallen.Pulsing bs ∧ s.fallen.levelsLeft bs = s.levelsAfter bs := by
  obtain ⟨-, -, hcopy, hpos, hsel, -⟩ := h
  have hst' : s.fallen.st = .low := rfl
  have hlineSel : s.fallen.lineSel = s.lineSel := rfl
  have hlines : s.fallen.lines = s.lines.set s.lineSel { s.line s.lineSel with out := false } := rfl
  have hunits : s.fallen.unitCnt.toNat = tL s.bitNow := State.setUnits_toNat _ (by cases s.bitNow <;> decide)
  refine ⟨⟨.inr hst', ?_, hcopy, hpos, ?_, ?_⟩, ?_⟩
  · rw [hunits]
    cases s.bitNow <;> decide
  · rw [hlineSel, State.numLines_of_lines hlines]
    exact hsel
  · rw [hlineSel, State.line_of_lines hlines, if_pos ⟨rfl, hsel⟩, hst']
    rfl
  · rw [State.levelsLeft, State.levelsAfter, State.levelsAfter, hunits, hst', hst, if_pos rfl]
    rfl

/-- The falling edge records nothing. -/
theorem State.fallen_ended (s : State) (xs bits : List Bool) : s.fallen.ended xs bits = s.ended xs bits := by
  have hrest : s.fallen.rest = s.rest := by simp [State.fallen]
  have hlines : s.fallen.lines = s.lines.set s.lineSel { s.line s.lineSel with out := false } := by simp [State.fallen]
  have hlineSel : s.fallen.lineSel = s.lineSel := by simp [State.fallen]
  exact State.ended_congr hrest (State.lowLines_of_lines hlineSel hlines) (by simp [State.fallen])
    (by simp [State.fallen])

/-- The last time-unit in LOW: the pulse of the next bit starts, or the copy has been sent (41 R108). -/
theorem unitOver_next {s : State} {bs : List Byte} (h : s.Pulsing bs) (hlast : ¬1 < s.unitCnt.toNat)
    (hst : s.st = .low) :
    ((s.bitsLeft bs).tail = [] ∧ s.unitOver = .next (s.goto .unlock)) ∨
    ∃ k j v, (s.standing k j v).bitsLeft bs = (s.bitsLeft bs).tail ∧ (s.standing k j v).AtByte ∧
      s.unitOver = .next (startPulse (s.standing k j v)) := by
  have hover : s.unitOver = nextBit s := by simp [State.unitOver, lowUnit, hst, hlast]
  rw [hover, nextBit]
  obtain ⟨htail, hn⟩ | ⟨k, j, v, hbits, hat, hn⟩ := nextIndex_bits h.copy h.pos
  · left
    rw [hn, andThen_of_next]
    exact ⟨htail, rfl⟩
  · right
    have hne : ¬(s.standing k j v).st = .unlock := by
      show ¬s.st = .unlock
      simp [hst]
    refine ⟨k, j, v, hbits, hat, ?_⟩
    rw [hn, andThen_of_next, if_neg hne]

/-- A time-unit that is over takes the present level from those to come; the end stays the end. -/
theorem unitOver_left {s e : State} {bs : List Byte} {x : Bool} {xs : List Bool} (h : s.Pulsing bs)
    (hlevels : s.levelsLeft bs = x :: xs) (hend : s.ended xs (s.bitsLeft bs).tail = e) (hpresc : s.presc = 0) :
    ∃ t, s.unitOver = .next t ∧ t.feed = s.feed ∧ t.presc = 0 ∧ t.Left bs xs e := by
  rw [h.levelsLeft, List.cons.injEq] at hlevels
  obtain ⟨-, rfl⟩ := hlevels
  by_cases hmore : 1 < s.unitCnt.toNat
  · obtain ⟨hover, hp, hlevels⟩ := unitOver_within h hmore
    exact ⟨_, hover, rfl, hpresc, .inr ⟨hp, hlevels, hend⟩⟩
  · rw [show s.unitCnt.toNat - 1 = 0 by omega, List.replicate_zero, List.nil_append] at hend ⊢
    obtain hst | hst := h.st
    · obtain ⟨hp, hlevels⟩ := State.fallen_pulsing h hst
      have hover : s.unitOver = .next s.fallen := by simp [State.unitOver, highUnit, State.fallen, hst, hmore]
      refine ⟨_, hover, rfl, hpresc, .inr ⟨hp, hlevels, ?_⟩⟩
      rw [State.fallen_ended]
      exact hend
    · have hafter : s.levelsAfter bs = (s.bitsLeft bs).tail.flatMap pulse := by simp [State.levelsAfter, hst]
      rw [hafter] at hend ⊢
      obtain ⟨htail, hover⟩ | ⟨k, j, v, hbits, hat, hover⟩ := unitOver_next h hmore hst
      · rw [htail] at hend ⊢
        refine ⟨_, hover, rfl, hpresc, .inl ⟨rfl, rfl, ?_, hend⟩⟩
        have hout := h.out
        rw [hst] at hout
        exact hout
      · rw [← hbits] at hend ⊢
        have hcopy : (s.standing k j v).CopyIs bs := h.copy
        refine ⟨_, hover, by simp [State.standing], by simp, ?_⟩
        rw [← hend]
        exact startPulse_left hcopy hat h.sel

/-- The analyser's sample is the present level. -/
theorem State.Left.sampled {s e : State} {bs : List Byte} {x : Bool} {xs : List Bool} (h : s.Left bs (x :: xs) e) :
    s.sampled.Pulsing bs ∧ s.sampled.levelsLeft bs = x :: xs ∧ s.sampled.ended xs (s.sampled.bitsLeft bs).tail = e := by
  obtain ⟨⟨hst, hunits, hcopy, hpos, hsel, hout⟩, hx⟩ := h.level
  obtain ⟨hnil, -⟩ | ⟨-, hlevels, rfl⟩ := h
  · cases hnil
  · refine ⟨⟨hst, hunits, hcopy, hpos, hsel, hout⟩, hlevels, ?_⟩
    refine State.ended_congr rfl rfl rfl ?_
    show (s.wave ++ [s.levelNow]) ++ xs.map (fun y => (s.lineSel, y)) = _
    rw [State.levelNow, hx]
    simp

/-- One clock cycle of the pulses (40 R81). -/
theorem step_left {s e : State} {bs : List Byte} {x : Bool} {xs : List Bool} {m : Nat} (h : s.Left bs (x :: xs) e)
    (hlock : s.lockReq = true) (hf : edgesAhead (m + 1) s.feed = true) :
    ∃ t, step s = .next t ∧ edgesAhead m t.feed = true ∧
      ((s.presc + 1 < s.cfg.cal ∧ t.presc = s.presc + 1 ∧ t.Left bs (x :: xs) e) ∨
       (s.cfg.cal ≤ s.presc + 1 ∧ t.presc = 0 ∧ t.Left bs xs e)) := by
  obtain ⟨⟨hst, hunits, -⟩, -⟩ := h.level
  have hidle : s.st ≠ .idle := by obtain h | h := hst <;> simp [h]
  obtain ⟨q, f, hf', -, hstep⟩ := step_ahead hf hidle
  have hrow : step s = unitClock (s.setFeed f) fun t => t.sampled.unitOver := by
    rw [hstep, hlock]
    show seqEdge q (s.setFeed f) = _
    obtain h | h := hst
    · have hk : highEdge (s.setFeed f) = unitClock (s.setFeed f) fun t => t.sampled.unitOver := by
        unfold highEdge unitClock
        simp [State.unitOver, h]
      simp [seqEdge, h, hk]
    · have hne : ¬(s.setFeed f).atSymbol = true := by
        intro ha
        simp only [State.atSymbol, State.setFeed_frame, Bool.and_eq_true, beq_iff_eq] at ha
        rw [ha.2] at hunits
        cases hunits
      have hk : lowEdge (s.setFeed f) = unitClock (s.setFeed f) fun t => t.sampled.unitOver := by
        rw [lowEdge, if_neg hne]
        unfold unitClock
        simp [State.unitOver, h]
      simp [seqEdge, h, hk]
  obtain ⟨hlt, hu⟩ | ⟨hge, hu⟩ := unitClock_cases (s.setFeed f) fun t => t.sampled.unitOver
  · exact ⟨_, hrow.trans hu, hf', .inl ⟨hlt, rfl, h.clocked f _⟩⟩
  · obtain ⟨hp, hlevels, hend⟩ := (h.clocked f 0).sampled
    obtain ⟨t, hover, hfeed, hpresc, hleft⟩ := unitOver_left hp hlevels hend rfl
    refine ⟨t, (hrow.trans hu).trans hover, ?_, .inr ⟨hge, hpresc, hleft⟩⟩
    rw [hfeed]
    exact hf'

/-- What the end says of the state, whatever levels are still to come. -/
theorem State.Left.keeps {s e : State} {bs : List Byte} {xs : List Bool} (h : s.Left bs xs e) :
    s.cfg = e.cfg ∧ s.lineSel = e.lineSel ∧ s.lockReq = e.lockReq ∧ s.preempt = e.preempt ∧ s.txc = e.txc ∧
      s.txcLen = e.txcLen := by
  obtain ⟨-, -, -, rfl⟩ | ⟨-, -, rfl⟩ := h <;> exact ⟨rfl, rfl, rfl, rfl, rfl, rfl⟩

/-- After `k` clock cycles of the pulses the levels of `k / CAL` time-units have gone (40 R81, R88). -/
theorem reaches_levels (k m : Nat) {s e : State} {bs : List Byte} {xs : List Bool} (h : s.Left bs xs e)
    (hpresc : k ≠ 0 → s.presc = 0) (hlock : e.lockReq = true) (hcal : 1 ≤ e.cfg.cal) (hk : k ≤ e.cfg.cal * xs.length)
    (hf : edgesAhead (k + m) s.feed = true) :
    ∃ t, s.Reaches k t ∧ edgesAhead m t.feed = true ∧ t.Left bs (xs.drop (k / e.cfg.cal)) e ∧
      (k ≠ 0 → t.presc = k % e.cfg.cal) := by
  induction k generalizing m with
  | zero => exact ⟨s, .zero s, by simpa using hf, by simpa using h, fun h0 => absurd rfl h0⟩
  | succ k ih =>
    have hs : s.presc = 0 := hpresc (Nat.succ_ne_zero k)
    obtain ⟨t, hreach, hf', hleft, ht⟩ :=
      ih (m + 1) (fun _ => hs) (by omega) (by rwa [show k + (m + 1) = k + 1 + m by omega])
    have htp : t.presc = k % e.cfg.cal := by
      by_cases h0 : k = 0
      · subst h0
        cases hreach
        simpa using hs
      · exact ht h0
    have hlt : k / e.cfg.cal < xs.length := (Nat.div_lt_iff_lt_mul hcal).2 (by rw [Nat.mul_comm]; omega)
    rw [List.drop_eq_getElem_cons hlt] at hleft
    obtain ⟨hcfg, -, hlock', -⟩ := hleft.keeps
    obtain ⟨u, hstep, hfu, hcase⟩ := step_left hleft (hlock'.trans hlock) hf'
    have hmod := Nat.mod_lt k hcal
    have hdiv := Nat.div_add_mod k e.cfg.cal
    rw [htp, hcfg] at hcase
    refine ⟨u, hreach.trans (.step hstep (.zero u)), hfu, ?_⟩
    obtain ⟨hin, hup, hleft'⟩ | ⟨hover, hup, hleft'⟩ := hcase
    · obtain ⟨hd, hm⟩ := (Nat.div_mod_unique (a := k + 1) (c := k % e.cfg.cal + 1) (d := k / e.cfg.cal) hcal).2
        ⟨by omega, hin⟩
      rw [hd, hm, List.drop_eq_getElem_cons hlt]
      exact ⟨hleft', fun _ => hup⟩
    · obtain ⟨hd, hm⟩ := (Nat.div_mod_unique (a := k + 1) (c := 0) (d := k / e.cfg.cal + 1) hcal).2
        ⟨by rw [Nat.mul_add]; omega, hcal⟩
      rw [hd, hm]
      exact ⟨hleft', fun _ => hup⟩

/-! ### From LOCK to the answer (41 R99 to R102) -/

/-- With no level to come the pulses have ended. -/
theorem State.Left.over {s e : State} {bs : List Byte} (h : s.Left bs [] e) :
    s.st = .unlock ∧ (s.line s.lineSel).out = false ∧ s.lines = e.lines ∧ s.trace = e.trace ∧ s.wave = e.wave ∧
      s.rest = e.rest := by
  obtain ⟨-, hst, hlow, rfl⟩ | ⟨hp, hlevels, -⟩ := h
  · exact ⟨hst, hlow, (State.lowLines_of_low hlow).symm, (List.append_nil _).symm, (List.append_nil _).symm, rfl⟩
  · rw [hp.levelsLeft] at hlevels
    cases hlevels

/-- Where the pulses of the copy `bs` lead from LOCK, with the HOST's bit as it is at that edge. -/
def State.pulsed (s : State) (bs : List Byte) : State :=
  (s.hosted [] s.preemptNext).lock.ended (waveOf bs) (bitsOf bs)

/-- From LOCK to the end of the pulses the line, the copy and the critical section stay. -/
theorem State.Left.sending {s y : State} {bs : List Byte} {xs : List Bool} (h : s.Left bs xs (y.pulsed bs)) :
    s.lineSel = y.lineSel ∧ s.lockReq = true ∧ s.preempt = false ∧ s.txc = y.txc ∧ s.txcLen = y.txcLen := by
  obtain ⟨-, hsel, hlock, hpre, htxc, htxcLen⟩ := h.keeps
  rw [hsel, hlock, hpre, htxc, htxcLen]
  simp [State.pulsed, State.ended, State.rest]

/-- The edge of LOCK: the waveform of the copy is to come (41 R99, R108). -/
theorem step_lock {s : State} {bs : List Byte} {m : Nat} (hst : s.st = .lock) (hlock : s.lockReq = false)
    (hcopy : s.CopyIs bs) (hsel : s.lineSel < s.numLines) (hlow : (s.line s.lineSel).out = false)
    (hf : edgesAhead (m + 1) s.feed = true) :
    ∃ t, step s = .next t ∧ edgesAhead m t.feed = true ∧ t.Left bs (waveOf bs) (s.pulsed bs) ∧
      (waveOf bs ≠ [] → t.presc = 0) := by
  obtain ⟨q, f, hf', -, hstep⟩ := step_ahead hf (by simp [hst])
  rw [hlock] at hstep
  have hrow : step s = enterCritical (s.hosted f s.preemptNext) fun t => .next (startPulse t) := by
    rw [hstep]
    simp [seqEdge, State.hosted, hst]
  obtain ⟨hlen, hread⟩ := hcopy
  cases bs with
  | nil =>
    have h0 : (s.hosted f s.preemptNext).txcLen = 0#32 := BitVec.eq_of_toNat_eq hlen.symm
    rw [enterCritical, if_pos h0] at hrow
    exact ⟨_, hrow, hf', .inl ⟨rfl, rfl, hlow, State.ended_congr rfl rfl rfl rfl⟩, fun h => absurd rfl h⟩
  | cons v vs =>
    have hne : ¬(s.hosted f s.preemptNext).txcLen = 0#32 := by
      intro h0
      have h0' : s.txcLen = 0#32 := h0
      rw [h0'] at hlen
      cases hlen
    have hv : s.txc.read 0 = some v := hread 0 (by simp)
    have hpos : 0 < s.txcLen.toNat := by rw [← hlen]; simp
    rw [enterCritical, if_neg hne, readByte_some _ (by exact hv)] at hrow
    have hleft := startPulse_left (s := (s.hosted f s.preemptNext).lock.loadByte 0#32 v) (bs := v :: vs)
      ⟨hlen, hread⟩ ⟨hpos, hv⟩ hsel
    rw [State.bitsLeft_loadByte rfl, ← waveOf_eq] at hleft
    have hend : ((s.hosted f s.preemptNext).lock.loadByte 0#32 v).ended (waveOf (v :: vs)) (bitsOf (v :: vs)) =
        s.pulsed (v :: vs) := State.ended_congr rfl rfl rfl rfl
    rw [hend] at hleft
    refine ⟨_, hrow, ?_, hleft, fun _ => startPulse_presc _⟩
    simpa using hf'

/-- After LOCK and `k` clock cycles the levels of `k / CAL` time-units of the copy's waveform have gone. -/
theorem reaches_wave (k m : Nat) {s : State} {bs : List Byte} (hst : s.st = .lock) (hlock : s.lockReq = false)
    (hcal : 1 ≤ s.cfg.cal) (hcopy : s.CopyIs bs) (hsel : s.lineSel < s.numLines) (hlow : (s.line s.lineSel).out = false)
    (hk : k ≤ s.cfg.cal * (waveOf bs).length) (hf : edgesAhead (1 + k + m) s.feed = true) :
    ∃ t, s.Reaches (1 + k) t ∧ edgesAhead m t.feed = true ∧
      t.Left bs ((waveOf bs).drop (k / s.cfg.cal)) (s.pulsed bs) := by
  obtain ⟨u, hstep, hfu, hleft, hpresc⟩ :=
    step_lock (m := k + m) hst hlock hcopy hsel hlow (by rwa [show k + m + 1 = 1 + k + m by omega])
  have hne : k ≠ 0 → waveOf bs ≠ [] := by
    intro hk0 hnil
    rw [hnil] at hk
    exact hk0 (by simpa using hk)
  obtain ⟨t, hreach, hft, hleft', -⟩ := reaches_levels k m hleft (fun hk0 => hpresc (hne hk0)) rfl hcal hk hfu
  rw [Nat.add_comm]
  exact ⟨t, .step hstep hreach, hft, hleft'⟩

/-- After LOCK and CAL clock cycles for each time-unit the pulses have ended. -/
theorem reaches_unlock (m : Nat) {s : State} {bs : List Byte} (hst : s.st = .lock) (hlock : s.lockReq = false)
    (hcal : 1 ≤ s.cfg.cal) (hcopy : s.CopyIs bs) (hsel : s.lineSel < s.numLines) (hlow : (s.line s.lineSel).out = false)
    (hf : edgesAhead (1 + s.cfg.cal * (waveOf bs).length + m) s.feed = true) :
    ∃ t, s.Reaches (1 + s.cfg.cal * (waveOf bs).length) t ∧ edgesAhead m t.feed = true ∧
      t.Left bs [] (s.pulsed bs) := by
  obtain ⟨t, hreach, hft, hleft⟩ :=
    reaches_wave (s.cfg.cal * (waveOf bs).length) m hst hlock hcal hcopy hsel hlow le_rfl hf
  rw [Nat.mul_div_cancel_left _ hcal, List.drop_length] at hleft
  exact ⟨t, hreach, hft, hleft⟩

/-- The edge of UNLOCK answers the copy and gives the HOST its bit back (41 R101, R102). -/
theorem step_unlock {s : State} {bs : List Byte} {m : Nat} (hst : s.st = .unlock) (hlock : s.lockReq = true)
    (hcopy : s.CopyIs bs) (hf : edgesAhead (m + 1) s.feed = true) :
    ∃ f, step s = .next (respond .ok false s.txcLen bs (s.setFeed f).unlock) := by
  obtain ⟨q, f, -, -, hstep⟩ := step_ahead hf (by simp [hst])
  obtain ⟨hlen, hread⟩ := hcopy
  have hbytes : s.txc.readFrom 0 s.txcLen.toNat = .ok bs :=
    (Memory.readFrom_eq_ok _ _ _ _).2 ⟨hlen, fun j hj => by rw [Nat.zero_add]; exact hread j (by omega)⟩
  refine ⟨f, ?_⟩
  rw [hstep, hlock]
  show seqEdge q (s.setFeed f) = _
  have hrow : seqEdge q (s.setFeed f) = unlockEdge (s.setFeed f) := by simp [seqEdge, hst]
  rw [hrow, unlockEdge, echo, readBytes_ok (bs := bs) _ (by simpa using hbytes)]
  rfl

/-- From LOCK the copy `bs` is sent and answered, after one edge of LOCK, CAL edges a time-unit and one edge of
UNLOCK. -/
theorem reaches_answer {s : State} {bs : List Byte} (hst : s.st = .lock) (hlock : s.lockReq = false)
    (hcal : 1 ≤ s.cfg.cal) (hcopy : s.CopyIs bs) (hsel : s.lineSel < s.numLines) (hlow : (s.line s.lineSel).out = false)
    (hf : edgesAhead (2 + s.cfg.cal * (waveOf bs).length) s.feed = true) :
    ∃ (f : List Input) (t : State), t.Left bs [] (s.pulsed bs) ∧
      s.Reaches (2 + s.cfg.cal * (waveOf bs).length) (respond .ok false s.txcLen bs (t.setFeed f).unlock) := by
  have h2 : 1 + s.cfg.cal * (waveOf bs).length + 1 = 2 + s.cfg.cal * (waveOf bs).length := by omega
  rw [← h2] at hf ⊢
  obtain ⟨t, hreach, hft, hleft⟩ := reaches_unlock 1 hst hlock hcal hcopy hsel hlow hf
  obtain ⟨-, hlock', -, htxc, htxcLen⟩ := hleft.sending
  obtain ⟨hunlock, -⟩ := hleft.over
  obtain ⟨f, hstep⟩ := step_unlock (bs := bs) hunlock hlock' (by rwa [State.CopyIs, htxc, htxcLen]) hft
  rw [htxcLen] at hstep
  exact ⟨f, t, hleft, hreach.trans (.step hstep (.zero _))⟩

/-- Settles O51: the levels still to come are followed edge by edge (`reaches_levels`) and then UNLOCK answers. -/
theorem wireCarriesTheWave : Obligations.WireCarriesTheWave := by
  intro s bs hs hst hcal hlen hread hf
  have hcopy : s.CopyIs bs := ⟨hlen, hread⟩
  obtain ⟨-, -, -, ⟨hcrit, -⟩, hpins, -, -⟩ := hs
  have ⟨hsel, _⟩ := hpins
  have hlow := hpins.low (by simp [hst]) _ hsel
  have hlock : s.lockReq = false := by
    rw [← Bool.not_eq_true, hcrit]
    simp [hst, SeqState.critical]
  refine ⟨fun k hk => ?_, ?_, ?_⟩
  · obtain ⟨m, hm⟩ := Nat.exists_eq_add_of_lt hk
    obtain ⟨t, hreach, -, hleft⟩ := reaches_wave k (m + 2) hst hlock hcal hcopy hsel hlow hk.le
      (by rwa [show 1 + k + (m + 2) = 2 + (k + m + 1) by omega, ← hm])
    have hlt : k / s.cfg.cal < (waveOf bs).length := (Nat.div_lt_iff_lt_mul hcal).2 (by rwa [Nat.mul_comm])
    rw [List.drop_eq_getElem_cons hlt] at hleft
    obtain ⟨hp, hout⟩ := hleft.level
    obtain ⟨hsel', hlock', hpre', -⟩ := hleft.sending
    refine ⟨t, hreach, hp.st, hlock', hpre', ?_⟩
    rw [List.getElem?_eq_getElem hlt, ← hsel', hout]
  · obtain ⟨t, hreach, -, hleft⟩ := reaches_unlock 1 hst hlock hcal hcopy hsel hlow
      (by rwa [show 1 + s.cfg.cal * (waveOf bs).length + 1 = 2 + s.cfg.cal * (waveOf bs).length by omega])
    obtain ⟨hunlock, hout, -⟩ := hleft.over
    obtain ⟨hsel', hlock', -⟩ := hleft.sending
    exact ⟨t, hreach, hunlock, hlock', hsel' ▸ hout⟩
  · obtain ⟨f, t, hleft, hreach⟩ := reaches_answer hst hlock hcal hcopy hsel hlow hf
    obtain ⟨-, -, -, -, -, hrest⟩ := hleft.over
    have hsaved : t.rest.savedPreempt = s.preemptNext := by rw [hrest]; rfl
    exact ⟨_, hreach, rfl, rfl, hsaved⟩

end Sys2Proof.Machine
end

section
/-! The edges of a TRANSMIT from CFG compute what its algorithm computes (spec 41 R103, R108). -/

namespace Sys2Proof.Machine

/-! ### From CFG to SCALE (41 R97) -/

theorem State.hosted_timer (s : State) (f : List Input) (b : Bool) (c p : Nat) :
    (s.hosted f b).timer c p = (s.timer c p).hosted f b := rfl

theorem State.hosted_endSettle (s : State) (f : List Input) (b : Bool) :
    (s.hosted f b).endSettle = s.endSettle.hosted f b := rfl

theorem State.hosted_goto (s : State) (f : List Input) (b : Bool) (q : SeqState) :
    (s.hosted f b).goto q = (s.goto q).hosted f b := rfl

/-- The last edge of SETTLE. -/
theorem step_endSettle {s : State} {m : Nat} (hst : s.st = .settle) (hlock : s.lockReq = false) (hc : s.settleCnt = 0)
    (hf : edgesAhead (m + 1) s.feed = true) :
    ∃ f b, step s = .next ((s.endSettle.goto .scale).hosted f b) ∧ s.Ahead m f b := by
  obtain ⟨q, f, b, he, hahead⟩ := step_ahead_unlocked hf (by simp [hst]) hlock
  have hrow : step s = settleEdge (s.hosted f b) := by
    rw [he]
    simp [seqEdge, State.hosted, hst]
  rw [settleEdge, if_pos (by exact hc)] at hrow
  exact ⟨f, b, hrow, hahead⟩

/-- The state of a TRANSMIT before its storage is asked for: step 1 on LINE_SEL is done. -/
def State.settled (s : State) : State := ((s.configure s.lineSel).setPresc 0).goto .scale

/-- The edges of CFG and SETTLE do what step 1 does. -/
theorem cfgEdge_endSettle (s : State) : (((cfgEdge s).timer 0 0).endSettle).goto .scale = s.settled := by
  have hselect : s.selectLine s.lineSel = s := rfl
  rw [State.settled, State.configure, hselect, cfgEdge]
  generalize (s.pinMode s.lineSel).pinWrite s.lineSel false = u
  rfl

/-- How many edges CFG and SETTLE take. -/
def State.settleEdges (s : State) : Nat := (s.cfg.tSettle + Config.settleExtra s.draws) * s.cfg.cal + 2

/-- A HOST with nothing to do stays so. -/
theorem State.Ahead.trans {s t : State} {k m : Nat} {f g : List Input} {b c : Bool} (h : s.Ahead k f b)
    (hfeed : t.feed = f) (hpre : t.preempt = b) (h' : t.Ahead m g c) : s.Ahead m g c := by
  obtain ⟨-, hq⟩ := h
  obtain ⟨hm, hq'⟩ := h'
  refine ⟨hm, fun h0 => ?_⟩
  obtain ⟨rfl, rfl⟩ := hq h0
  obtain ⟨hg, hc⟩ := hq' hfeed
  exact ⟨hg, hc.trans hpre⟩

/-- From CFG the edges of CFG and SETTLE lead to SCALE. -/
theorem reaches_scale {s : State} {m : Nat} (hst : s.st = .cfg) (hlock : s.lockReq = false) (hcal : 1 ≤ s.cfg.cal)
    (hf : edgesAhead (s.settleEdges + m) s.feed = true) :
    ∃ f b, s.Reaches s.settleEdges (s.settled.hosted f b) ∧ s.Ahead m f b := by
  have hsum : s.settleEdges + m = (s.cfg.tSettle + Config.settleExtra s.draws) * s.cfg.cal + (m + 1) + 1 := by
    rw [State.settleEdges]
    omega
  obtain ⟨f, b, hcfg, hahead⟩ := step_cfg hst hlock (by rwa [← hsum])
  have hfields : (cfgEdge s).st = .settle ∧ (cfgEdge s).lockReq = false ∧ (cfgEdge s).presc = 0 ∧
      (cfgEdge s).cfg = s.cfg ∧ (cfgEdge s).settleCnt = s.cfg.tSettle + Config.settleExtra s.draws := by
    simp [cfgEdge, hlock]
  obtain ⟨hst', hlock', hpresc', hcfg', hcnt'⟩ := hfields
  have hpos : 0 < s.cfg.cal := hcal
  obtain ⟨c, p, f', b', hsettle, hp, hcount, hahead''⟩ :=
    reaches_settle ((s.cfg.tSettle + Config.settleExtra s.draws) * s.cfg.cal) (m + 1) (s := (cfgEdge s).hosted f b)
      (by simpa using hst') (by simpa using hlock') (by simpa [hpresc', hcfg'] using hpos)
      (by simp [hpresc', hcnt', hcfg']) (by simpa using hahead.1)
  simp only [State.hosted_frame, hpresc', hcnt', hcfg'] at hp hcount
  obtain rfl : c = 0 := by
    by_contra hc
    have := Nat.le_mul_of_pos_left s.cfg.cal (Nat.pos_of_ne_zero hc)
    omega
  obtain rfl : p = 0 := by omega
  obtain ⟨g, d, hend, hahead'''⟩ := step_endSettle (s := (((cfgEdge s).hosted f b).timer 0 0).hosted f' b')
    (by simpa using hst') (by simpa using hlock') rfl hahead''.1
  have hlast : ((((((cfgEdge s).hosted f b).timer 0 0).hosted f' b').endSettle.goto .scale).hosted g d) =
      s.settled.hosted g d := by
    rw [← cfgEdge_endSettle, State.hosted_timer, State.hosted_hosted, State.hosted_endSettle, State.hosted_goto,
      State.hosted_hosted]
  rw [hlast] at hend
  exact ⟨g, d, .step hcfg (hsettle.trans (.step hend (.zero _))),
    State.Ahead.trans (State.Ahead.trans hahead (by simp) (by simp) hahead'') (by simp) (by simp) hahead'''⟩

/-! ### SCALE (41 R98) -/

/-- The edge of SCALE. -/
theorem step_scale {s : State} {m : Nat} (hst : s.st = .scale) (hlock : s.lockReq = false)
    (hf : edgesAhead (m + 1) s.feed = true) :
    ∃ f b, step s = scaleEdge (s.hosted f b) ∧ s.Ahead m f b := by
  obtain ⟨q, f, b, he, hahead⟩ := step_ahead_unlocked hf (by simp [hst]) hlock
  refine ⟨f, b, ?_, hahead⟩
  rw [he]
  simp [seqEdge, State.hosted, hst]

/-- From CFG with the storage refused the edges lead to `E_ALLOC`. -/
theorem reaches_refused {s : State} {m : Nat} {n : Len} (hst : s.st = .cfg) (hlock : s.lockReq = false)
    (hcal : 1 ≤ s.cfg.cal) (hn : argField s.cmd = n) (ha : ¬s.copyGranted n)
    (hf : edgesAhead (s.settleEdges + 1 + m) s.feed = true) :
    ∃ f b, s.Reaches (s.settleEdges + 1) (raise .eAlloc (s.settled.asked.hosted f b)) ∧ s.Ahead m f b := by
  obtain ⟨f, b, hreach, hahead⟩ :=
    reaches_scale (m := m + 1) hst hlock hcal (by rwa [show s.settleEdges + (m + 1) = s.settleEdges + 1 + m by omega])
  have hlock' : (s.settled.hosted f b).lockReq = false := by simp [State.settled, hlock]
  obtain ⟨g, c, hstep, hahead'⟩ := step_scale (s := s.settled.hosted f b) rfl hlock' hahead.1
  have ha' : ((s.settled.hosted f b).hosted g c).txOK n.toNat = false := by
    simpa [State.txOK, State.settled] using ha
  have hcmd : argField ((s.settled.hosted f b).hosted g c).cmd = n := by simpa [State.settled] using hn
  rw [scaleEdge, hcmd, withCopy_alloc _ ha'] at hstep
  exact ⟨g, c, hreach.trans (.step hstep (.zero _)), State.Ahead.trans hahead (by simp) (by simp) hahead'⟩

/-- The state of a TRANSMIT in LOCK: the payload is scaled into the copy. -/
def State.inLock (s : State) (n : Len) (bs : List Byte) : State := (s.settled.asked.storeCopy n bs).goto .lock

/-- From CFG with the storage granted the edges lead to LOCK with the copy. -/
theorem reaches_inLock {s : State} {m : Nat} {n : Len} {bs : List Byte} (hst : s.st = .cfg) (hlock : s.lockReq = false)
    (hcal : 1 ≤ s.cfg.cal) (hn : argField s.cmd = n) (ha : s.copyGranted n) (hb : s.argbuf.readFrom 0 n.toNat = .ok bs)
    (hf : edgesAhead (s.settleEdges + 1 + m) s.feed = true) :
    ∃ f b, s.Reaches (s.settleEdges + 1) ((s.inLock n bs).hosted f b) ∧ s.Ahead m f b := by
  obtain ⟨f, b, hreach, hahead⟩ :=
    reaches_scale (m := m + 1) hst hlock hcal (by rwa [show s.settleEdges + (m + 1) = s.settleEdges + 1 + m by omega])
  have hlock' : (s.settled.hosted f b).lockReq = false := by simp [State.settled, hlock]
  obtain ⟨g, c, hstep, hahead'⟩ := step_scale (s := s.settled.hosted f b) rfl hlock' hahead.1
  have ha' : ((s.settled.hosted f b).hosted g c).txOK n.toNat = true := by
    simpa [State.txOK, State.settled] using ha
  have hcmd : argField ((s.settled.hosted f b).hosted g c).cmd = n := by simpa [State.settled] using hn
  rw [scaleEdge, hcmd, withCopy_ok (bs := bs) _ ha' (by simpa [State.settled] using hb)] at hstep
  have hnext : step (s.settled.hosted f b) = .next ((s.inLock n bs).hosted g c) := by
    rw [hstep, State.inLock]
    generalize s.settled = u
    rfl
  exact ⟨g, c, hreach.trans (.step hnext (.zero _)), State.Ahead.trans hahead (by simp) (by simp) hahead'⟩

/-- The copy that stands in LOCK. -/
theorem State.inLock_copy (s : State) {n : Len} {bs : List Byte} (hn : bs.length = n.toNat) :
    (s.inLock n bs).txcLen = n ∧ (s.inLock n bs).CopyIs (s.copyOf bs) := by
  have htxc : (s.inLock n bs).txc = Memory.ofBytes (s.copyOf bs) := by
    simp [State.inLock, State.settled, State.copyOf]
  have htxcLen : (s.inLock n bs).txcLen = n := by simp [State.inLock]
  refine ⟨htxcLen, by rw [htxcLen, State.copyOf_length, hn], fun j _ => ?_⟩
  rw [htxc, Memory.read_ofBytes]

/-! ### The two ends (41 R102, 60 R147) -/

/-- What the end of the pulses of the copy `bs` keeps of the state in LOCK. -/
theorem State.Left.kept {s y : State} {bs : List Byte} (h : s.Left bs [] (y.pulsed bs)) :
    s.cfg = y.cfg ∧ s.bright = y.bright ∧ s.remapPresent = y.remapPresent ∧ s.remapLen = y.remapLen ∧ s.rmp = y.rmp ∧
      s.cmd = y.cmd ∧ s.argbuf = y.argbuf ∧ s.lineSel = y.lineSel ∧ s.draws = y.draws ∧
      s.savedPreempt = y.preemptNext := by
  obtain ⟨-, -, -, -, -, hrest⟩ := h.over
  have hrest' : s.rest = (y.hosted [] y.preemptNext).lock.rest := hrest
  simp only [State.rest, State.mk.injEq, State.lock_frame, State.lock_savedPreempt, State.hosted_frame,
    State.hosted_preempt] at hrest'
  simp [hrest']

/-- What the pulses of the copy `bs` have done to the pins and recorded since LOCK. -/
theorem State.Left.observed {s y : State} {bs : List Byte} (h : s.Left bs [] (y.pulsed bs))
    (hlow : (y.line y.lineSel).out = false) :
    s.lines = y.lines ∧ s.trace = y.trace ++ [.lock] ++ (bitsOf bs).map (Event.emit y.lineSel) ∧
      s.wave = y.wave ++ (waveOf bs).map fun x => (y.lineSel, x) := by
  obtain ⟨-, -, hlines, htrace, hwave, -⟩ := h.over
  have hlow' : y.lowLines = y.lines := State.lowLines_of_low hlow
  exact ⟨hlines.trans hlow', htrace, hwave⟩

/-- The end `t` of the edges of a TRANSMIT from `s`, whose HOST does `f`, agrees with the end `u` of its algorithm. -/
abbrev State.EndsAs (s : State) (f : List Input) (t u : State) : Prop :=
  t.st = .resp ∧ t.trace = u.trace ∧ t.wave = u.wave ∧ t.lines = u.lines ∧ t.rsp = u.rsp ∧ t.resbuf = u.resbuf ∧
  t.lineSel = u.lineSel ∧ t.lockReq = u.lockReq ∧ t.draws = u.draws ∧ (f = [] → t.preempt = u.preempt) ∧
  (t.cfg = u.cfg ∧ u.cfg = s.cfg) ∧ (t.bright = u.bright ∧ u.bright = s.bright) ∧
  (t.remapPresent = u.remapPresent ∧ u.remapPresent = s.remapPresent) ∧
  (t.remapLen = u.remapLen ∧ u.remapLen = s.remapLen) ∧ (t.rmp = u.rmp ∧ u.rmp = s.rmp) ∧
  (t.cmd = u.cmd ∧ u.cmd = s.cmd) ∧ (t.argbuf = u.argbuf ∧ u.argbuf = s.argbuf)

/-- The edges of a TRANSMIT whose storage is refused. -/
theorem edges_refused {s : State} {n : Len} {f : List Input} (hst : s.st = .cfg) (hlock : s.lockReq = false)
    (hcal : 1 ≤ s.cfg.cal) (hn : argField s.cmd = n) (ha : ¬s.copyGranted n)
    (hf : edgesAhead (s.settleEdges + 1) f = true) :
    ∃ t, (s.setFeed f).Reaches (s.settleEdges + 1) t ∧
      s.EndsAs f t (raise .eAlloc (s.configure s.lineSel).asked) := by
  obtain ⟨g, b, hreach, -, hquiet⟩ := reaches_refused (s := s.setFeed f) (m := 0) hst hlock hcal hn ha hf
  have hb : f = [] → b = s.preempt := fun h => (hquiet h).2
  refine ⟨_, hreach, ?_⟩
  simpa [State.EndsAs, raise_eq, State.settled, State.configure_lines_set, hlock] using hb

/-- What the edges of a TRANSMIT have written up to LOCK, beside the copy. -/
theorem State.inLock_fields (s : State) (n : Len) (bs : List Byte) :
    (s.inLock n bs).cfg = s.cfg ∧ (s.inLock n bs).bright = s.bright ∧
    (s.inLock n bs).remapPresent = s.remapPresent ∧ (s.inLock n bs).remapLen = s.remapLen ∧
    (s.inLock n bs).rmp = s.rmp ∧ (s.inLock n bs).cmd = s.cmd ∧ (s.inLock n bs).argbuf = s.argbuf ∧
    (s.inLock n bs).lineSel = s.lineSel ∧ (s.inLock n bs).draws = (s.transmitted s.lineSel n bs).draws ∧
    (s.inLock n bs).lockReq = s.lockReq ∧
    (s.inLock n bs).trace = s.trace ++ [.pinMode s.lineSel, .pinWrite s.lineSel false, .settle s.cfg.tSettle] ∧
    (s.inLock n bs).wave = s.wave ∧ (s.inLock n bs).lines = s.lines.set s.lineSel ⟨true, true, false⟩ := by
  simp [State.inLock, State.settled, State.configure_lines_set, State.transmitted, State.copied]

/-- In LOCK the line of a TRANSMIT is low. -/
theorem State.inLock_low {s : State} (n : Len) (bs : List Byte) (hsel : s.lineSel < s.numLines) :
    (s.inLock n bs).lineSel < (s.inLock n bs).numLines ∧
      ((s.inLock n bs).line (s.inLock n bs).lineSel).out = false := by
  obtain ⟨-, -, -, -, -, -, -, hlineSel, -, -, -, -, hlines⟩ := s.inLock_fields n bs
  rw [hlineSel, State.numLines_of_lines hlines, State.line_of_lines hlines, if_pos ⟨rfl, hsel⟩]
  exact ⟨hsel, rfl⟩

/-- The response after the pulses agrees with the end of the algorithm. -/
theorem State.Left.endsAs {s v : State} {n : Len} {bs : List Byte} {f g : List Input} {b : Bool} (h : List Input)
    (hsel : s.lineSel < s.numLines) (hquiet : f = [] → g = [] ∧ b = s.preempt)
    (hleft : v.Left (s.copyOf bs) [] (((s.inLock n bs).hosted g b).pulsed (s.copyOf bs))) :
    s.EndsAs f (respond .ok false n (s.copyOf bs) (v.setFeed h).unlock) (s.transmitted s.lineSel n bs) := by
  obtain ⟨hcfg, hbright, hpresent, hlen, hrmp, hcmd, hargbuf, hlineSel, hdraws, -, htrace, hwave, hlines⟩ :=
    s.inLock_fields n bs
  obtain ⟨vlines, vtrace, vwave⟩ := hleft.observed (by simpa using (State.inLock_low n bs hsel).2)
  obtain ⟨vcfg, vbright, vpresent, vlen, vrmp, vcmd, vargbuf, vlineSel, vdraws, vsaved⟩ := hleft.kept
  obtain ⟨ursp, uresbuf, -, -, -, -, -, ulineSel, upreempt, ulock⟩ := s.transmitted_regs s.lineSel n bs
  have hkeeps := s.transmitted_keeps s.lineSel n bs
  have hpreempt : f = [] → v.savedPreempt = s.preempt := by
    intro h0
    obtain ⟨rfl, rfl⟩ := hquiet h0
    simpa [State.preemptNext] using vsaved
  simp only [State.hosted_frame, hcfg, hbright, hpresent, hlen, hrmp, hcmd, hargbuf, hlineSel, hdraws, htrace, hwave,
    hlines] at vlines vtrace vwave vcfg vbright vpresent vlen vrmp vcmd vargbuf vlineSel vdraws
  simpa [State.EndsAs, hkeeps, ursp, uresbuf, ulineSel, upreempt, ulock, s.transmitted_lines s.lineSel n bs hsel,
    s.transmitted_wave s.lineSel n bs hsel, s.transmitted_trace s.lineSel n bs, vlines, vtrace, vwave, vcfg, vbright,
    vpresent, vlen, vrmp, vcmd, vargbuf, vlineSel, vdraws] using hpreempt

/-- The edges of a TRANSMIT whose storage is granted. -/
theorem edges_granted {s : State} {n : Len} {bs : List Byte} {f : List Input} (hst : s.st = .cfg)
    (hlock : s.lockReq = false) (hcal : 1 ≤ s.cfg.cal) (hn : argField s.cmd = n) (hsel : s.lineSel < s.numLines)
    (ha : s.copyGranted n) (hb : s.argbuf.readFrom 0 n.toNat = .ok bs)
    (hf : edgesAhead (s.settleEdges + 1 + (2 + s.cfg.cal * (waveOf (s.copyOf bs)).length)) f = true) :
    ∃ t, (s.setFeed f).Reaches (s.settleEdges + 1 + (2 + s.cfg.cal * (waveOf (s.copyOf bs)).length)) t ∧
      s.EndsAs f t (s.transmitted s.lineSel n bs) := by
  obtain ⟨g, b, hreach, hf', hquiet⟩ := reaches_inLock (s := s.setFeed f) hst hlock hcal hn ha hb hf
  have hsame : ((s.setFeed f).inLock n bs).hosted g b = (s.inLock n bs).hosted g b := rfl
  rw [hsame] at hreach
  obtain ⟨hlen, hcopy⟩ := s.inLock_copy ((Memory.readFrom_eq_ok _ _ _ _).1 hb).1
  obtain ⟨hcfg, -, -, -, -, -, -, -, -, hlock', -⟩ := s.inLock_fields n bs
  obtain ⟨hsel', hlow⟩ := State.inLock_low n bs hsel
  obtain ⟨h, v, hleft, hanswer⟩ := reaches_answer (s := (s.inLock n bs).hosted g b) (bs := s.copyOf bs) rfl
    (by simpa [hlock'] using hlock) (by simpa [hcfg] using hcal) hcopy hsel' hlow (by simpa [hcfg] using hf')
  simp only [State.hosted_frame, hcfg, hlen] at hanswer
  exact ⟨_, hreach.trans hanswer, hleft.endsAs h hsel fun h0 => ⟨(hquiet h0).1, (hquiet h0).2⟩⟩

/-- Settles O52: the edges run through CFG, SETTLE and SCALE, and with the storage granted on through LOCK, the pulses
and UNLOCK; their number depends on the parameters and the copy alone. -/
theorem edgesComputeTheAlgorithm : Obligations.EdgesComputeTheAlgorithm := by
  intro s pin n hs hst hcal hd hpin
  obtain ⟨⟨-, -, harg, -⟩, -, -, hlock, -⟩ := hs.ready (.inr (.inr (.inr (.inl hst))))
  obtain ⟨-, -, ⟨-, -, hpay⟩, -⟩ := hs
  obtain ⟨-, hn⟩ := decode_transmit hd
  rw [hpay (.inl hst), ← hn] at harg
  obtain ⟨bs, hb, -⟩ := Memory.readFrom_dense harg
  by_cases ha : s.copyGranted n
  · exact ⟨_, _, transmitBuffer_ok hpin ha hb, fun f hf =>
      edges_granted hst hlock hcal hn.symm (State.pinLine_lt hpin) ha hb hf⟩
  · exact ⟨_, _, transmitBuffer_alloc hpin ha, fun f hf => edges_refused hst hlock hcal hn.symm ha hf⟩

end Sys2Proof.Machine
end
